-- ==== Sys2Proof/Word.lean ====
section
/-! DEFINITION. The words of the machine: a byte, a 64-bit command word, an address. -/
namespace Sys2Proof

/-- One byte of RAM, PMEM, a payload or an 8-bit register (R20, R61). -/
abbrev Byte := BitVec 8

/-- A command word (R85), and the image of the setup record, byte 0 least significant (R35). -/
abbrev Word := BitVec 64

/-- A RAM or PMEM address as field `B` carries it (R86). The upper bits beyond `ADDR_W` are 0 in every
address the machine keeps. -/
abbrev Addr := BitVec 32

end Sys2Proof
end

