-- ==== Sys2Proof/Syntax.lean ====
section
/-! DEFINITION. The instructions: one constructor for each of the 44 rows of the opcode map (R90). Operands are
unsigned (R91); a field the row does not have is no argument. -/
namespace Sys2Proof

/-- A direction of an endpoint (R20): `OUT` = 0, host to device; `IN` = 1, device to host. -/
inductive Dir where
  | OUT
  | IN
  deriving DecidableEq, Repr

/-- A bank of a direction (R20, R21). -/
inductive Bank where
  | b0
  | b1
  deriving DecidableEq, Repr

/-- A command word with its payload, decoded. Formats C (R86), E (R87) and S (R88). -/
inductive Instr where
  -- format C, endpoint operations (R111 to R124)
  | epInit (ep : BitVec 4) (dir : Dir) (type : BitVec 2) (bufsize : BitVec 2) (pingpong : Bool)
  | epCancel (ep : BitVec 4) (dir : Dir)
  | epArm (ep : BitVec 4) (dir : Dir) (bank : Bank) (size : BitVec 16) (buf : Addr)
  | epIsdone (ep : BitVec 4) (dir : Dir) (bank : Bank) (any : Bool)
  | epClrdone (ep : BitVec 4) (dir : Dir)
  | epIsready (ep : BitVec 4) (dir : Dir)
  | epIsempty (ep : BitVec 4) (dir : Dir)
  | epNextbank (ep : BitVec 4) (dir : Dir)
  | epStall (ep : BitVec 4) (dir : Dir)
  | epRdstatus (ep : BitVec 4) (dir : Dir) (mask : Byte)
  | epTac (ep : BitVec 4) (dir : Dir) (mask : Byte)
  | epTas (ep : BitVec 4) (dir : Dir) (mask : Byte)
  | epRdcnt (ep : BitVec 4) (dir : Dir) (bank : Bank)
  | epRdctrl (ep : BitVec 4) (dir : Dir)
  -- format C, global commands (R125 to R132)
  | gRd (reg : BitVec 4)
  | ifaClr (mask : Byte)
  | ifbClr (mask : Byte)
  | setAddr (addr : BitVec 7)
  | attach
  | detach
  | intEnable (busevie : Bool) (trnie : Bool)
  | usbReinit
  -- format C, the engine's terminal commands (R200 to R203)
  | ctlIn (size : BitVec 16)
  | ctlOut
  | ctlAck
  | ctlStall
  -- format C, the bridge (R231, R232)
  | bridgeCopy (len : BitVec 16) (src : Addr)
  | bufCopy (len : BitVec 16) (src : Addr)
  -- format C, harness commands (R133, R134, R233)
  | ramWr (data : Byte) (addr : Addr)
  | ramRd (addr : Addr)
  | nvmcmdWr (value : Byte)
  -- format E, bus events (R143 to R150); `payload` is the `LEN` bytes that follow the header
  | busSetup (ep : BitVec 4) (devaddr : BitVec 7) (payload : List Byte)
  | busOut (ep : BitVec 4) (devaddr : BitVec 7) (payload : List Byte)
  | busIn (ep : BitVec 4) (hack : Bool) (devaddr : BitVec 7)
  | busSof
  | busReset
  | busSuspend
  | busResume
  | busCrcerr
  -- format S, handler starts and engine events (R171, R176, R191, R196, R197)
  | svcBusevent
  | svcTrncompl
  | evNewrequest
  | evCtloutDone
  | evCtlinDone (stale : Bool)
  deriving DecidableEq, Repr

end Sys2Proof
end

