-- ==== Sys2Proof/WellFormed.lean ====
section
/-! DEFINITION. Which terms of `Instr` a command word can carry. Every field but the payload is typed with the
width the encoding gives it (R91), so the only check left is that the payload's length fits the 16-bit `LEN` field
(R87, R95). A legal encoding with a reserved VALUE in a field (R97) is well formed: what it does is its rule's. -/
namespace Sys2Proof

/-- The payload's length fits `LEN`, 16 bits (R87). -/
def payloadFits (payload : List Byte) : Bool := payload.length < 2 ^ 16

/-- The term is one that a word (with its payload) stands for. -/
def Instr.wf : Instr → Bool
  | .busSetup _ _ payload => payloadFits payload
  | .busOut _ _ payload => payloadFits payload
  | .epInit _ _ _ _ _ | .epCancel _ _ | .epArm _ _ _ _ _ | .epIsdone _ _ _ _ | .epClrdone _ _ | .epIsready _ _
  | .epIsempty _ _ | .epNextbank _ _ | .epStall _ _ | .epRdstatus _ _ _ | .epTac _ _ _ | .epTas _ _ _
  | .epRdcnt _ _ _ | .epRdctrl _ _ | .gRd _ | .ifaClr _ | .ifbClr _ | .setAddr _ | .attach | .detach
  | .intEnable _ _ | .usbReinit | .ctlIn _ | .ctlOut | .ctlAck | .ctlStall | .bridgeCopy _ _ | .bufCopy _ _
  | .ramWr _ _ | .ramRd _ | .nvmcmdWr _ | .busIn _ _ _ | .busSof | .busReset | .busSuspend | .busResume
  | .busCrcerr | .svcBusevent | .svcTrncompl | .evNewrequest | .evCtloutDone | .evCtlinDone _ => true

end Sys2Proof
end

