-- ==== Sys2Proof/Decode.lean ====
section
/-! DEFINITION. The decoder and the encoder, both from the opcode map of R90 and the formats of R85 to R88. The
decoder reads a stream of bytes: a 64-bit word, most significant byte first (log entry 1), then `LEN` payload bytes
for `BUS_SETUP` and `BUS_OUT` (R95). It is total and names what it rejects. -/
namespace Sys2Proof

/-! ## Fields -/

/-- Bit `DIR`: 0 = OUT, 1 = IN (R86). -/
def Dir.ofBit (b : Bool) : Dir := if b then .IN else .OUT

/-- The bit of a direction (R86). -/
def Dir.bit : Dir → BitVec 1
  | .OUT => 0#1
  | .IN => 1#1

/-- Bit `BANK` (R86). -/
def Bank.ofBit (b : Bool) : Bank := if b then .b1 else .b0

/-- The bit of a bank (R86). -/
def Bank.bit : Bank → BitVec 1
  | .b0 => 0#1
  | .b1 => 1#1

/-- Field `EP[55:52]` (R86, R87). -/
def Word.ep (w : Word) : BitVec 4 := w.extractLsb' 52 4

/-- Field `DIR[51]` (R86). -/
def Word.dir (w : Word) : Dir := Dir.ofBit (w.getLsbD 51)

/-- Field `BANK[50]` (R86). -/
def Word.bank (w : Word) : Bank := Bank.ofBit (w.getLsbD 50)

/-- Field `A[47:32]`, and `LEN` of format E (R86, R87). -/
def Word.a (w : Word) : BitVec 16 := w.extractLsb' 32 16

/-- The low byte of `A`, bits 39:32: `MASK`, `DATA`, `VALUE` (R91). -/
def Word.aByte (w : Word) : Byte := w.extractLsb' 32 8

/-- Field `B[31:0]` (R86). -/
def Word.b (w : Word) : Addr := w.extractLsb' 0 32

/-- Field `DEVADDR[6:0]` (R87). -/
def Word.devaddr (w : Word) : BitVec 7 := w.extractLsb' 0 7

/-! ## The opcode map -/

/-- One row of R90: a word is the instruction iff `(w and mask) = match`; `build` takes the fields from the word and
the payload. -/
structure Row where
  mtch : Word
  mask : Word
  build : Word → List Byte → Instr

/-- The word is this row's instruction (R90). -/
def Row.matches (r : Row) (w : Word) : Bool := (w &&& r.mask) == r.mtch

/-- Format C, endpoint operations. -/
def rowsEndpoint : List Row :=
  [ ⟨0x0100000000000000, 0xFF07FFE0FFFFFFFF,
      fun w _ => .epInit (Word.ep w) (Word.dir w) (w.extractLsb' 32 2) (w.extractLsb' 34 2) (w.getLsbD 36)⟩,
    ⟨0x0200000000000000, 0xFF07FFFFFFFFFFFF, fun w _ => .epCancel (Word.ep w) (Word.dir w)⟩,
    ⟨0x0300000000000000, 0xFF03000000000000,
      fun w _ => .epArm (Word.ep w) (Word.dir w) (Word.bank w) (Word.a w) (Word.b w)⟩,
    ⟨0x0400000000000000, 0xFF03FFFEFFFFFFFF,
      fun w _ => .epIsdone (Word.ep w) (Word.dir w) (Word.bank w) (w.getLsbD 32)⟩,
    ⟨0x0500000000000000, 0xFF07FFFFFFFFFFFF, fun w _ => .epClrdone (Word.ep w) (Word.dir w)⟩,
    ⟨0x0600000000000000, 0xFF07FFFFFFFFFFFF, fun w _ => .epIsready (Word.ep w) (Word.dir w)⟩,
    ⟨0x0700000000000000, 0xFF07FFFFFFFFFFFF, fun w _ => .epIsempty (Word.ep w) (Word.dir w)⟩ ] ++
  [ ⟨0x0800000000000000, 0xFF07FFFFFFFFFFFF, fun w _ => .epNextbank (Word.ep w) (Word.dir w)⟩,
    ⟨0x0900000000000000, 0xFF07FFFFFFFFFFFF, fun w _ => .epStall (Word.ep w) (Word.dir w)⟩,
    ⟨0x0A00000000000000, 0xFF07FF00FFFFFFFF, fun w _ => .epRdstatus (Word.ep w) (Word.dir w) (Word.aByte w)⟩,
    ⟨0x0B00000000000000, 0xFF07FF00FFFFFFFF, fun w _ => .epTac (Word.ep w) (Word.dir w) (Word.aByte w)⟩,
    ⟨0x0C00000000000000, 0xFF07FF00FFFFFFFF, fun w _ => .epTas (Word.ep w) (Word.dir w) (Word.aByte w)⟩,
    ⟨0x0D00000000000000, 0xFF03FFFFFFFFFFFF, fun w _ => .epRdcnt (Word.ep w) (Word.dir w) (Word.bank w)⟩,
    ⟨0x0E00000000000000, 0xFF07FFFFFFFFFFFF, fun w _ => .epRdctrl (Word.ep w) (Word.dir w)⟩ ]

/-- Format C, global commands. -/
def rowsGlobal : List Row :=
  [ ⟨0x1000000000000000, 0xFFFFFFF0FFFFFFFF, fun w _ => .gRd (w.extractLsb' 32 4)⟩,
    ⟨0x1100000000000000, 0xFFFFFF00FFFFFFFF, fun w _ => .ifaClr (Word.aByte w)⟩,
    ⟨0x1200000000000000, 0xFFFFFF00FFFFFFFF, fun w _ => .ifbClr (Word.aByte w)⟩,
    ⟨0x1300000000000000, 0xFFFFFF80FFFFFFFF, fun w _ => .setAddr (w.extractLsb' 32 7)⟩,
    ⟨0x1400000000000000, 0xFFFFFFFFFFFFFFFF, fun _ _ => .attach⟩,
    ⟨0x1500000000000000, 0xFFFFFFFFFFFFFFFF, fun _ _ => .detach⟩,
    ⟨0x1600000000000000, 0xFFFFFFFCFFFFFFFF, fun w _ => .intEnable (w.getLsbD 32) (w.getLsbD 33)⟩,
    ⟨0x1700000000000000, 0xFFFFFFFFFFFFFFFF, fun _ _ => .usbReinit⟩ ]

/-- Format C, the engine's terminal commands, the bridge and the harness commands. -/
def rowsEngine : List Row :=
  [ ⟨0x2000000000000000, 0xFFFF0000FFFFFFFF, fun w _ => .ctlIn (Word.a w)⟩,
    ⟨0x2100000000000000, 0xFFFFFFFFFFFFFFFF, fun _ _ => .ctlOut⟩,
    ⟨0x2200000000000000, 0xFFFFFFFFFFFFFFFF, fun _ _ => .ctlAck⟩,
    ⟨0x2300000000000000, 0xFFFFFFFFFFFFFFFF, fun _ _ => .ctlStall⟩,
    ⟨0x2400000000000000, 0xFFFF000000000000, fun w _ => .bridgeCopy (Word.a w) (Word.b w)⟩,
    ⟨0x2500000000000000, 0xFFFF000000000000, fun w _ => .bufCopy (Word.a w) (Word.b w)⟩,
    ⟨0x3000000000000000, 0xFFFFFF0000000000, fun w _ => .ramWr (Word.aByte w) (Word.b w)⟩,
    ⟨0x3100000000000000, 0xFFFFFFFF00000000, fun w _ => .ramRd (Word.b w)⟩,
    ⟨0x3200000000000000, 0xFFFFFF00FFFFFFFF, fun w _ => .nvmcmdWr (Word.aByte w)⟩ ]

/-- Format E, bus events. -/
def rowsBus : List Row :=
  [ ⟨0x8000000000000000, 0xFF0F0000FFFFFF80, fun w p => .busSetup (Word.ep w) (Word.devaddr w) p⟩,
    ⟨0x8100000000000000, 0xFF0F0000FFFFFF80, fun w p => .busOut (Word.ep w) (Word.devaddr w) p⟩,
    ⟨0x8200000000000000, 0xFF0EFFFFFFFFFF80, fun w _ => .busIn (Word.ep w) (w.getLsbD 48) (Word.devaddr w)⟩,
    ⟨0x8300000000000000, 0xFFFFFFFFFFFFFFFF, fun _ _ => .busSof⟩,
    ⟨0x8400000000000000, 0xFFFFFFFFFFFFFFFF, fun _ _ => .busReset⟩,
    ⟨0x8500000000000000, 0xFFFFFFFFFFFFFFFF, fun _ _ => .busSuspend⟩,
    ⟨0x8600000000000000, 0xFFFFFFFFFFFFFFFF, fun _ _ => .busResume⟩,
    ⟨0x8700000000000000, 0xFFFFFFFFFFFFFFFF, fun _ _ => .busCrcerr⟩ ]

/-- Format S, service and engine events. -/
def rowsService : List Row :=
  [ ⟨0xC000000000000000, 0xFFFFFFFFFFFFFFFF, fun _ _ => .svcBusevent⟩,
    ⟨0xC100000000000000, 0xFFFFFFFFFFFFFFFF, fun _ _ => .svcTrncompl⟩,
    ⟨0xC200000000000000, 0xFFFFFFFFFFFFFFFF, fun _ _ => .evNewrequest⟩,
    ⟨0xC300000000000000, 0xFFFFFFFFFFFFFFFF, fun _ _ => .evCtloutDone⟩,
    ⟨0xC400000000000000, 0xFFFFFFFFFFFFFFFE, fun w _ => .evCtlinDone (w.getLsbD 0)⟩ ]

/-- The complete opcode map of R90, 44 rows. -/
def rows : List Row := rowsEndpoint ++ rowsGlobal ++ rowsEngine ++ rowsBus ++ rowsService

/-! ## The decoder -/

/-- The row a word belongs to, if any (R90, R92). -/
def rowOf (w : Word) : Option Row := rows.find? (·.matches w)

/-- How many payload bytes follow the word: `LEN` after `BUS_SETUP` and `BUS_OUT`, none after any other (R87, R95). -/
def payloadLen (w : Word) : Nat :=
  if w.extractLsb' 56 8 = 0x80#8 ∨ w.extractLsb' 56 8 = 0x81#8 then (Word.a w).toNat else 0

/-- `OPC[7]` = 1: formats E and S; 0: format C and the reserved space `01` (R85). -/
def Word.isEventFormat (w : Word) : Bool := w.getLsbD 63

/-- What the decoder finds at the head of a stream of bytes. -/
inductive Decoded where
  /-- A legal word with its payload, and the bytes after it. -/
  | ok (i : Instr) (rest : List Byte)
  /-- An undecodable word of format C or of the reserved space `01` (R92). -/
  | illegalCommand
  /-- An undecodable word of format E or S, which a decoder refuses (R97). -/
  | illegalEvent
  /-- The stream ends before the word and its payload do. -/
  | incomplete
  deriving DecidableEq, Repr

/-- Decodes what follows a whole 64-bit word. -/
def decodeAfter (w : Word) (rest : List Byte) : Decoded :=
  match rowOf w with
  | none => if Word.isEventFormat w then .illegalEvent else .illegalCommand
  | some r =>
    if rest.length < payloadLen w then .incomplete
    else .ok (r.build w (rest.take (payloadLen w))) (rest.drop (payloadLen w))

/-- The decoder: total on any bytes. -/
def decode : List Byte → Decoded
  | b7 :: b6 :: b5 :: b4 :: b3 :: b2 :: b1 :: b0 :: rest =>
    decodeAfter (b7 ++ b6 ++ b5 ++ b4 ++ b3 ++ b2 ++ b1 ++ b0 : BitVec 64) rest
  | _ => .incomplete

/-! ## The encoder -/

/-- Format C (R86): `OPC`, `EP`, `DIR`, `BANK`, reserved 0, `A`, `B`. -/
def formatC (opc : Byte) (ep : BitVec 4) (dir bank : BitVec 1) (a : BitVec 16) (b : Addr) : Word :=
  opc ++ ep ++ dir ++ bank ++ 0#2 ++ a ++ b

/-- Format E (R87): `OPC`, `EP`, reserved 0, `HACK`, `LEN`, reserved 0, `DEVADDR`. -/
def formatE (opc : Byte) (ep : BitVec 4) (hack : BitVec 1) (len : BitVec 16) (devaddr : BitVec 7) : Word :=
  opc ++ ep ++ 0#3 ++ hack ++ len ++ 0#25 ++ devaddr

/-- Format S (R88): `OPC`, reserved 0, `F`. -/
def formatS (opc : Byte) (f : BitVec 1) : Word := opc ++ 0#55 ++ f

/-- A format C word on one direction of an endpoint, with operand `A`. -/
abbrev formatEp (opc : Byte) (ep : BitVec 4) (dir : Dir) (a : BitVec 16) : Word := formatC opc ep dir.bit 0#1 a 0#32

/-- A format C word without a register selection. -/
abbrev formatG (opc : Byte) (a : BitVec 16) (b : Addr) : Word := formatC opc 0#4 0#1 0#1 a b

/-- The command word of an instruction, written from the operand table of R91. -/
def encodeWord : Instr → Word
  | .epInit ep dir type bufsize pingpong =>
    formatEp 0x01 ep dir (0#11 ++ BitVec.ofBool pingpong ++ bufsize ++ type)
  | .epCancel ep dir => formatEp 0x02 ep dir 0
  | .epArm ep dir bank size buf => formatC 0x03 ep dir.bit bank.bit size buf
  | .epIsdone ep dir bank any => formatC 0x04 ep dir.bit bank.bit (0#15 ++ BitVec.ofBool any) 0
  | .epClrdone ep dir => formatEp 0x05 ep dir 0
  | .epIsready ep dir => formatEp 0x06 ep dir 0
  | .epIsempty ep dir => formatEp 0x07 ep dir 0
  | .epNextbank ep dir => formatEp 0x08 ep dir 0
  | .epStall ep dir => formatEp 0x09 ep dir 0
  | .epRdstatus ep dir mask => formatEp 0x0A ep dir (0#8 ++ mask)
  | .epTac ep dir mask => formatEp 0x0B ep dir (0#8 ++ mask)
  | .epTas ep dir mask => formatEp 0x0C ep dir (0#8 ++ mask)
  | .epRdcnt ep dir bank => formatC 0x0D ep dir.bit bank.bit 0 0
  | .epRdctrl ep dir => formatEp 0x0E ep dir 0
  | .gRd reg => formatG 0x10 (0#12 ++ reg) 0
  | .ifaClr mask => formatG 0x11 (0#8 ++ mask) 0
  | .ifbClr mask => formatG 0x12 (0#8 ++ mask) 0
  | .setAddr addr => formatG 0x13 (0#9 ++ addr) 0
  | .attach => formatG 0x14 0 0
  | .detach => formatG 0x15 0 0
  | .intEnable busevie trnie => formatG 0x16 (0#14 ++ BitVec.ofBool trnie ++ BitVec.ofBool busevie) 0
  | .usbReinit => formatG 0x17 0 0
  | .ctlIn size => formatG 0x20 size 0
  | .ctlOut => formatG 0x21 0 0
  | .ctlAck => formatG 0x22 0 0
  | .ctlStall => formatG 0x23 0 0
  | .bridgeCopy len src => formatG 0x24 len src
  | .bufCopy len src => formatG 0x25 len src
  | .ramWr data addr => formatG 0x30 (0#8 ++ data) addr
  | .ramRd addr => formatG 0x31 0 addr
  | .nvmcmdWr value => formatG 0x32 (0#8 ++ value) 0
  | .busSetup ep devaddr payload => formatE 0x80 ep 0 (BitVec.ofNat 16 payload.length) devaddr
  | .busOut ep devaddr payload => formatE 0x81 ep 0 (BitVec.ofNat 16 payload.length) devaddr
  | .busIn ep hack devaddr => formatE 0x82 ep (BitVec.ofBool hack) 0 devaddr
  | .busSof => formatE 0x83 0 0 0 0
  | .busReset => formatE 0x84 0 0 0 0
  | .busSuspend => formatE 0x85 0 0 0 0
  | .busResume => formatE 0x86 0 0 0 0
  | .busCrcerr => formatE 0x87 0 0 0 0
  | .svcBusevent => formatS 0xC0 0
  | .svcTrncompl => formatS 0xC1 0
  | .evNewrequest => formatS 0xC2 0
  | .evCtloutDone => formatS 0xC3 0
  | .evCtlinDone stale => formatS 0xC4 (BitVec.ofBool stale)

/-- The payload that follows the word (R95). -/
def encodePayload : Instr → List Byte
  | .busSetup _ _ payload => payload
  | .busOut _ _ payload => payload
  | .epInit _ _ _ _ _ | .epCancel _ _ | .epArm _ _ _ _ _ | .epIsdone _ _ _ _ | .epClrdone _ _ | .epIsready _ _
  | .epIsempty _ _ | .epNextbank _ _ | .epStall _ _ | .epRdstatus _ _ _ | .epTac _ _ _ | .epTas _ _ _
  | .epRdcnt _ _ _ | .epRdctrl _ _ | .gRd _ | .ifaClr _ | .ifbClr _ | .setAddr _ | .attach | .detach
  | .intEnable _ _ | .usbReinit | .ctlIn _ | .ctlOut | .ctlAck | .ctlStall | .bridgeCopy _ _ | .bufCopy _ _
  | .ramWr _ _ | .ramRd _ | .nvmcmdWr _ | .busIn _ _ _ | .busSof | .busReset | .busSuspend | .busResume
  | .busCrcerr | .svcBusevent | .svcTrncompl | .evNewrequest | .evCtloutDone | .evCtlinDone _ => []

/-- The eight bytes of a word, most significant first, as its 16 hexadecimal digits are written (R85). -/
def wordBytes (w : Word) : List Byte :=
  [w.extractLsb' 56 8, w.extractLsb' 48 8, w.extractLsb' 40 8, w.extractLsb' 32 8,
   w.extractLsb' 24 8, w.extractLsb' 16 8, w.extractLsb' 8 8, w.extractLsb' 0 8]

/-- The bytes of an instruction on a port: its word, then its payload. -/
def encode (i : Instr) : List Byte := wordBytes (encodeWord i) ++ encodePayload i

/-! ## The opcode table's numbering -/

/-- The bytes of the instruction whose bits are `w`, numbered as the opcode table numbers them, every bit from
`nbits` on zero: the 64-bit word, then as many payload bytes as the word asks for, payload byte `k` in bits
`64 + 8k` and up. -/
def layoutTableWord (nbits w : Nat) : List Byte :=
  let v := w % 2 ^ nbits
  let word := BitVec.ofNat 64 v
  wordBytes word ++ (List.range (payloadLen word)).map fun k => BitVec.ofNat 8 (v >>> (64 + 8 * k))

/-- The instruction the decoder reads from that instruction's bytes. -/
def decodeTableWord (nbits w : Nat) : Option Instr :=
  match decode (layoutTableWord nbits w) with
  | .ok i _ => some i
  | .illegalCommand => none
  | .illegalEvent => none
  | .incomplete => none

end Sys2Proof
end

