-- ==== Sys2Proof/Config.lean ====
section
/-! DEFINITION. What is fixed at launch and what the spec leaves free: the parameters of R6, the results a
collaborator can give (R206), the agents a schedule can name (R5, R170), and the free values, which are opaque
constants: nothing can be proved of the value of one. -/
namespace Sys2Proof

/-- The OPEN parameters of R6, launch arguments of the machine. State holds one, so that a claim about every
state is about every choice of them; no step changes them. -/
structure Params where
  /-- `N_EP`, the number of logical endpoints, 1 to 16. -/
  nEp : Nat
  /-- `ADDR_W`, the width of a RAM address in bits, 1 to 32. -/
  addrW : Nat
  /-- `PADDR_W`, the width of a PMEM address in bits, 1 to 32. -/
  paddrW : Nat
  /-- `EP0_SIZE`, the `BUFSIZE` class of endpoint 0. -/
  ep0Size : BitVec 2
  /-- `EP0_OUT_BUF`, the RAM address of the EP0 OUT buffer. -/
  ep0OutBuf : Addr
  /-- `EP0_IN_BUF`, the RAM address of the EP0 IN buffer. -/
  ep0InBuf : Addr
  /-- `VENDOR_CODE`, the request code of the vendor-extension hook. -/
  vendorCode : Byte
  /-- `NVM_NOOP`, the neutral value of `NVMCMD`. -/
  nvmNoop : Byte
  /-- `SETUP_SETS_DONE0`: an accepted SETUP also sets `DONE0` of the OUT direction. -/
  setupSetsDone0 : Bool
  deriving DecidableEq, Repr

/-- The defaults of R6, which the spec's test vectors use. -/
def Params.default : Params where
  nEp := 16
  addrW := 16
  paddrW := 24
  ep0Size := 3
  ep0OutBuf := 0x0000
  ep0InBuf := 0x0040
  vendorCode := 0x20
  nvmNoop := 0x00
  setupSetsDone0 := false

/-- The space a resolver's result lies in (R206). -/
inductive Space where
  | PMEM
  | RAM
  deriving DecidableEq, Repr, Inhabited

/-- The result of `resolveDescriptor` and `resolveOsDescriptor` (R206, D39). -/
inductive Resolved where
  | notFound
  | found (space : Space) (addr : Addr) (length : BitVec 16)
  deriving DecidableEq, Repr, Inhabited

/-- The outcome of the external dispatcher `onSetupRequest` (R199, D41). -/
inductive SetupOutcome where
  | dataIn (bytes : List Byte)
  | dataOut
  | ack
  | ackDetach
  | stall
  | none
  deriving DecidableEq, Repr, Inhabited

/-- The agents that can move by themselves (R5, R170): the host through the SIE port, the foreground through the
command port, the running handler (or the dispatch in progress), and the two handlers' starts. -/
inductive Agent where
  | host
  | fg
  | handler
  | startBus
  | startTrn
  deriving DecidableEq, Repr, Inhabited

namespace Config

/-- FREE: which agent moves next where the schedule does not say (R170, R258: no priority, any order). -/
opaque freeAgent : Nat → Agent

/-- FREE: a byte of PMEM that the launch content does not list (R62: a launch parameter). -/
opaque freePmem : Nat → Byte

/-- FREE: `resolveDescriptor(type, index)` where the launch table does not list the pair; a function of the pair
alone, since the resolver is deterministic (R206). -/
opaque freeDescriptor : Byte → Byte → Resolved

/-- FREE: `resolveOsDescriptor(index)` where the launch table does not list the index (R206). -/
opaque freeOsDescriptor : BitVec 16 → Resolved

/-- FREE: `onSetConfiguration(value)`, the answer of one call (R206); the number tells the calls apart. -/
opaque freeSetConfiguration : Nat → Byte → Bool

/-- FREE: `onSetInterface(interface, altSetting)`, the answer of one call (R206). -/
opaque freeSetInterface : Nat → BitVec 16 → BitVec 16 → Bool

/-- FREE: `onSetupRequest()`, the answer of one call, which reads the setup record (R199, R206). -/
opaque freeSetupRequest : Nat → Word → SetupOutcome

end Config
end Sys2Proof
end

