-- ==== Sys2Proof/Machine/State.lean ====
section
/-! DEFINITION. Everything the spec gives the machine (10_state, 20_memory), as plain data, its state after power-on
(R281), and the two ways a step can stop. -/
namespace Sys2Proof.Machine

/-- One register group `EP[e][d]` (R20): configuration, flags, and for each bank a byte count and a buffer
reference. `none` is the spec's "no value" (R47). -/
structure EpRegs where
  ctrl : Byte
  status : Byte
  cnt0 : Option (BitVec 7)
  cnt1 : Option (BitVec 7)
  ptr0 : Option Addr
  ptr1 : Option Addr
  deriving DecidableEq, Repr

/-- A group after power-on, and after the first part of `USB_REINIT` (R281, R132): `DISABLED`, both banks idle. -/
def EpRegs.off : EpRegs := ⟨0x00, 0x03, none, none, none, none⟩

/-- `H.RUN` (R43). -/
inductive HRun where
  | none
  | hbus
  | htrn
  deriving DecidableEq, Repr

/-- `H.OUTK` (R40): 0 none, 1 new request, 2 control-out complete. -/
inductive OutKind where
  | none
  | newRequest
  | ctlOut
  deriving DecidableEq, Repr

/-- A collaborator call with its arguments and its result, as `NOTE_CALL` records it (R45, R206). -/
inductive OracleCall where
  | resolveDescriptor (type index : Byte) (result : Resolved)
  | resolveOsDescriptor (index : BitVec 16) (result : Resolved)
  | onSetConfiguration (value : Byte) (accept : Bool)
  | onSetInterface (interface altSetting : BitVec 16) (accept : Bool)
  | onSetupRequest (result : SetupOutcome)
  deriving DecidableEq, Repr

/-- A record of `TRACE` (R45). -/
inductive Note where
  | newReq (setup : Word)
  | ctlOut (count : BitVec 7)
  | ctlIn (stale : Bool)
  | sof
  | busErr (flags : Byte)
  | stallSent
  | pwr (flags : Byte)
  | reinit
  | call (c : OracleCall)
  deriving DecidableEq, Repr

/-- The response of a bus event (R89). -/
inductive Response where
  | none
  | ack
  | nak
  | stall
  | data (bytes : List Byte)
  deriving DecidableEq, Repr

/-- What the last word executed gave back (R89): nothing, the result of a command, or the response to a bus event.
The model's own latch (log entry 14). -/
inductive Output where
  | none
  | value (v : Word)
  | response (r : Response)
  deriving DecidableEq, Repr

/-- A step of a dispatch still to be taken (N2 and N3 of R191; log entry 9). -/
inductive DispStep where
  /-- Decide who serves the record and call the collaborator (R192 to R195, R198, R199). -/
  | call
  /-- The collaborator's reply is too long: `CV_OVERRUN` (R193, R199). -/
  | overrun
  | bridgeCopy (len : BitVec 16) (src : Addr)
  | bufCopy (len : BitVec 16) (src : Addr)
  | ctlIn (size : BitVec 16)
  | ctlOut
  | ctlAck
  | ctlStall
  /-- One turn of the loop of `WAIT_STATUS_DETACH` (R103). -/
  | poll
  | detach
  /-- The check that the dispatcher ended a branch (N3 of R191). -/
  | n3
  deriving DecidableEq, Repr

/-- Whose turn it is (log entry 2): a trace injects the next word of the command port whoever runs, or an agent
moves as the rules allow it to. -/
inductive Turn where
  | inject
  | agent (a : Agent)
  deriving DecidableEq, Repr

/-- The collaborators' answers, a launch parameter (R206; log entry 4): tables for the two resolvers, which are
deterministic, and queues for the three hooks. -/
structure Env where
  descriptors : List ((Byte × Byte) × Resolved)
  osDescriptors : List (BitVec 16 × Resolved)
  cfgAnswers : List Bool
  ifAnswers : List Bool
  reqAnswers : List SetupOutcome
  deriving DecidableEq, Repr

/-- The state of the machine. -/
structure State where
  /-- The launch parameters (R6). -/
  par : Params
  /-- `EP[e][OUT]` (R20). -/
  outs : Vector EpRegs 16
  /-- `EP[e][IN]` (R20). -/
  ins : Vector EpRegs 16
  /-- `G.GCTRL`, G0 (R30). -/
  gctrl : Byte
  /-- `G.ADDR`, G1 (R31). -/
  addr : BitVec 7
  /-- `G.INTFLAGSA`, G2 (R32). -/
  intflagsa : Byte
  /-- `G.INTFLAGSB`, G3 (R33). -/
  intflagsb : Byte
  /-- `G.CTLSTATE`, G4 (R34). -/
  ctlstate : Byte
  /-- `G.SETUPREC`, G5, byte 0 least significant (R35). -/
  setuprec : Option Word
  /-- `G.NVMCMD`, G6 (R36). -/
  nvmcmd : Byte
  /-- `RAM` (R61): an address not listed has no value. -/
  ram : List Host.Cell
  /-- `PMEM` (R62): an address not listed holds a free byte. -/
  pmem : List Host.Cell
  /-- `H.RUN` (R43). -/
  hRun : HRun
  /-- `H.STEP` (R43). -/
  hStep : Option Nat
  /-- `H.SO` (R40). -/
  hSo : Option Byte
  /-- `H.SI` (R40). -/
  hSi : Option Byte
  /-- `H.OUTK` (R40). -/
  hOutk : Option OutKind
  /-- `H.INK` (R40). -/
  hInk : Option Bool
  /-- `H.FA` (R41). -/
  hFa : Option Byte
  /-- `H.SAVEDMODE` (R42). -/
  hSavedMode : Option Byte
  /-- `TRACE`, oldest record first (R45). -/
  trace : List Note
  /-- The model's own: the dispatch in progress (log entry 9). -/
  disp : List DispStep
  /-- The model's own: the last result or response (log entry 14). -/
  out : Output
  /-- The model's own: bytes waiting on the command port (log entry 1). -/
  cmd : List Byte
  /-- The model's own: bytes waiting on the SIE port (log entry 1). -/
  bus : List Byte
  /-- The model's own: the schedule (log entry 2). -/
  turns : List Turn
  /-- The model's own: the counter the free values are drawn with (log entry 2). -/
  tick : Nat
  /-- The model's own: the collaborators' answers (log entry 4). -/
  env : Env
  deriving DecidableEq, Repr

/-- Collaborators of which nothing is fixed: every answer is a free value (log entry 4). -/
def Env.empty : Env := ⟨[], [], [], [], []⟩

/-- The machine right after power-on reset (R281), with the default parameters (log entry 3), nothing on a port and
nothing scheduled (log entries 1 and 2). -/
def State.reset : State where
  par := Params.default
  outs := Vector.replicate 16 EpRegs.off
  ins := Vector.replicate 16 EpRegs.off
  gctrl := 0x00
  addr := 0
  intflagsa := 0x00
  intflagsb := 0x00
  ctlstate := 0x00
  setuprec := none
  nvmcmd := Params.default.nvmNoop
  ram := []
  pmem := []
  hRun := .none
  hStep := none
  hSo := none
  hSi := none
  hOutk := none
  hInk := none
  hFa := none
  hSavedMode := none
  trace := []
  disp := []
  out := .none
  cmd := []
  bus := []
  turns := []
  tick := 0
  env := Env.empty

/-- The contract violations of R252, in the order of their code numbers. Each marks a step whose effect the spec
declines to define, so that stopping is safe (R250); none changes the state. -/
inductive Fault where
  /-- Code 1. Any undecodable word (R92, D55, U19); `EP_INIT`, `EP_ISDONE`, `G_RD` with a reserved value. Safe. -/
  | cvReserved
  /-- Code 2. Every command with an `EP` field at or above `N_EP`. Safe. -/
  | cvBadep
  /-- Code 3. `EP_ARM`, `EP_ISDONE`, `EP_RDCNT` naming bank 1 of a single-bank direction. Safe. -/
  | cvBadbank
  /-- Code 4. The commands of the endpoint model on a `DISABLED` direction. Safe. -/
  | cvUninit
  /-- Code 5. `EP_ARM` of an armed bank, also from inside the engine. Safe. -/
  | cvDoublearm
  /-- Code 6. `EP_ARM`, `CTL_IN` with more than a packet. Safe. -/
  | cvSize
  /-- Code 7. An address range that leaves its memory. Safe. -/
  | cvRange
  /-- Code 8. Firmware access to a range hardware owns, or a second buffer over it. Safe. -/
  | cvOwnership
  /-- Code 9. A reply longer than EP0's packet, or than the host asked of `onSetupRequest`. Safe. -/
  | cvOverrun
  /-- Code 10. A dispatch that ended no branch, or a terminal command outside a dispatch. Safe. -/
  | cvDispatch
  /-- Code 11. The `PMEM` read primitive outside the neutral mode; the bridge never meets it. Safe. -/
  | cvNvmmode
  /-- Code 12. A step that uses state holding no value (R47, U20: `CV_NOVALUE`, never zero). Safe. -/
  | cvNovalue
  /-- Code 13. A word injected while a handler runs. Safe. -/
  | cvContext
  deriving DecidableEq, Repr

/-- The code number of a fault, for traces only (R252). -/
def Fault.code : Fault → Nat
  | .cvReserved => 1
  | .cvBadep => 2
  | .cvBadbank => 3
  | .cvUninit => 4
  | .cvDoublearm => 5
  | .cvSize => 6
  | .cvRange => 7
  | .cvOwnership => 8
  | .cvOverrun => 9
  | .cvDispatch => 10
  | .cvNvmmode => 11
  | .cvNovalue => 12
  | .cvContext => 13

/-- Why a step has no meaning. Every step of this model ends in a next state or a fault (R10, R250). -/
inductive Refusal where
  /-- An arm of `exec` whose meaning is not written. No arm of this model raises it. Safe. -/
  | notModelled (mnemonic : String)
  deriving DecidableEq, Repr

end Sys2Proof.Machine
end

