-- ==== Sys2Proof/Machine/Flags.lean ====
section
/-! DEFINITION. The flags: the fields of `CTRL` and `STATUS` (R22, R23), every way a command or the hardware changes
them, and the flags of the global registers (R30, R32, R33, R44). -/
namespace Sys2Proof.Machine

/-! ## Fields of `CTRL` (R22) -/

/-- `TYPE` 0: the direction is not initialised (R22). -/
def typeDisabled : BitVec 2 := 0
/-- `TYPE` 1 (R22). -/
def typeControl : BitVec 2 := 1
/-- `TYPE` 2: bulk and interrupt (R22). -/
def typeBulk : BitVec 2 := 2
/-- `TYPE` 3: reserved, never stored (R22). -/
def typeReserved : BitVec 2 := 3

/-- `CTRL.TYPE`, bits 1:0. -/
def EpRegs.type (x : EpRegs) : BitVec 2 := x.ctrl.extractLsb' 0 2
/-- `CTRL.BUFSIZE`, bits 3:2. -/
def EpRegs.bufsize (x : EpRegs) : BitVec 2 := x.ctrl.extractLsb' 2 2
/-- `CTRL.PINGPONG`, bit 4. -/
def EpRegs.pingpong (x : EpRegs) : Bool := x.ctrl.getLsbD 4
/-- `CTRL.STALL`, bit 5, the halt condition. -/
def EpRegs.stall (x : EpRegs) : Bool := x.ctrl.getLsbD 5

/-- The image of `CTRL` that `EP_INIT` stores: `STALL` and the reserved bits 0 (R111). -/
def ctrlImage (pingpong : Bool) (bufsize type : BitVec 2) : Byte :=
  0b000#3 ++ BitVec.ofBool pingpong ++ bufsize ++ type

/-- `CTRL.STALL <- 1` (R119). -/
def EpRegs.setStall (x : EpRegs) : EpRegs := { x with ctrl := x.ctrl ||| 0x20 }
/-- `CTRL.STALL <- 0` (R143). -/
def EpRegs.clrStall (x : EpRegs) : EpRegs := { x with ctrl := x.ctrl &&& 0xDF }

/-! ## Fields of `STATUS` (R23) -/

/-- The mask of `NACKb`, bit `b` (R23). -/
def nackMask : Bank → Byte
  | .b0 => 0x01
  | .b1 => 0x02

/-- The mask of `DONEb`, bit `2+b` (R23). -/
def doneMask : Bank → Byte
  | .b0 => 0x04
  | .b1 => 0x08

/-- `NACKb`: the bank is idle (R23). -/
def EpRegs.nack (x : EpRegs) : Bank → Bool
  | .b0 => x.status.getLsbD 0
  | .b1 => x.status.getLsbD 1
/-- `DONEb`, the completion flag (R23). -/
def EpRegs.done (x : EpRegs) : Bank → Bool
  | .b0 => x.status.getLsbD 2
  | .b1 => x.status.getLsbD 3
/-- `SETUP`, bit 4 (R23). -/
def EpRegs.setup (x : EpRegs) : Bool := x.status.getLsbD 4
/-- `BANK`, bit 5 (R23), as it is stored. -/
def EpRegs.bank (x : EpRegs) : Bool := x.status.getLsbD 5

/-- `sel(X)`, the bank the arbiter serves next (R141): the one `BANK` names where `PINGPONG` = 1, and bank 0 where it
is 0. DEDUCED (log entry 26): R141 writes `sel(X) = X.STATUS.BANK` and also `sel(X)` = 0 where `PINGPONG` = 0, which
differ after `EP_TAS` has set `BANK` on a single-bank direction (D52); R21 decides, bank 1 is then never used. -/
def EpRegs.sel (x : EpRegs) : Bank := if x.pingpong && x.bank then .b1 else .b0

/-- `CNT[b]` (R24). -/
def EpRegs.cnt (x : EpRegs) : Bank → Option (BitVec 7)
  | .b0 => x.cnt0
  | .b1 => x.cnt1
/-- `BUFPTR[b]` (R25). -/
def EpRegs.ptr (x : EpRegs) : Bank → Option Addr
  | .b0 => x.ptr0
  | .b1 => x.ptr1

/-- `CNT[b] <- n`. -/
def EpRegs.setCnt (x : EpRegs) (b : Bank) (n : BitVec 7) : EpRegs :=
  match b with
  | .b0 => { x with cnt0 := some n }
  | .b1 => { x with cnt1 := some n }
/-- `BUFPTR[b] <- a`. -/
def EpRegs.setPtr (x : EpRegs) (b : Bank) (a : Addr) : EpRegs :=
  match b with
  | .b0 => { x with ptr0 := some a }
  | .b1 => { x with ptr1 := some a }

/-- `STATUS <- STATUS or m`. -/
def EpRegs.orStatus (x : EpRegs) (m : Byte) : EpRegs := { x with status := x.status ||| m }
/-- `STATUS <- STATUS and not m`. -/
def EpRegs.clearStatus (x : EpRegs) (m : Byte) : EpRegs := { x with status := x.status &&& ~~~m }

/-- The banks in use, `banks(e,d)` (R21). -/
def EpRegs.banks (x : EpRegs) : List Bank := if x.pingpong then [.b0, .b1] else [.b0]

/-! ## The groups of writes the rules name -/

/-- The effect of `EP_INIT` (R111). -/
def EpRegs.initialised (type bufsize : BitVec 2) (pingpong : Bool) : EpRegs :=
  ⟨ctrlImage pingpong bufsize type, 0x03, none, none, none, none⟩

/-- The effect of `EP_ARM` on the bank (R113). -/
def EpRegs.arm (x : EpRegs) (b : Bank) (size : BitVec 7) (buf : Addr) : EpRegs :=
  (((x.setPtr b buf).setCnt b size).clearStatus (doneMask b)).clearStatus (nackMask b)

/-- The writes of `complete(X, b)` to the direction (R142): idle again, done, and with ping-pong the other bank is
next. -/
def EpRegs.completed (x : EpRegs) (b : Bank) : EpRegs :=
  let y := (x.orStatus (nackMask b)).orStatus (doneMask b)
  if x.pingpong then { y with status := y.status ^^^ 0x20 } else y

/-- The writes of an accepted SETUP to the OUT direction (R143). -/
def EpRegs.setupAccepted (x : EpRegs) (setsDone0 : Bool) : EpRegs :=
  let y := (((x.setCnt .b0 8).orStatus 0x01).orStatus 0x10).clrStall
  if setsDone0 then y.orStatus 0x04 else y

/-- The writes of an accepted SETUP to the IN direction (R143). -/
def EpRegs.setupWithdrawn (x : EpRegs) : EpRegs := (x.orStatus 0x01).clrStall

/-! ## Global flags -/

/-- `GCTRL.ATTACH` (R30). -/
def State.attached (s : State) : Bool := s.gctrl.getLsbD 0

/-- `SOFIF` (R32). -/
def sofif : Byte := 0x01
/-- `CRCIF` (R32). -/
def crcif : Byte := 0x02
/-- `UNFIF` (R32). -/
def unfif : Byte := 0x04
/-- `OVFIF` (R32). -/
def ovfif : Byte := 0x08
/-- `STALLIF` (R32). -/
def stallif : Byte := 0x10
/-- `SUSPENDIF` (R32). -/
def suspendif : Byte := 0x20
/-- `RESUMEIF` (R32). -/
def resumeif : Byte := 0x40
/-- `RSTIF` (R32). -/
def rstif : Byte := 0x80
/-- `TRNIF` (R33). -/
def trnif : Byte := 0x01
/-- `SETUPIF` (R33). -/
def setupif : Byte := 0x02

/-- Hardware sets a flag of `INTFLAGSA`. -/
def State.raiseA (s : State) (m : Byte) : State := { s with intflagsa := s.intflagsa ||| m }
/-- Hardware sets a flag of `INTFLAGSB`. -/
def State.raiseB (s : State) (m : Byte) : State := { s with intflagsb := s.intflagsb ||| m }

/-- `IRQ_BUSEV = GCTRL.BUSEVIE and (INTFLAGSA ≠ 0)` (R44). -/
def State.irqBusev (s : State) : Bool := s.gctrl.getLsbD 1 && s.intflagsa != 0
/-- `IRQ_TRN = GCTRL.TRNIE and (INTFLAGSB ≠ 0)` (R44). -/
def State.irqTrn (s : State) : Bool := s.gctrl.getLsbD 2 && s.intflagsb != 0

end Sys2Proof.Machine
end

