-- ==== Sys2Proof/Machine/Operands.lean ====
section
/-! DEFINITION. The forms operands and values take: packet sizes (R7), the conditions on the parameters (R6), the
bytes and fields of the setup record (R93, R94), and the byte order of a list of bytes. -/
namespace Sys2Proof.Machine

/-- `MAXPKT(c) = 8 << c` (R7). -/
def maxPkt (c : BitVec 2) : Nat := 8 <<< c.toNat

/-- `MAXPKT0 = MAXPKT(EP0_SIZE)` (R7). -/
def maxPkt0 (p : Params) : Nat := maxPkt p.ep0Size

/-- The size of `RAM` in bytes, `2^ADDR_W` (R61). -/
def ramSize (p : Params) : Nat := 2 ^ p.addrW

/-- The size of `PMEM` in bytes, `2^PADDR_W` (R62). -/
def pmemSize (p : Params) : Nat := 2 ^ p.paddrW

/-- The ranges R6 gives the parameters. The 8-bit, 2-bit and Boolean ones are in range by their types. -/
abbrev paramsLegal (p : Params) : Prop :=
  1 ≤ p.nEp ∧ p.nEp ≤ 16 ∧ 1 ≤ p.addrW ∧ p.addrW ≤ 32 ∧ 1 ≤ p.paddrW ∧ p.paddrW ≤ 32 ∧
  p.ep0OutBuf.toNat + maxPkt0 p ≤ ramSize p ∧ p.ep0InBuf.toNat + maxPkt0 p ≤ ramSize p ∧
  (p.ep0OutBuf.toNat + maxPkt0 p ≤ p.ep0InBuf.toNat ∨ p.ep0InBuf.toNat + maxPkt0 p ≤ p.ep0OutBuf.toNat)

/-- `MAXPKT0` as the 16-bit operand of an `EP_ARM` (R132, R205). -/
def maxPkt0Operand (p : Params) : BitVec 16 := BitVec.ofNat 16 (maxPkt0 p)

/-- A Boolean result is the number 1 or 0 (R8). -/
def boolWord (b : Bool) : Word := if b then 1 else 0

/-- The setup record of eight bytes, byte 0 least significant (R35): `b7 :: ... :: b0`. -/
def setupWord : List Byte → Word
  | [b0, b1, b2, b3, b4, b5, b6, b7] => b7 ++ b6 ++ b5 ++ b4 ++ b3 ++ b2 ++ b1 ++ b0
  | _ => 0

/-- `bmRequestType`, byte 0 (R93). -/
def bmRequestType (r : Word) : Byte := r.extractLsb' 0 8
/-- `bmRequestType[6:5]` (R94). -/
def requestKind (r : Word) : BitVec 2 := r.extractLsb' 5 2
/-- `bRequest`, byte 1 (R93). -/
def bRequest (r : Word) : Byte := r.extractLsb' 8 8
/-- `wValue`, bytes 3 and 2 (R93). -/
def wValue (r : Word) : BitVec 16 := r.extractLsb' 16 16
/-- `wIndex`, bytes 5 and 4 (R93). -/
def wIndex (r : Word) : BitVec 16 := r.extractLsb' 32 16
/-- `wLength`, bytes 7 and 6 (R93). -/
def wLength (r : Word) : BitVec 16 := r.extractLsb' 48 16

/-- The request type `STANDARD` (R94; USB 2.0's number, log entry 23). -/
def kindStandard : BitVec 2 := 0
/-- The request type `VENDOR` (R94, log entry 23). -/
def kindVendor : BitVec 2 := 2
/-- `REQ_GET_DESCRIPTOR` (R94, log entry 23). -/
def reqGetDescriptor : Byte := 6
/-- `REQ_SET_CONFIGURATION` (R94, log entry 23). -/
def reqSetConfiguration : Byte := 9
/-- `REQ_SET_INTERFACE` (R94, log entry 23). -/
def reqSetInterface : Byte := 11

/-- Which logic serves a request (R192). -/
inductive Request where
  | getDescriptor
  | setConfiguration
  | setInterface
  | vendor
  | external
  deriving DecidableEq, Repr

/-- The table of R192, tested in its order. -/
def classify (p : Params) (r : Word) : Request :=
  if requestKind r = kindStandard ∧ bRequest r = reqGetDescriptor then .getDescriptor
  else if requestKind r = kindStandard ∧ bRequest r = reqSetConfiguration then .setConfiguration
  else if requestKind r = kindStandard ∧ bRequest r = reqSetInterface then .setInterface
  else if requestKind r = kindVendor ∧ bRequest r = p.vendorCode then .vendor
  else .external

/-! ## `G.CTLSTATE` (R34), as the byte that 43 writes -/

/-- `Idle`. -/
def csIdle : Byte := 0x00
/-- `SetupReceived`. -/
def csSetup : Byte := 0x01
/-- `DataInStage`. -/
def csDataIn : Byte := 0x02
/-- `DataOutStage`. -/
def csDataOut : Byte := 0x03
/-- `NoDataStatus`. -/
def csNoData : Byte := 0x04
/-- `StatusStage` with `SDIR` 0: the host's OUT is awaited. -/
def csStatusOut : Byte := 0x05
/-- `StatusStage` with `SDIR` 1: the completion of the zero-length IN is awaited. -/
def csStatusIn : Byte := 0x0D

end Sys2Proof.Machine
end

