-- ==== Sys2Proof/Machine/Ops.lean ====
section
/-! DEFINITION. The named operations every rule is written with (R9): register groups, `RAM` and `PMEM`, ownership,
the trace, the start and end of a handler, and the forms a word's outcome takes. An operation that can fault answers
in `Except Fault`. -/
namespace Sys2Proof.Machine

/-! ## The endpoint register file (R20) -/

/-- `EP[e][d]`. -/
def State.ep (s : State) (d : Dir) (e : BitVec 4) : EpRegs :=
  match d with
  | .OUT => s.outs[e.toNat]'(e.isLt)
  | .IN => s.ins[e.toNat]'(e.isLt)

/-- `EP[e][d] <- x`. -/
def State.setEp (s : State) (d : Dir) (e : BitVec 4) (x : EpRegs) : State :=
  match d with
  | .OUT => { s with outs := s.outs.set e.toNat x (e.isLt) }
  | .IN => { s with ins := s.ins.set e.toNat x (e.isLt) }

/-- The sixteen endpoint numbers a field `EP` can hold (R86). -/
def epNumbers : List (BitVec 4) := [0, 1, 2, 3, 4, 5, 6, 7, 8, 9, 10, 11, 12, 13, 14, 15]

/-- A command with an `EP` field: the check `e < N_EP` (R110), then what its rule does with the group. -/
def onEp {α : Type} (s : State) (d : Dir) (e : BitVec 4) (k : EpRegs → Except Fault α) : Except Fault α :=
  if e.toNat < s.par.nEp then k (s.ep d e) else .error .cvBadep

/-- The same for a command that needs the direction initialised (R110, `CV_UNINIT` of R252). -/
def onInit {α : Type} (s : State) (d : Dir) (e : BitVec 4) (k : EpRegs → Except Fault α) : Except Fault α :=
  onEp s d e fun x => if x.type = typeDisabled then .error .cvUninit else k x

/-! ## Memory: a list of cells, addresses strictly rising -/

/-- The byte at an address, if one is listed. -/
def readCell : List Host.Cell → Nat → Option Byte
  | [], _ => none
  | (a', v) :: m, a => if a' = a then some v else readCell m a

/-- Stores a byte, keeping the addresses rising. -/
def writeCell : List Host.Cell → Nat → Byte → List Host.Cell
  | [], a, v => [(a, v)]
  | (a', v') :: m, a, v =>
    if a < a' then (a, v) :: (a', v') :: m
    else if a = a' then (a, v) :: m
    else (a', v') :: writeCell m a v

/-- The canonical form of `RAM`: addresses strictly rising; an unlisted byte has no value, so no listed byte equals
it. -/
abbrev memoryWf (m : List Host.Cell) : Prop := m.Pairwise fun x y => x.1 < y.1

/-- The canonical form of `PMEM`: addresses strictly rising, and no listed byte equals the free one. -/
abbrev pmemWf (m : List Host.Cell) : Prop :=
  (m.Pairwise fun x y => x.1 < y.1) ∧ ∀ c ∈ m, c.2 ≠ Config.freePmem c.1

/-- `RAM[a]` (R61): a byte, or no value. -/
def State.ramByte (s : State) (a : Nat) : Option Byte := readCell s.ram a

/-- `RAM[a] <- v`. -/
def State.setRamByte (s : State) (a : Nat) (v : Byte) : State := { s with ram := writeCell s.ram a v }

/-- `n` bytes of `RAM` from `a` up; nothing where one has no value. -/
def State.ramBytes (s : State) (a : Nat) : Nat → Option (List Byte)
  | 0 => some []
  | n + 1 =>
    match s.ramByte a, State.ramBytes s (a + 1) n with
    | some v, some vs => some (v :: vs)
    | _, _ => none

/-- The bytes of a list to `RAM`, from `a` up (R63). -/
def State.setRamBytes (s : State) (a : Nat) : List Byte → State
  | [] => s
  | v :: vs => State.setRamBytes (s.setRamByte a v) (a + 1) vs

/-- `MemRead(RAM, a, n)` (R9): past the top `CV_RANGE` (R61), then `CV_NOVALUE` for a byte with no value (R47). -/
def memRead (s : State) (a n : Nat) : Except Fault (List Byte) :=
  if 0 < n ∧ ramSize s.par < a + n then .error .cvRange
  else match s.ramBytes a n with
    | some vs => .ok vs
    | none => .error .cvNovalue

/-- `MemWrite(RAM, a, n, vs)` (R9), `n` the number of bytes: past the top `CV_RANGE` (R61). -/
def memWrite (s : State) (a : Nat) (vs : List Byte) : Except Fault State :=
  if 0 < vs.length ∧ ramSize s.par < a + vs.length then .error .cvRange else .ok (s.setRamBytes a vs)

/-- The content of `PMEM` (R62): the launch list, and a free byte where it lists nothing (log entry 5). -/
def State.pmemByte (s : State) (a : Nat) : Byte := (readCell s.pmem a).getD (Config.freePmem a)

/-- The dedicated read primitive (R230): a byte of `PMEM`, only while `NVMCMD` = `NVM_NOOP`. -/
def pmemRead (s : State) (a : Nat) : Except Fault Byte :=
  if s.nvmcmd ≠ s.par.nvmNoop then .error .cvNvmmode
  else if pmemSize s.par ≤ a then .error .cvRange
  else .ok (s.pmemByte a)

/-- `n` bytes of `PMEM` from `a` up, a byte at a time (R230). -/
def pmemReadBytes (s : State) (a : Nat) : Nat → Except Fault (List Byte)
  | 0 => .ok []
  | n + 1 => do
    let v ← pmemRead s a
    let vs ← pmemReadBytes s (a + 1) n
    .ok (v :: vs)

/-! ## Ownership (R27, R65) -/

/-- Two ranges, each a start and a length, have a byte in common. -/
def meets (a n a' n' : Nat) : Bool := 0 < n && 0 < n' && a < a' + n' && a' < a + n

/-- The range an armed bank owns: `[BUFPTR[b], BUFPTR[b] + CNT[b])`. A bank armed through `EP_TAC` without them owns
nothing (log entry 19). -/
def EpRegs.armedRange (x : EpRegs) (b : Bank) : Option (Nat × Nat) :=
  match x.nack b, x.ptr b, x.cnt b with
  | false, some a, some n => some (a.toNat, n.toNat)
  | _, _, _ => none

/-- An armed bank of the direction owns a byte of the range. -/
def EpRegs.owns (x : EpRegs) (a n : Nat) : Bool :=
  [Bank.b0, Bank.b1].any fun b => (x.armedRange b).any fun r => meets a n r.1 r.2

/-- Some armed bank of some direction of some endpoint owns a byte of the range (R65). -/
def State.hwOwns (s : State) (a n : Nat) : Bool :=
  epNumbers.any fun e => e.toNat < s.par.nEp && ((s.ep .OUT e).owns a n || (s.ep .IN e).owns a n)

/-! ## Trace, collaborators, handlers -/

/-- `emit` (R9, R45). -/
def State.emit (s : State) (n : Note) : State := { s with trace := s.trace ++ [n] }

/-- A handler runs: `H.RUN ≠ none`, and no format C or S word and no handler start is taken (R170, R179). -/
def State.busy (s : State) : Bool := s.hRun != .none

/-- The start of a handler (R170, R259): `H.RUN` and `H.STEP`, nothing else. -/
def State.startHandler (s : State) (h : HRun) : State := { s with hRun := h, hStep := some 0 }

/-- The end of a handler (R260); outside a handler its latches hold no value (R40, R41). -/
def State.endHandler (s : State) : State :=
  { s with hRun := .none, hStep := none, hSo := none, hSi := none, hOutk := none, hInk := none, hFa := none }

/-- `H.STEP` after a micro-step that is not the last (R170). -/
def State.atStep (s : State) (n : Nat) : State := { s with hStep := some n }

/-- The value of state that may hold none (R47). -/
def valueOf {α : Type} : Option α → Except Fault α
  | some v => .ok v
  | none => .error .cvNovalue

/-- The two bits of `H.OUTK` (R40). -/
def OutKind.code : OutKind → BitVec 2
  | .none => 0
  | .newRequest => 1
  | .ctlOut => 2

/-- The output of a word is left in the latch `out` (R89). -/
def State.give (s : State) (o : Output) : State := { s with out := o }

/-- The code number of a response (R89). -/
def Response.code : Response → Nat
  | .none => 0
  | .ack => 1
  | .nak => 2
  | .stall => 3
  | .data _ => 4

/-- The byte list that follows code 4 (R89). -/
def Response.bytes : Response → List Byte
  | .data bytes => bytes
  | .none | .ack | .nak | .stall => []

/-- The response a bus event left in the output, as its code and the bytes that follow (R89). -/
def Output.coded : Output → Option (Nat × List Byte)
  | .response r => .some (r.code, r.bytes)
  | .none | .value _ => .none

/-- `respond r` (R9). -/
def State.respond (s : State) (r : Response) : State := s.give (.response r)

/-! ## The outcome of a word -/

/-- An operation's answer as the outcome of a step. -/
def outcomeOf : Except Fault State → Host.Outcome State Fault Refusal
  | .ok s => .next s
  | .error f => .fault f

/-- A word that is only taken while no handler runs (R110, R170, `CV_CONTEXT` of R252; log entry 8). -/
def whenIdle (s : State) (r : Except Fault State) : Host.Outcome State Fault Refusal :=
  if s.busy then .fault .cvContext else outcomeOf r

/-- A command without a result, or a format S event (R89). -/
def command (s : State) (r : Except Fault State) : Host.Outcome State Fault Refusal :=
  whenIdle s (r.map fun t => t.give .none)

/-- A command with a result, which `f` gives beside the state (R89). -/
def returning (s : State) (r : Except Fault (State × Word)) : Host.Outcome State Fault Refusal :=
  whenIdle s (r.map fun t => t.1.give (.value t.2))

/-- A query: a result, and nothing written (R69). -/
def query (s : State) (r : Except Fault Word) : Host.Outcome State Fault Refusal :=
  returning s (r.map fun v => (s, v))

end Sys2Proof.Machine
end

