-- ==== Sys2Proof/Machine/Bus.lean ====
section
/-! DEFINITION. The bus events, the transaction sequencer and the bank arbiter (41_bus_transactions). A bus event is
taken whether or not a handler runs (R73), so no meaning here looks at `busy`. -/
namespace Sys2Proof.Machine

/-! ## Common parts -/

/-- The token filter (R140): detached, another address, no such endpoint, or a `DISABLED` direction. -/
def State.filtered (s : State) (d : Dir) (e : BitVec 4) (devaddr : BitVec 7) : Bool :=
  !s.attached || devaddr != s.addr || decide (s.par.nEp ≤ e.toNat) || (s.ep d e).type == typeDisabled

/-- `complete(X, b)` (R142). -/
def State.complete (s : State) (d : Dir) (e : BitVec 4) (b : Bank) : State :=
  (s.setEp d e ((s.ep d e).completed b)).raiseB trnif

/-- A bus condition, flagged while attached and otherwise ignored (R140, R146 to R150). -/
def State.condition (s : State) (flag : Byte) : State :=
  if s.attached then (s.raiseA flag).respond .none else s.respond .none

/-! ## Operations -/

/-- `BUS_SETUP` (R143), the tests in the rule's order. DEDUCED (log entry 27): when it is accepted the EP0 buffers keep
every byte but the eight of the packet, as R143's list of writes and R153 have it; R38 forbids a claim to rest on what
they hold from then on. -/
def busSetup (e : BitVec 4) (devaddr : BitVec 7) (payload : List Byte) (s : State) : Except Fault State :=
  let o := s.ep .OUT e
  if s.filtered .OUT e devaddr then .ok (s.respond .none)
  else if o.type ≠ typeControl then .ok (s.respond .none)
  else if payload.length ≠ 8 then .ok (s.respond .none)
  else if o.nack .b0 then .ok ((s.raiseA ovfif).respond .nak)
  else do
    let cap ← valueOf (o.cnt .b0)
    if cap.toNat < 8 then .ok ((s.raiseA ovfif).respond .none)
    else do
      let buf ← valueOf (o.ptr .b0)
      let t ← memWrite s buf.toNat payload
      let t := t.setEp .OUT e (o.setupAccepted s.par.setupSetsDone0)
      let t := t.setEp .IN e (s.ep .IN e).setupWithdrawn
      .ok ((t.raiseB setupif).respond .ack)

/-- `BUS_OUT` (R144, R152). -/
def busOut (e : BitVec 4) (devaddr : BitVec 7) (payload : List Byte) (s : State) : Except Fault State :=
  let o := s.ep .OUT e
  let b := o.sel
  if s.filtered .OUT e devaddr then .ok (s.respond .none)
  else if o.stall then .ok ((s.raiseA stallif).respond .stall)
  else if o.nack b then .ok ((s.raiseA ovfif).respond .nak)
  else do
    let cap ← valueOf (o.cnt b)
    if cap.toNat < payload.length then .ok ((s.raiseA ovfif).respond .none)
    else do
      let buf ← valueOf (o.ptr b)
      let t ← memWrite s buf.toNat payload
      let t := t.setEp .OUT e (o.setCnt b (BitVec.ofNat 7 payload.length))
      .ok ((t.complete .OUT e b).respond .ack)

/-- `BUS_IN` (R145, R152). -/
def busIn (e : BitVec 4) (hack : Bool) (devaddr : BitVec 7) (s : State) : Except Fault State :=
  let i := s.ep .IN e
  let b := i.sel
  if s.filtered .IN e devaddr then .ok (s.respond .none)
  else if i.stall then .ok ((s.raiseA stallif).respond .stall)
  else if i.nack b then .ok ((s.raiseA unfif).respond .nak)
  else do
    let n ← valueOf (i.cnt b)
    let buf ← valueOf (i.ptr b)
    let bytes ← memRead s buf.toNat n.toNat
    .ok ((if hack then s.complete .IN e b else s).respond (.data bytes))

/-! ## Meanings -/

/-- The meaning of `BUS_SETUP` (R143). -/
def execBusSetup (e : BitVec 4) (devaddr : BitVec 7) (payload : List Byte) (s : State) :
    Host.Outcome State Fault Refusal := outcomeOf (busSetup e devaddr payload s)

/-- The meaning of `BUS_OUT` (R144). -/
def execBusOut (e : BitVec 4) (devaddr : BitVec 7) (payload : List Byte) (s : State) :
    Host.Outcome State Fault Refusal := outcomeOf (busOut e devaddr payload s)

/-- The meaning of `BUS_IN` (R145). -/
def execBusIn (e : BitVec 4) (hack : Bool) (devaddr : BitVec 7) (s : State) : Host.Outcome State Fault Refusal :=
  outcomeOf (busIn e hack devaddr s)

/-- The meaning of `BUS_SOF` (R146). -/
def execBusSof (s : State) : Host.Outcome State Fault Refusal := .next (s.condition sofif)

/-- The meaning of `BUS_RESET` (R147). -/
def execBusReset (s : State) : Host.Outcome State Fault Refusal := .next (s.condition rstif)

/-- The meaning of `BUS_SUSPEND` (R148). -/
def execBusSuspend (s : State) : Host.Outcome State Fault Refusal := .next (s.condition suspendif)

/-- The meaning of `BUS_RESUME` (R149). -/
def execBusResume (s : State) : Host.Outcome State Fault Refusal := .next (s.condition resumeif)

/-- The meaning of `BUS_CRCERR` (R150). -/
def execBusCrcerr (s : State) : Host.Outcome State Fault Refusal := .next (s.condition crcif)

end Sys2Proof.Machine
end

