-- ==== Sys2Proof/Machine/Bridge.lean ====
section
/-! DEFINITION. The memory-space bridge (44_bridge): `BRIDGE_COPY` and `BUF_COPY`, each one step (R231, log
entry 12). -/
namespace Sys2Proof.Machine

/-! ## Operations -/

/-- EP0 IN bank 0 is armed over a byte of the first `n` of the EP0 IN buffer (R231). -/
def State.ep0InOwns (s : State) (n : Nat) : Bool :=
  ((s.ep .IN 0).armedRange .b0).any fun r => meets s.par.ep0InBuf.toNat n r.1 r.2

/-- `H.SAVEDMODE <- NVMCMD; NVMCMD <- NVM_NOOP` (R231, R42). -/
def State.saveMode (s : State) : State := { s with hSavedMode := some s.nvmcmd, nvmcmd := s.par.nvmNoop }

/-- `NVMCMD <- H.SAVEDMODE`, after which the latch is not live (R231, R42). -/
def State.restoreMode (s : State) : Except Fault State :=
  (valueOf s.hSavedMode).map fun m => { s with nvmcmd := m, hSavedMode := none }

/-- `BRIDGE_COPY` (R231): the checks, then save, switch, copy, restore. -/
def bridgeCopy (len : BitVec 16) (src : Addr) (s : State) : Except Fault State :=
  if maxPkt0 s.par < len.toNat then .error .cvOverrun
  else if pmemSize s.par ≤ src.toNat ∨ pmemSize s.par < src.toNat + len.toNat then .error .cvRange
  else if s.ep0InOwns len.toNat then .error .cvOwnership
  else do
    let t := s.saveMode
    let bytes ← pmemReadBytes t src.toNat len.toNat
    let t ← memWrite t t.par.ep0InBuf.toNat bytes
    t.restoreMode

/-- `BUF_COPY` (R232), as if through a temporary. -/
def bufCopy (len : BitVec 16) (src : Addr) (s : State) : Except Fault State :=
  if maxPkt0 s.par < len.toNat then .error .cvOverrun
  else if ramSize s.par ≤ src.toNat ∨ ramSize s.par < src.toNat + len.toNat then .error .cvRange
  else if s.hwOwns src.toNat len.toNat || s.hwOwns s.par.ep0InBuf.toNat len.toNat then .error .cvOwnership
  else do
    let bytes ← memRead s src.toNat len.toNat
    memWrite s s.par.ep0InBuf.toNat bytes

/-! ## Meanings -/

/-- The meaning of `BRIDGE_COPY` (R231). -/
def execBridgeCopy (len : BitVec 16) (src : Addr) (s : State) : Host.Outcome State Fault Refusal :=
  command s (bridgeCopy len src s)

/-- The meaning of `BUF_COPY` (R232). -/
def execBufCopy (len : BitVec 16) (src : Addr) (s : State) : Host.Outcome State Fault Refusal :=
  command s (bufCopy len src s)

end Sys2Proof.Machine
end

