-- ==== Sys2Proof/Machine/Endpoint.lean ====
section
/-! DEFINITION. The endpoint commands (40_endpoint_ops R111 to R124). Each has an operation, which the handlers and
the control engine use too, and a meaning as a word of the command port (R110). -/
namespace Sys2Proof.Machine

/-! ## Operations -/

/-- `EP_INIT` (R111). -/
def epInit (e : BitVec 4) (d : Dir) (type bufsize : BitVec 2) (pingpong : Bool) (s : State) : Except Fault State :=
  onEp s d e fun _ =>
    if type = typeReserved then .error .cvReserved
    else if type = typeControl ∧ pingpong = true then .error .cvReserved
    else .ok (s.setEp d e (EpRegs.initialised type bufsize pingpong))

/-- `EP_CANCEL` (R112): both banks idle, nothing else changed. -/
def epCancel (e : BitVec 4) (d : Dir) (s : State) : Except Fault State :=
  onInit s d e fun x => .ok (s.setEp d e (x.orStatus 0x03))

/-- `EP_ARM` (R113), the checks in the rule's order. -/
def epArm (e : BitVec 4) (d : Dir) (b : Bank) (size : BitVec 16) (buf : Addr) (s : State) : Except Fault State :=
  onInit s d e fun x =>
    if b = .b1 ∧ x.pingpong = false then .error .cvBadbank
    else if maxPkt x.bufsize < size.toNat then .error .cvSize
    else if ramSize s.par ≤ buf.toNat ∨ ramSize s.par < buf.toNat + size.toNat then .error .cvRange
    else if x.nack b = false then .error .cvDoublearm
    else if s.hwOwns buf.toNat size.toNat then .error .cvOwnership
    else .ok (s.setEp d e (x.arm b (size.setWidth 7) buf))

/-- `EP_ISDONE` (R114). -/
def epIsdone (e : BitVec 4) (d : Dir) (b : Bank) (any : Bool) (s : State) : Except Fault Word :=
  onInit s d e fun x =>
    if any = false ∧ b = .b1 ∧ x.pingpong = false then .error .cvBadbank
    else if any = true ∧ b = .b1 then .error .cvReserved
    else if any then .ok (boolWord (x.done .b0 || x.done .b1))
    else .ok (boolWord (x.done b))

/-- `EP_CLRDONE` (R115). -/
def epClrdone (e : BitVec 4) (d : Dir) (s : State) : Except Fault State :=
  onInit s d e fun x => .ok (s.setEp d e (x.clearStatus 0x0C))

/-- `EP_ISREADY` (R116): some bank in use is idle. -/
def epIsready (e : BitVec 4) (d : Dir) (s : State) : Except Fault Word :=
  onInit s d e fun x => .ok (boolWord (x.banks.any x.nack))

/-- `EP_ISEMPTY` (R117): every bank in use is idle. -/
def epIsempty (e : BitVec 4) (d : Dir) (s : State) : Except Fault Word :=
  onInit s d e fun x => .ok (boolWord (x.banks.all x.nack))

/-- `EP_NEXTBANK` (R118): the bank that will be serviced next, 0 whenever `PINGPONG` = 0 (log entry 26). -/
def epNextbank (e : BitVec 4) (d : Dir) (s : State) : Except Fault Word :=
  onInit s d e fun x => .ok (boolWord (x.sel == .b1))

/-- `EP_STALL` (R119). -/
def epStall (e : BitVec 4) (d : Dir) (s : State) : Except Fault State :=
  onInit s d e fun x => .ok (s.setEp d e x.setStall)

/-- `EP_RDSTATUS` (R120). -/
def epRdstatus (e : BitVec 4) (d : Dir) (mask : Byte) (s : State) : Except Fault Byte :=
  onEp s d e fun x => .ok (x.status &&& mask)

/-- `EP_TAC` (R121): the old `STATUS`, and the masked bits of `STATUS[5:0]` cleared. -/
def epTac (e : BitVec 4) (d : Dir) (mask : Byte) (s : State) : Except Fault (State × Byte) :=
  onEp s d e fun x => .ok (s.setEp d e (x.clearStatus (mask &&& 0x3F)), x.status)

/-- `EP_TAS` (R122): the old `STATUS`, and the masked bits of `STATUS[5:0]` set. -/
def epTas (e : BitVec 4) (d : Dir) (mask : Byte) (s : State) : Except Fault (State × Byte) :=
  onEp s d e fun x => .ok (s.setEp d e (x.orStatus (mask &&& 0x3F)), x.status)

/-- `EP_RDCNT` (R123). -/
def epRdcnt (e : BitVec 4) (d : Dir) (b : Bank) (s : State) : Except Fault Word :=
  onEp s d e fun x =>
    if b = .b1 ∧ x.pingpong = false then .error .cvBadbank
    else (valueOf (x.cnt b)).map fun n => n.setWidth 64

/-- `EP_RDCTRL` (R124). -/
def epRdctrl (e : BitVec 4) (d : Dir) (s : State) : Except Fault Byte := onEp s d e fun x => .ok x.ctrl

/-! ## Meanings -/

/-- The meaning of `EP_INIT` (R111). -/
def execEpInit (e : BitVec 4) (d : Dir) (type bufsize : BitVec 2) (pingpong : Bool) (s : State) :
    Host.Outcome State Fault Refusal := command s (epInit e d type bufsize pingpong s)

/-- The meaning of `EP_CANCEL` (R112). -/
def execEpCancel (e : BitVec 4) (d : Dir) (s : State) : Host.Outcome State Fault Refusal := command s (epCancel e d s)

/-- The meaning of `EP_ARM` (R113). -/
def execEpArm (e : BitVec 4) (d : Dir) (b : Bank) (size : BitVec 16) (buf : Addr) (s : State) :
    Host.Outcome State Fault Refusal := command s (epArm e d b size buf s)

/-- The meaning of `EP_ISDONE` (R114). -/
def execEpIsdone (e : BitVec 4) (d : Dir) (b : Bank) (any : Bool) (s : State) : Host.Outcome State Fault Refusal :=
  query s (epIsdone e d b any s)

/-- The meaning of `EP_CLRDONE` (R115). -/
def execEpClrdone (e : BitVec 4) (d : Dir) (s : State) : Host.Outcome State Fault Refusal :=
  command s (epClrdone e d s)

/-- The meaning of `EP_ISREADY` (R116). -/
def execEpIsready (e : BitVec 4) (d : Dir) (s : State) : Host.Outcome State Fault Refusal := query s (epIsready e d s)

/-- The meaning of `EP_ISEMPTY` (R117). -/
def execEpIsempty (e : BitVec 4) (d : Dir) (s : State) : Host.Outcome State Fault Refusal := query s (epIsempty e d s)

/-- The meaning of `EP_NEXTBANK` (R118). -/
def execEpNextbank (e : BitVec 4) (d : Dir) (s : State) : Host.Outcome State Fault Refusal :=
  query s (epNextbank e d s)

/-- The meaning of `EP_STALL` (R119). -/
def execEpStall (e : BitVec 4) (d : Dir) (s : State) : Host.Outcome State Fault Refusal := command s (epStall e d s)

/-- The meaning of `EP_RDSTATUS` (R120). -/
def execEpRdstatus (e : BitVec 4) (d : Dir) (mask : Byte) (s : State) : Host.Outcome State Fault Refusal :=
  query s ((epRdstatus e d mask s).map (·.setWidth 64))

/-- The meaning of `EP_TAC` (R121). -/
def execEpTac (e : BitVec 4) (d : Dir) (mask : Byte) (s : State) : Host.Outcome State Fault Refusal :=
  returning s ((epTac e d mask s).map fun r => (r.1, r.2.setWidth 64))

/-- The meaning of `EP_TAS` (R122). -/
def execEpTas (e : BitVec 4) (d : Dir) (mask : Byte) (s : State) : Host.Outcome State Fault Refusal :=
  returning s ((epTas e d mask s).map fun r => (r.1, r.2.setWidth 64))

/-- The meaning of `EP_RDCNT` (R123). -/
def execEpRdcnt (e : BitVec 4) (d : Dir) (b : Bank) (s : State) : Host.Outcome State Fault Refusal :=
  query s (epRdcnt e d b s)

/-- The meaning of `EP_RDCTRL` (R124). -/
def execEpRdctrl (e : BitVec 4) (d : Dir) (s : State) : Host.Outcome State Fault Refusal :=
  query s ((epRdctrl e d s).map (·.setWidth 64))

end Sys2Proof.Machine
end

