-- ==== Sys2Proof/Machine/Global.lean ====
section
/-! DEFINITION. The global commands and the harness commands (40_endpoint_ops R125 to R134, 44_bridge R233). -/
namespace Sys2Proof.Machine

/-! ## Operations -/

/-- `G_RD` (R125, R37). -/
def gRd (reg : BitVec 4) (s : State) : Except Fault Word :=
  match reg.toNat with
  | 0 => .ok (s.gctrl.setWidth 64)
  | 1 => .ok (s.addr.setWidth 64)
  | 2 => .ok (s.intflagsa.setWidth 64)
  | 3 => .ok (s.intflagsb.setWidth 64)
  | 4 => .ok (s.ctlstate.setWidth 64)
  | 5 => valueOf s.setuprec
  | 6 => .ok (s.nvmcmd.setWidth 64)
  | _ => .error .cvReserved

/-- `IFA_CLR` (R126). -/
def ifaClr (mask : Byte) (s : State) : State := { s with intflagsa := s.intflagsa &&& ~~~mask }

/-- `IFB_CLR` (R127). -/
def ifbClr (mask : Byte) (s : State) : State := { s with intflagsb := s.intflagsb &&& ~~~(mask &&& 0x03) }

/-- `DETACH` (R130). -/
def detach (s : State) : State := { s with gctrl := s.gctrl &&& 0xFE }

/-- `INT_ENABLE` (R131): `BUSEVIE` is bit 1, `TRNIE` bit 2. -/
def intEnable (busevie trnie : Bool) (s : State) : State :=
  { s with gctrl := (s.gctrl &&& 0xF9) ||| (if busevie then 0x02 else 0x00) ||| (if trnie then 0x04 else 0x00) }

/-- The first part of `USB_REINIT` (R132): every direction off, address, request flags and engine state 0. -/
def clearAll (s : State) : State :=
  { s with
    outs := Vector.replicate 16 EpRegs.off
    ins := Vector.replicate 16 EpRegs.off
    addr := 0
    intflagsb := 0x00
    ctlstate := csIdle }

/-- `USB_REINIT` (R132): everything off, then EP0 initialised and its OUT buffer armed. -/
def usbReinit (s : State) : Except Fault State := do
  let s ← epInit 0 .OUT typeControl s.par.ep0Size false (clearAll s)
  let s ← epInit 0 .IN typeControl s.par.ep0Size false s
  epArm 0 .OUT .b0 (maxPkt0Operand s.par) s.par.ep0OutBuf s

/-- The two checks of firmware's own access to `RAM` (R133, R134). -/
def ramAccess (addr : Addr) (s : State) : Except Fault Unit :=
  if ramSize s.par ≤ addr.toNat then .error .cvRange
  else if s.hwOwns addr.toNat 1 then .error .cvOwnership
  else .ok ()

/-- `RAM_WR` (R133). -/
def ramWr (data : Byte) (addr : Addr) (s : State) : Except Fault State :=
  (ramAccess addr s).map fun _ => s.setRamByte addr.toNat data

/-- `RAM_RD` (R134). -/
def ramRd (addr : Addr) (s : State) : Except Fault Byte := do
  ramAccess addr s
  valueOf (s.ramByte addr.toNat)

/-! ## Meanings -/

/-- The meaning of `G_RD` (R125). -/
def execGRd (reg : BitVec 4) (s : State) : Host.Outcome State Fault Refusal := query s (gRd reg s)

/-- The meaning of `IFA_CLR` (R126). -/
def execIfaClr (mask : Byte) (s : State) : Host.Outcome State Fault Refusal := command s (.ok (ifaClr mask s))

/-- The meaning of `IFB_CLR` (R127). -/
def execIfbClr (mask : Byte) (s : State) : Host.Outcome State Fault Refusal := command s (.ok (ifbClr mask s))

/-- The meaning of `SET_ADDR` (R128). -/
def execSetAddr (addr : BitVec 7) (s : State) : Host.Outcome State Fault Refusal :=
  command s (.ok { s with addr := addr })

/-- The meaning of `ATTACH` (R129). -/
def execAttach (s : State) : Host.Outcome State Fault Refusal :=
  command s (.ok { s with gctrl := s.gctrl ||| 0x01 })

/-- The meaning of `DETACH` (R130). -/
def execDetach (s : State) : Host.Outcome State Fault Refusal := command s (.ok (detach s))

/-- The meaning of `INT_ENABLE` (R131). -/
def execIntEnable (busevie trnie : Bool) (s : State) : Host.Outcome State Fault Refusal :=
  command s (.ok (intEnable busevie trnie s))

/-- The meaning of `USB_REINIT` (R132). -/
def execUsbReinit (s : State) : Host.Outcome State Fault Refusal := command s (usbReinit s)

/-- The meaning of `RAM_WR` (R133). -/
def execRamWr (data : Byte) (addr : Addr) (s : State) : Host.Outcome State Fault Refusal :=
  command s (ramWr data addr s)

/-- The meaning of `RAM_RD` (R134). -/
def execRamRd (addr : Addr) (s : State) : Host.Outcome State Fault Refusal :=
  query s ((ramRd addr s).map (·.setWidth 64))

/-- The meaning of `NVMCMD_WR` (R233). -/
def execNvmcmdWr (value : Byte) (s : State) : Host.Outcome State Fault Refusal :=
  command s (.ok { s with nvmcmd := value })

end Sys2Proof.Machine
end

