-- ==== Sys2Proof/Machine/Control.lean ====
section
/-! DEFINITION. The control-transfer engine (43_control_engine): the terminal commands, the three events, and the
dispatch of a request, whose steps `disp` holds (log entry 9). -/
namespace Sys2Proof.Machine

/-! ## Operations -/

/-- `G.CTLSTATE <- c`. -/
def State.setCtl (s : State) (c : Byte) : State := { s with ctlstate := c }

/-- `RearmOut` (R205). -/
def rearmOut (s : State) : Except Fault State :=
  if (s.ep .OUT 0).nack .b0 then epArm 0 .OUT .b0 (maxPkt0Operand s.par) s.par.ep0OutBuf s else .ok s

/-- Arms EP0 IN with the first bytes of its buffer (R200, R202, R196). -/
def armIn (size : BitVec 16) (s : State) : Except Fault State := epArm 0 .IN .b0 size s.par.ep0InBuf s

/-- A terminal command is taken in `SetupReceived` only (R200 to R203, R208). -/
def inDispatch (s : State) (r : Except Fault State) : Except Fault State :=
  if s.ctlstate ≠ csSetup then .error .cvDispatch else r

/-- `CTL_IN` (R200). -/
def ctlIn (size : BitVec 16) (s : State) : Except Fault State :=
  inDispatch s <|
    if maxPkt0 s.par < size.toNat then .error .cvSize
    else do
      let s ← armIn size s
      let s ← rearmOut s
      .ok (s.setCtl csDataIn)

/-- `CTL_OUT` (R201). -/
def ctlOut (s : State) : Except Fault State :=
  inDispatch s do
    let s ← rearmOut s
    .ok (s.setCtl csDataOut)

/-- `CTL_ACK` (R202). -/
def ctlAck (s : State) : Except Fault State :=
  inDispatch s do
    let s ← armIn 0 (s.setCtl csNoData)
    let s ← rearmOut s
    .ok (s.setCtl csStatusIn)

/-- `CTL_STALL` (R203). -/
def ctlStall (s : State) : Except Fault State :=
  inDispatch s do
    let s ← epCancel 0 .IN s
    let s ← epCancel 0 .OUT s
    let s ← epStall 0 .OUT s
    let s ← epStall 0 .IN s
    let s ← rearmOut s
    .ok (s.setCtl csIdle)

/-- `G.SETUPREC <- r` (R191). -/
def State.record (s : State) (r : Word) : State := { s with setuprec := some r }

/-- The steps of the dispatch still to be taken (log entry 9). -/
def State.follow (s : State) (l : List DispStep) : State := { s with disp := l }

/-- N1 of `EV_NEWREQUEST` (R191): the record is copied, the state is `SetupReceived`, the request is noted. -/
def newRequest (s : State) : Except Fault State := do
  let bytes ← memRead s s.par.ep0OutBuf.toNat 8
  let r := setupWord bytes
  .ok (((s.record r).setCtl csSetup).emit (.newReq r))

/-- `EV_NEWREQUEST` (R191): N1, and N2 to follow. -/
def evNewrequest (s : State) : Except Fault State := (newRequest s).map (·.follow [.call])

/-- `EV_CTLOUT_DONE` (R196). -/
def evCtloutDone (s : State) : Except Fault State := do
  let n ← valueOf ((s.ep .OUT 0).cnt .b0)
  let s := s.emit (.ctlOut n)
  if s.ctlstate = csDataOut then do
    let s ← armIn 0 s
    let s ← rearmOut s
    .ok (s.setCtl csStatusIn)
  else if s.ctlstate = csDataIn then do
    let s ← epCancel 0 .IN s
    let s ← rearmOut s
    .ok (s.setCtl csIdle)
  else if s.ctlstate = csStatusOut then do
    let s ← rearmOut s
    .ok (s.setCtl csIdle)
  else rearmOut s

/-- `EV_CTLIN_DONE` (R197). -/
def evCtlinDone (stale : Bool) (s : State) : State :=
  let s := s.emit (.ctlIn stale)
  if stale then s
  else if s.ctlstate = csDataIn then s.setCtl csStatusOut
  else if s.ctlstate = csStatusIn then s.setCtl csIdle
  else s

/-! ## The collaborators (R206; log entry 4) -/

/-- The entry of a launch table. -/
def lookup {α β : Type} [DecidableEq α] : List (α × β) → α → Option β
  | [], _ => none
  | (k', v) :: m, k => if k' = k then some v else lookup m k

/-- `resolveDescriptor(type, index)`: the same pair, the same answer. -/
def Env.descriptor (v : Env) (type index : Byte) : Resolved :=
  (lookup v.descriptors (type, index)).getD (Config.freeDescriptor type index)

/-- `resolveOsDescriptor(index)`. -/
def Env.osDescriptor (v : Env) (index : BitVec 16) : Resolved :=
  (lookup v.osDescriptors index).getD (Config.freeOsDescriptor index)

/-- `onSetConfiguration(value)`, and the answers left. -/
def State.askConfiguration (s : State) (value : Byte) : Bool × State :=
  (s.env.cfgAnswers.headD (Config.freeSetConfiguration s.tick value),
   { s with env := { s.env with cfgAnswers := s.env.cfgAnswers.tail } })

/-- `onSetInterface(interface, altSetting)`, and the answers left. -/
def State.askInterface (s : State) (interface altSetting : BitVec 16) : Bool × State :=
  (s.env.ifAnswers.headD (Config.freeSetInterface s.tick interface altSetting),
   { s with env := { s.env with ifAnswers := s.env.ifAnswers.tail } })

/-- `onSetupRequest()`, which reads the record, and the answers left. -/
def State.askRequest (s : State) (r : Word) : SetupOutcome × State :=
  (s.env.reqAnswers.headD (Config.freeSetupRequest s.tick r),
   { s with env := { s.env with reqAnswers := s.env.reqAnswers.tail } })

/-! ## The dispatch (R192) -/

/-- `min(length, wLength)`, the clamp (R193). -/
def clamp (length wLen : BitVec 16) : BitVec 16 := if length ≤ wLen then length else wLen

/-- `ServeDescriptor` (R193): the steps that follow the resolver's answer. -/
def serveDescriptor (p : Params) (wLen : BitVec 16) : Resolved → List DispStep
  | .notFound => [.ctlStall]
  | .found space src length =>
    let n := clamp length wLen
    if length = 0 then [.ctlStall]
    else if n = 0 then [.ctlAck]
    else if maxPkt0 p < n.toNat then [.overrun]
    else match space with
      | .PMEM => [.bridgeCopy n src, .ctlIn n]
      | .RAM => [.bufCopy n src, .ctlIn n]

/-- Accept or reject of a hook (R194, R195). -/
def serveHook (accept : Bool) : List DispStep := if accept then [.ctlAck] else [.ctlStall]

/-- The outcomes of `onSetupRequest` (R199) but for `DataIn` of a legal length, whose bytes the call stores. -/
def serveRequest : SetupOutcome → List DispStep
  | .dataIn bytes => [.ctlIn (BitVec.ofNat 16 bytes.length)]
  | .dataOut => [.ctlOut]
  | .ack => [.ctlAck]
  | .ackDetach => [.ctlAck, .poll, .detach]
  | .stall => [.ctlStall]
  | .none => []

/-- A reply of `onSetupRequest` is too long (R199). -/
def replyTooLong (p : Params) (wLen : BitVec 16) : SetupOutcome → Bool
  | .dataIn bytes => maxPkt0 p < bytes.length || wLen.toNat < bytes.length
  | .dataOut | .ack | .ackDetach | .stall | .none => false

/-- The bytes the call stores in the EP0 IN buffer (R199, D41). -/
def replyBytes : SetupOutcome → List Byte
  | .dataIn bytes => bytes
  | .dataOut | .ack | .ackDetach | .stall | .none => []

/-- The rest of the dispatch: the steps given, then N3 (R191). -/
def State.plan (s : State) (l : List DispStep) : State := s.follow (l ++ [.n3])

/-- The call of N2 (R192 to R195, R198, R199): the collaborator is asked, the call is noted, and what must follow is
left to the next steps. -/
def callCollaborator (s : State) : Except Fault State := do
  let r ← valueOf s.setuprec
  match classify s.par r with
  | .getDescriptor =>
    let type := (wValue r).extractLsb' 8 8
    let index := (wValue r).extractLsb' 0 8
    let x := s.env.descriptor type index
    .ok ((s.emit (.call (.resolveDescriptor type index x))).plan (serveDescriptor s.par (wLength r) x))
  | .setConfiguration =>
    let value := (wValue r).extractLsb' 0 8
    let (a, t) := s.askConfiguration value
    .ok ((t.emit (.call (.onSetConfiguration value a))).plan (serveHook a))
  | .setInterface =>
    let (a, t) := s.askInterface (wIndex r) (wValue r)
    .ok ((t.emit (.call (.onSetInterface (wIndex r) (wValue r) a))).plan (serveHook a))
  | .vendor =>
    let x := s.env.osDescriptor (wIndex r)
    .ok ((s.emit (.call (.resolveOsDescriptor (wIndex r) x))).plan (serveDescriptor s.par (wLength r) x))
  | .external =>
    let (x, t) := s.askRequest r
    let t := t.emit (.call (.onSetupRequest x))
    if replyTooLong s.par (wLength r) x then .ok (t.plan [.overrun])
    else do
      let t ← memWrite t t.par.ep0InBuf.toNat (replyBytes x)
      .ok (t.plan (serveRequest x))

/-- N3 (R191): the dispatcher must have ended a branch. The field `CSTATE` is tested, as the rule has it. -/
def checkDispatched (s : State) : Except Fault State :=
  if s.ctlstate.extractLsb' 0 3 = 1#3 then .error .cvDispatch else .ok s

/-- One turn of `repeat r <- EP_ISDONE ep=0 dir=IN any=1 until r = 1` (R103): `again` as long as it is 0. -/
def pollStatus (again s : State) : Except Fault State :=
  (epIsdone 0 .IN .b0 true s).map fun r => if r = 1 then s else again

/-- One step of a dispatch; `s` is the state with the step taken off, `whole` the state with it. -/
def runDispStep (whole s : State) : DispStep → Except Fault State
  | .call => callCollaborator s
  | .overrun => .error .cvOverrun
  | .bridgeCopy len src => bridgeCopy len src s
  | .bufCopy len src => bufCopy len src s
  | .ctlIn size => ctlIn size s
  | .ctlOut => ctlOut s
  | .ctlAck => ctlAck s
  | .ctlStall => ctlStall s
  | .poll => pollStatus whole s
  | .detach => .ok (detach s)
  | .n3 => checkDispatched s

/-! ## Meanings -/

/-- The meaning of `CTL_IN` (R200). -/
def execCtlIn (size : BitVec 16) (s : State) : Host.Outcome State Fault Refusal := command s (ctlIn size s)

/-- The meaning of `CTL_OUT` (R201). -/
def execCtlOut (s : State) : Host.Outcome State Fault Refusal := command s (ctlOut s)

/-- The meaning of `CTL_ACK` (R202). -/
def execCtlAck (s : State) : Host.Outcome State Fault Refusal := command s (ctlAck s)

/-- The meaning of `CTL_STALL` (R203). -/
def execCtlStall (s : State) : Host.Outcome State Fault Refusal := command s (ctlStall s)

/-- An injected `EV_NEWREQUEST` runs its dispatch as the transaction-complete handler does, which is the only context
a dispatch has (R73, R206, R207 (2)): `H.RUN` is `HTRN` until it is over, and `H.STEP` names the end that follows it
(log entry 9). -/
def State.dispatchContext (s : State) : State := (s.startHandler .htrn).atStep 7

/-- The meaning of `EV_NEWREQUEST` as an injected word (R179, R191): N1, with the dispatch to follow in the next
steps (log entry 9). -/
def execEvNewrequest (s : State) : Host.Outcome State Fault Refusal :=
  command s ((evNewrequest s).map (·.dispatchContext))

/-- The meaning of `EV_CTLOUT_DONE` as an injected word (R179, R196). -/
def execEvCtloutDone (s : State) : Host.Outcome State Fault Refusal := command s (evCtloutDone s)

/-- The meaning of `EV_CTLIN_DONE` as an injected word (R179, R197). -/
def execEvCtlinDone (stale : Bool) (s : State) : Host.Outcome State Fault Refusal :=
  command s (.ok (evCtlinDone stale s))

end Sys2Proof.Machine
end

