-- ==== Sys2Proof/Machine/Service.lean ====
section
/-! DEFINITION. The two service handlers (42_service_handlers) as sequences of micro-steps, `H.STEP` naming the next
one (log entry 10). -/
namespace Sys2Proof.Machine

/-! ## The bus-event handler (R171) -/

/-- The four groups (R171). -/
inductive Group where
  | sof
  | error
  | stall
  | power
  | nothing
  deriving DecidableEq, Repr

/-- The first group in the document's order whose flags are set in the reading (R171). -/
def firstGroup (fa : Byte) : Group :=
  if fa &&& 0x01 ≠ 0 then .sof
  else if fa &&& 0x0E ≠ 0 then .error
  else if fa &&& 0x10 ≠ 0 then .stall
  else if fa &&& 0xE0 ≠ 0 then .power
  else .nothing

/-- B1: the one reading of `INTFLAGSA` (R171). -/
def readFlags (s : State) : State := { s with hFa := some s.intflagsa }.atStep 1

/-- B2: the matched group's clear and note (R172 to R175). Only a group 4 with `RSTIF` goes on. -/
def serveGroup (fa : Byte) (s : State) : State :=
  match firstGroup fa with
  | .sof => ((ifaClr 0x01 s).emit .sof).endHandler
  | .error => ((ifaClr (fa &&& 0x0E) s).emit (.busErr (fa &&& 0x0E))).endHandler
  | .stall => ((ifaClr 0x10 s).emit .stallSent).endHandler
  | .power =>
    let t := (ifaClr (fa &&& 0xE0) s).emit (.pwr (fa &&& 0xE0))
    if fa.getLsbD 7 then t.atStep 2 else t.endHandler
  | .nothing => s.endHandler

/-- The reinitialisation of a confirmed bus reset (R175). -/
def serveReset (s : State) : Except Fault State := (usbReinit s).map fun t => (t.emit .reinit).endHandler

/-- The micro-step `n` of `SVC_BUSEVENT`. -/
def busEventStep (n : Nat) (s : State) : Except Fault State :=
  match n with
  | 0 => .ok (readFlags s)
  | 1 => (valueOf s.hFa).map fun fa => serveGroup fa s
  | _ => serveReset s

/-! ## The transaction-complete handler (R176) -/

/-- T1. -/
def t1 (s : State) : State := (ifbClr 0x03 s).atStep 1

/-- T2: the single read of EP0 OUT (R177). -/
def t2 (s : State) : Except Fault State :=
  (epRdstatus 0 .OUT 0x14 s).map fun v => { s with hSo := some v }.atStep 2

/-- T3: the reading is classified, `SETUP` first, and acknowledged. -/
def t3 (s : State) : Except Fault State := do
  let so ← valueOf s.hSo
  if so.getLsbD 4 then
    (epTac 0 .OUT 0x14 s).map fun r => { r.1 with hOutk := some .newRequest }.atStep 3
  else if so.getLsbD 2 then
    (epTac 0 .OUT 0x04 s).map fun r => { r.1 with hOutk := some .ctlOut }.atStep 3
  else .ok ({ s with hOutk := some .none }.atStep 3)

/-- T4, the read of EP0 IN. -/
def t4Read (s : State) : Except Fault State :=
  (epRdstatus 0 .IN 0x04 s).map fun v => { s with hSi := some v }.atStep 4

/-- T4, the acknowledgement of EP0 IN. -/
def t4Ack (s : State) : Except Fault State := do
  let si ← valueOf s.hSi
  if si.getLsbD 2 then
    (epTac 0 .IN 0x04 s).map fun r => { r.1 with hInk := some true }.atStep 5
  else .ok ({ s with hInk := some false }.atStep 5)

/-- T5: the OUT-side dispatch. The rest of an `EV_NEWREQUEST` is taken before T6. -/
def t5 (s : State) : Except Fault State := do
  match ← valueOf s.hOutk with
  | .newRequest => (evNewrequest s).map (·.atStep 6)
  | .ctlOut => (evCtloutDone s).map (·.atStep 6)
  | .none => .ok (s.atStep 6)

/-- T6: the IN-side dispatch, stale when a SETUP was dispatched (R178), and the end of the handler. -/
def t6 (s : State) : Except Fault State := do
  let outk ← valueOf s.hOutk
  let ink ← valueOf s.hInk
  .ok (if ink then (evCtlinDone (outk == .newRequest) s).endHandler else s.endHandler)

/-- The micro-step `n` of `SVC_TRNCOMPL`; 7 is the end of a dispatch that was injected (log entries 9 and 10). -/
def trncomplStep (n : Nat) (s : State) : Except Fault State :=
  match n with
  | 0 => .ok (t1 s)
  | 1 => t2 s
  | 2 => t3 s
  | 3 => t4Read s
  | 4 => t4Ack s
  | 5 => t5 s
  | 6 => t6 s
  | _ => .ok s.endHandler

/-- The next step of what is in progress: of the dispatch before the handler it runs in (R191, R176). With nothing
in progress nothing happens. -/
def microStep (s : State) : Except Fault State :=
  match s.disp with
  | x :: rest => runDispStep s (s.follow rest) x
  | [] =>
    match s.hRun with
    | .none => .ok s
    | .hbus => do busEventStep (← valueOf s.hStep) s
    | .htrn => do trncomplStep (← valueOf s.hStep) s

/-! ## Meanings -/

/-- The meaning of `SVC_BUSEVENT`: the handler starts now (R170, R171, R179). -/
def execSvcBusevent (s : State) : Host.Outcome State Fault Refusal := command s (.ok (s.startHandler .hbus))

/-- The meaning of `SVC_TRNCOMPL`: the handler starts now (R170, R176, R179). -/
def execSvcTrncompl (s : State) : Host.Outcome State Fault Refusal := command s (.ok (s.startHandler .htrn))

end Sys2Proof.Machine
end

