-- ==== Sys2Proof/Machine/Dispatch.lean ====
section
/-! DEFINITION. Which meaning each instruction has: one arm per row of the opcode map (R90). -/
namespace Sys2Proof.Machine

/-- One instruction, executed (R250: exactly one outcome). -/
def exec (i : Instr) (s : State) : Host.Outcome State Fault Refusal :=
  match i with
  | .epInit e d t c p => Sys2Proof.Machine.execEpInit e d t c p s
  | .epCancel e d => Sys2Proof.Machine.execEpCancel e d s
  | .epArm e d b n a => Sys2Proof.Machine.execEpArm e d b n a s
  | .epIsdone e d b y => Sys2Proof.Machine.execEpIsdone e d b y s
  | .epClrdone e d => Sys2Proof.Machine.execEpClrdone e d s
  | .epIsready e d => Sys2Proof.Machine.execEpIsready e d s
  | .epIsempty e d => Sys2Proof.Machine.execEpIsempty e d s
  | .epNextbank e d => Sys2Proof.Machine.execEpNextbank e d s
  | .epStall e d => Sys2Proof.Machine.execEpStall e d s
  | .epRdstatus e d m => Sys2Proof.Machine.execEpRdstatus e d m s
  | .epTac e d m => Sys2Proof.Machine.execEpTac e d m s
  | .epTas e d m => Sys2Proof.Machine.execEpTas e d m s
  | .epRdcnt e d b => Sys2Proof.Machine.execEpRdcnt e d b s
  | .epRdctrl e d => Sys2Proof.Machine.execEpRdctrl e d s
  | .gRd r => Sys2Proof.Machine.execGRd r s
  | .ifaClr m => Sys2Proof.Machine.execIfaClr m s
  | .ifbClr m => Sys2Proof.Machine.execIfbClr m s
  | .setAddr a => Sys2Proof.Machine.execSetAddr a s
  | .attach => Sys2Proof.Machine.execAttach s
  | .detach => Sys2Proof.Machine.execDetach s
  | .intEnable b t => Sys2Proof.Machine.execIntEnable b t s
  | .usbReinit => Sys2Proof.Machine.execUsbReinit s
  | .ctlIn n => Sys2Proof.Machine.execCtlIn n s
  | .ctlOut => Sys2Proof.Machine.execCtlOut s
  | .ctlAck => Sys2Proof.Machine.execCtlAck s
  | .ctlStall => Sys2Proof.Machine.execCtlStall s
  | .bridgeCopy n a => Sys2Proof.Machine.execBridgeCopy n a s
  | .bufCopy n a => Sys2Proof.Machine.execBufCopy n a s
  | .ramWr v a => Sys2Proof.Machine.execRamWr v a s
  | .ramRd a => Sys2Proof.Machine.execRamRd a s
  | .nvmcmdWr v => Sys2Proof.Machine.execNvmcmdWr v s
  | .busSetup e a p => Sys2Proof.Machine.execBusSetup e a p s
  | .busOut e a p => Sys2Proof.Machine.execBusOut e a p s
  | .busIn e h a => Sys2Proof.Machine.execBusIn e h a s
  | .busSof => Sys2Proof.Machine.execBusSof s
  | .busReset => Sys2Proof.Machine.execBusReset s
  | .busSuspend => Sys2Proof.Machine.execBusSuspend s
  | .busResume => Sys2Proof.Machine.execBusResume s
  | .busCrcerr => Sys2Proof.Machine.execBusCrcerr s
  | .svcBusevent => Sys2Proof.Machine.execSvcBusevent s
  | .svcTrncompl => Sys2Proof.Machine.execSvcTrncompl s
  | .evNewrequest => Sys2Proof.Machine.execEvNewrequest s
  | .evCtloutDone => Sys2Proof.Machine.execEvCtloutDone s
  | .evCtlinDone f => Sys2Proof.Machine.execEvCtlinDone f s

end Sys2Proof.Machine
end

