-- ==== Sys2Proof/Machine/Sched.lean ====
section
/-! DEFINITION. Who moves (R5, R72, R73, R170) and how a word comes from a port (R76, R85). -/
namespace Sys2Proof.Machine

/-- The instruction comes from the SIE: format E (R85, R87). -/
def isBusEvent : Instr → Bool
  | .busSetup _ _ _ | .busOut _ _ _ | .busIn _ _ _ | .busSof | .busReset | .busSuspend | .busResume | .busCrcerr => true
  | .epInit _ _ _ _ _ | .epCancel _ _ | .epArm _ _ _ _ _ | .epIsdone _ _ _ _ | .epClrdone _ _ | .epIsready _ _
  | .epIsempty _ _ | .epNextbank _ _ | .epStall _ _ | .epRdstatus _ _ _ | .epTac _ _ _ | .epTas _ _ _
  | .epRdcnt _ _ _ | .epRdctrl _ _ | .gRd _ | .ifaClr _ | .ifbClr _ | .setAddr _ | .attach | .detach
  | .intEnable _ _ | .usbReinit | .ctlIn _ | .ctlOut | .ctlAck | .ctlStall | .bridgeCopy _ _ | .bufCopy _ _
  | .ramWr _ _ | .ramRd _ | .nvmcmdWr _ | .svcBusevent | .svcTrncompl | .evNewrequest | .evCtloutDone
  | .evCtlinDone _ => false

/-- The next word of the command port, executed (R76). An undecodable word of any format is `CV_RESERVED` (R92, D55,
U19; log entry 16). Where the port does not hold a whole word yet, nothing happens (log entry 17). -/
def runCommandWord (s : State) : Host.Outcome State Fault Refusal :=
  match decode s.cmd with
  | .ok i rest => exec i { s with cmd := rest }
  | .illegalCommand => .fault .cvReserved
  | .illegalEvent => .fault .cvReserved
  | .incomplete => .next s

/-- The next bus event, executed (R72, R73, D2). A word that is none is undecodable here (log entry 18). -/
def runBusWord (s : State) : Host.Outcome State Fault Refusal :=
  match decode s.bus with
  | .ok i rest => if isBusEvent i then exec i { s with bus := rest } else .fault .cvReserved
  | .illegalCommand => .fault .cvReserved
  | .illegalEvent => .fault .cvReserved
  | .incomplete => .next s

/-- The turn of one agent (R170). FG waits while a handler runs; a handler starts when its request is true and none
runs; whoever cannot move passes. -/
def runAgent (a : Agent) (s : State) : Host.Outcome State Fault Refusal :=
  match a with
  | .host => runBusWord s
  | .fg => if s.busy then .next s else runCommandWord s
  | .handler => outcomeOf (microStep s)
  | .startBus => .next (if s.irqBusev && !s.busy then s.startHandler .hbus else s)
  | .startTrn => .next (if s.irqTrn && !s.busy then s.startHandler .htrn else s)

/-- One turn. An injected word is taken whoever runs (R179; `CV_CONTEXT` where it may not be). -/
def runTurn (t : Turn) (s : State) : Host.Outcome State Fault Refusal :=
  match t with
  | .inject => runCommandWord s
  | .agent a => runAgent a s

/-- Whose turn it is: the head of the schedule, and where that is exhausted a free choice (R258, log entry 2). -/
def State.nextTurn (s : State) : Turn := s.turns.headD (.agent (Config.freeAgent s.tick))

/-- The turn is taken off the schedule and counted. -/
def State.tookTurn (s : State) : State := { s with turns := s.turns.tail, tick := s.tick + 1 }

/-! ## What is recorded of a fault (R252) -/

/-- The 64-bit word at the head of a port. -/
def headWord : List Byte → Option Word
  | b7 :: b6 :: b5 :: b4 :: b3 :: b2 :: b1 :: b0 :: _ => some (b7 ++ b6 ++ b5 ++ b4 ++ b3 ++ b2 ++ b1 ++ b0 : BitVec 64)
  | _ => none

/-- The word a step of a dispatch issues or belongs to: its command, or the event itself for the calls and checks of
R191 to R199 (R252 lists `CV_OVERRUN` and `CV_DISPATCH` under them). -/
def DispStep.word : DispStep → Word
  | .call | .overrun | .n3 => encodeWord .evNewrequest
  | .bridgeCopy len src => encodeWord (.bridgeCopy len src)
  | .bufCopy len src => encodeWord (.bufCopy len src)
  | .ctlIn size => encodeWord (.ctlIn size)
  | .ctlOut => encodeWord .ctlOut
  | .ctlAck => encodeWord .ctlAck
  | .ctlStall => encodeWord .ctlStall
  | .poll => encodeWord (.epIsdone 0 .IN .b0 true)
  | .detach => encodeWord .detach

/-- The word of what is in progress: a dispatch's step, or the engine event or the handler a micro-step belongs to. -/
def State.progressWord (s : State) : Option Word :=
  match s.disp with
  | x :: _ => some x.word
  | [] =>
    match s.hRun with
    | .none => none
    | .hbus => some (encodeWord .svcBusevent)
    | .htrn =>
      match s.hStep, s.hOutk with
      | some 5, some .newRequest => some (encodeWord .evNewrequest)
      | some 5, some .ctlOut => some (encodeWord .evCtloutDone)
      | _, _ => some (encodeWord .svcTrncompl)

/-- The command word of the step about to be taken. -/
def State.turnWord (s : State) : Option Word :=
  match s.nextTurn with
  | .inject | .agent .fg => headWord s.cmd
  | .agent .host => headWord s.bus
  | .agent .handler => s.progressWord
  | .agent .startBus | .agent .startTrn => none

end Sys2Proof.Machine
end

