-- ==== Sys2Proof/Machine/Step.lean ====
section
/-! DEFINITION. One step of the machine, and how a word is put where the next step takes it. -/
namespace Sys2Proof.Machine

/-- One atomic step of one agent (R72). -/
def step (s : State) : Host.Outcome State Fault Refusal := runTurn s.nextTurn s.tookTurn

/-- The state with a word of the opcode table, and the payload it asks for, at the head of the command port, and the
next turn an injection of it (log entry 1). -/
def State.withFetchWord (s : State) (nbits w : Nat) : State :=
  { s with cmd := layoutTableWord nbits w ++ s.cmd, turns := .inject :: s.turns }

end Sys2Proof.Machine
end

