-- ==== Sys2Proof/Safety.lean ====
section
/-! DEFINITION. The terms claims use: what a step leaves unchanged, the invariant every step keeps, and what a safe run
is. -/
namespace Sys2Proof.Machine

/-! ## Frames -/

/-- Every register group but `EP[e][d]` is unchanged. -/
def sameEpsBut (s t : State) (d : Dir) (e : BitVec 4) : Prop :=
  ∀ d' e', ¬(d' = d ∧ e' = e) → t.ep d' e' = s.ep d' e'

/-- Every register group is unchanged. -/
def sameEps (s t : State) : Prop := ∀ d e, t.ep d e = s.ep d e

/-- Every register group of every endpoint but endpoint 0 is unchanged. -/
def sameEpsBut0 (s t : State) : Prop := ∀ d e, e ≠ 0 → t.ep d e = s.ep d e

/-- Every byte of `RAM` reads as before. -/
def sameRam (s t : State) : Prop := ∀ a, t.ramByte a = s.ramByte a

/-- Every byte of `RAM` outside `[a, a+n)` reads as before. -/
def sameRamBut (s t : State) (a n : Nat) : Prop := ∀ x, ¬(a ≤ x ∧ x < a + n) → t.ramByte x = s.ramByte x

/-- The global registers are unchanged but for those whose numbers are listed (R37). -/
def sameGlobalsBut (s t : State) (l : List Nat) : Prop :=
  (0 ∉ l → t.gctrl = s.gctrl) ∧ (1 ∉ l → t.addr = s.addr) ∧ (2 ∉ l → t.intflagsa = s.intflagsa) ∧
  (3 ∉ l → t.intflagsb = s.intflagsb) ∧ (4 ∉ l → t.ctlstate = s.ctlstate) ∧ (5 ∉ l → t.setuprec = s.setuprec) ∧
  (6 ∉ l → t.nvmcmd = s.nvmcmd)

/-- The launch parameters, `PMEM` and the collaborators' answers are unchanged (R6, R62). -/
def sameLaunch (s t : State) : Prop := t.par = s.par ∧ t.pmem = s.pmem ∧ t.env = s.env

/-- The handlers' latches and the bridge's are unchanged (R40, R41, R42). -/
def sameLatches (s t : State) : Prop :=
  t.hSo = s.hSo ∧ t.hSi = s.hSi ∧ t.hOutk = s.hOutk ∧ t.hInk = s.hInk ∧ t.hFa = s.hFa ∧ t.hSavedMode = s.hSavedMode

/-- `H.RUN`, `H.STEP`, the latches and the dispatch in progress are unchanged (R40 to R43). -/
def sameHidden (s t : State) : Prop := t.hRun = s.hRun ∧ t.hStep = s.hStep ∧ t.disp = s.disp ∧ sameLatches s t

/-- The ports and the schedule are unchanged. -/
def samePorts (s t : State) : Prop := t.cmd = s.cmd ∧ t.bus = s.bus ∧ t.turns = s.turns ∧ t.tick = s.tick

/-- Launch values, hidden state, trace and ports are unchanged: all but the register file, `RAM`, the global
registers and the output. -/
def sameRest (s t : State) : Prop := sameLaunch s t ∧ sameHidden s t ∧ t.trace = s.trace ∧ samePorts s t

/-- Only `EP[e][d]` and the output changed. -/
def onlyEp (s t : State) (d : Dir) (e : BitVec 4) : Prop :=
  sameEpsBut s t d e ∧ sameRam s t ∧ sameGlobalsBut s t [] ∧ sameRest s t

/-- Only the output changed. -/
def onlyOut (s t : State) : Prop := sameEps s t ∧ sameRam s t ∧ sameGlobalsBut s t [] ∧ sameRest s t

/-- Only the global registers listed and the output changed. -/
def onlyGlobals (s t : State) (l : List Nat) : Prop :=
  sameEps s t ∧ sameRam s t ∧ sameGlobalsBut s t l ∧ sameRest s t

/-- In a register group only `STATUS` may differ. -/
def onlyStatus (x y : EpRegs) : Prop := y.ctrl = x.ctrl ∧ ∀ b, y.cnt b = x.cnt b ∧ y.ptr b = x.ptr b

/-- Every bit of a byte but those listed is unchanged. -/
def sameBitsBut (x y : Byte) (l : List Nat) : Prop := ∀ k, k ∉ l → y.getLsbD k = x.getLsbD k

/-- Bit number of `NACKb` (R23). -/
def nackBit : Bank → Nat
  | .b0 => 0
  | .b1 => 1

/-- Bit number of `DONEb` (R23). -/
def doneBit : Bank → Nat
  | .b0 => 2
  | .b1 => 3

/-! ## Ownership and arming -/

/-- The armed bank `b` of `EP[e][d]` owns the byte at `a` (R27, R65). DEDUCED (log entry 19): a bank armed through
`EP_TAC` while its count or reference holds no value owns nothing. -/
def bankOwns (s : State) (d : Dir) (e : BitVec 4) (b : Bank) (a : Nat) : Prop :=
  e.toNat < s.par.nEp ∧ (s.ep d e).nack b = false ∧
  ∃ p n, (s.ep d e).ptr b = some p ∧ (s.ep d e).cnt b = some n ∧ p.toNat ≤ a ∧ a < p.toNat + n.toNat

/-- Hardware owns a byte of `[a, a+n)` (R65). -/
def hardwareOwns (s : State) (a n : Nat) : Prop := ∃ x, (a ≤ x ∧ x < a + n) ∧ ∃ d e b, bankOwns s d e b x

/-- `y` is `x` with bank `b` armed on `n` bytes at `a` (R113): `NACKb` and `DONEb` cleared, nothing else changed. -/
def armedAs (x y : EpRegs) (b : Bank) (n : Nat) (a : Addr) : Prop :=
  y.ctrl = x.ctrl ∧ y.nack b = false ∧ y.done b = false ∧ sameBitsBut x.status y.status [nackBit b, doneBit b] ∧
  y.ptr b = some a ∧ (∃ c, y.cnt b = some c ∧ c.toNat = n) ∧
  ∀ b', b' ≠ b → y.cnt b' = x.cnt b' ∧ y.ptr b' = x.ptr b'

/-- `y` is `x` with bank `b` completed (R142): `NACKb` and `DONEb` set, with ping-pong `BANK` flipped, nothing else
changed in `STATUS`. -/
def completedStatus (x y : EpRegs) (b : Bank) : Prop :=
  y.nack b = true ∧ y.done b = true ∧ (y.status.getLsbD 5 = (x.status.getLsbD 5 ^^ x.pingpong)) ∧
  sameBitsBut x.status y.status [nackBit b, doneBit b, 5]

/-- EP0 OUT after `RearmOut` (R205): armed on its buffer if it was idle, else as it was. -/
def rearmed (s t : State) : Prop :=
  if (s.ep .OUT 0).nack .b0 = true then
    armedAs (s.ep .OUT 0) (t.ep .OUT 0) .b0 (maxPkt0 s.par) s.par.ep0OutBuf
  else t.ep .OUT 0 = s.ep .OUT 0

/-- Both directions of EP0 are initialised with EP0's class, as `USB_REINIT` leaves them (R132). -/
def ep0Usable (s : State) : Prop :=
  ∀ d, (s.ep d 0).type ≠ typeDisabled ∧ (s.ep d 0).bufsize = s.par.ep0Size

/-- `RearmOut` can arm EP0 OUT: it is armed already, or no armed bank owns a byte of its buffer (R65, log entry 19). -/
def outBufFree (s : State) : Prop :=
  (s.ep .OUT 0).nack .b0 = true → ¬hardwareOwns s s.par.ep0OutBuf.toNat (maxPkt0 s.par)

/-! ## The families of instructions that claims quantify over -/

/-- The endpoint a command names, if it has an `EP` field (format C; R110). -/
def commandEp : Instr → Option (BitVec 4)
  | .epInit e _ _ _ _ | .epCancel e _ | .epArm e _ _ _ _ | .epIsdone e _ _ _ | .epClrdone e _ | .epIsready e _
  | .epIsempty e _ | .epNextbank e _ | .epStall e _ | .epRdstatus e _ _ | .epTac e _ _ | .epTas e _ _
  | .epRdcnt e _ _ | .epRdctrl e _ => some e
  | .gRd _ | .ifaClr _ | .ifbClr _ | .setAddr _ | .attach | .detach | .intEnable _ _ | .usbReinit | .ctlIn _ | .ctlOut
  | .ctlAck | .ctlStall | .bridgeCopy _ _ | .bufCopy _ _ | .ramWr _ _ | .ramRd _ | .nvmcmdWr _ | .busSetup _ _ _
  | .busOut _ _ _ | .busIn _ _ _ | .busSof | .busReset | .busSuspend | .busResume | .busCrcerr | .svcBusevent
  | .svcTrncompl | .evNewrequest | .evCtloutDone | .evCtlinDone _ => none

/-- The direction a command of §4.1 or `EP_STALL` needs initialised (`CV_UNINIT` of R252). -/
def needsInit : Instr → Option (BitVec 4 × Dir)
  | .epCancel e d | .epArm e d _ _ _ | .epIsdone e d _ _ | .epClrdone e d | .epIsready e d | .epIsempty e d
  | .epNextbank e d | .epStall e d => some (e, d)
  | .epInit _ _ _ _ _ | .epRdstatus _ _ _ | .epTac _ _ _ | .epTas _ _ _ | .epRdcnt _ _ _ | .epRdctrl _ _ | .gRd _
  | .ifaClr _ | .ifbClr _ | .setAddr _ | .attach | .detach | .intEnable _ _ | .usbReinit | .ctlIn _ | .ctlOut
  | .ctlAck | .ctlStall | .bridgeCopy _ _ | .bufCopy _ _ | .ramWr _ _ | .ramRd _ | .nvmcmdWr _ | .busSetup _ _ _
  | .busOut _ _ _ | .busIn _ _ _ | .busSof | .busReset | .busSuspend | .busResume | .busCrcerr | .svcBusevent
  | .svcTrncompl | .evNewrequest | .evCtloutDone | .evCtlinDone _ => none

/-! ## The invariant -/

/-- What every register group keeps (R22, R23, R24, R25, R63): reserved bits read 0, `TYPE` is never 3, a `CONTROL`
direction has no ping-pong, count and reference hold a value together, a count fits the buffer-size class, a buffer
lies inside `RAM`, and bank 1 of a single-bank direction holds nothing. -/
def EpRegs.Inv (p : Params) (x : EpRegs) : Prop :=
  x.ctrl.extractLsb' 6 2 = 0#2 ∧ x.status.extractLsb' 6 2 = 0#2 ∧
  x.type ≠ typeReserved ∧ (x.type = typeControl → x.pingpong = false) ∧
  (∀ b, (x.cnt b).isSome = (x.ptr b).isSome) ∧
  (∀ b n a, x.cnt b = some n → x.ptr b = some a → n.toNat ≤ maxPkt x.bufsize ∧ a.toNat + n.toNat ≤ ramSize p) ∧
  (x.pingpong = false → x.cnt .b1 = none)

/-- The latches of the handlers agree with `H.RUN` and `H.STEP` (R40, R41, R43). -/
def handlerInv (s : State) : Prop :=
  match s.hRun with
  | .none =>
    s.hStep = none ∧ s.hSo = none ∧ s.hSi = none ∧ s.hOutk = none ∧ s.hInk = none ∧ s.hFa = none
  | .hbus => ∃ n, s.hStep = some n ∧ n ≤ 2 ∧ (1 ≤ n → s.hFa ≠ none)
  | .htrn => ∃ n, s.hStep = some n ∧ n ≤ 7 ∧ (n ≤ 6 → (2 ≤ n → s.hSo ≠ none) ∧ (3 ≤ n → s.hOutk ≠ none) ∧
      (4 ≤ n → s.hSi ≠ none) ∧ (5 ≤ n → s.hInk ≠ none))

/-- The bytes `G.CTLSTATE` can hold (R34, R208). -/
def ctlStates : List Byte := [csIdle, csSetup, csDataIn, csDataOut, csNoData, csStatusOut, csStatusIn]

/-- A dispatch in progress ends with the check N3, `SetupReceived` stands only inside one, and one runs only in the
context of the transaction-complete handler, past its captures (R190, R191, R207 (2)). -/
def dispatchInv (s : State) : Prop :=
  (s.disp = [] ∨ s.disp = [.call] ∨ s.disp.getLast? = some .n3) ∧ (s.ctlstate = csSetup → s.disp ≠ []) ∧
  (s.disp ≠ [] → s.hRun = .htrn ∧ (s.hStep = some 6 ∨ s.hStep = some 7))

/-- The invariant of the machine. -/
def State.Inv (s : State) : Prop :=
  paramsLegal s.par ∧ memoryWf s.ram ∧ (∀ c ∈ s.ram, c.1 < ramSize s.par) ∧
  (∀ d e, (s.ep d e).Inv s.par) ∧ s.gctrl.extractLsb' 3 5 = 0#5 ∧ s.intflagsb.extractLsb' 2 6 = 0#6 ∧
  s.ctlstate ∈ ctlStates ∧ s.hSavedMode = none ∧ handlerInv s ∧ dispatchInv s

/-! ## Safe runs -/

/-- The step ends in a next state: no contract violation (R250, R252) and no refusal. -/
def StepSafe (s : State) : Prop := ∃ t, step s = .next t

/-- What is recorded of a step that faults: the code and the command word (R252). -/
def faultRecord (s : State) : Option (Nat × Option Word) :=
  match step s with
  | .fault f => some (f.code, s.turnWord)
  | .next _ | .refused _ => none

/-- The first `n` steps all end in a next state. -/
def RunSafe : Nat → State → Prop
  | 0, _ => True
  | n + 1, s => ∃ t, step s = .next t ∧ RunSafe n t

/-! ## Fair runs (R11, R170) -/

/-- An endless run: each state is the one the step before it answers. -/
def IsRun (r : Nat → State) : Prop := ∀ n, step (r n) = .next (r (n + 1))

/-- The request line of a handler (R44). -/
def requests (h : HRun) (s : State) : Prop :=
  match h with
  | .none => False
  | .hbus => s.irqBusev = true
  | .htrn => s.irqTrn = true

/-- The step from a state starts a handler (R170). -/
def startsIn (h : HRun) (s t : State) : Prop := s.hRun = .none ∧ t.hRun = h ∧ t.hStep = some 0

/-- Weak fairness of handler invocation (R11, R170, D28): a request that stays true is eventually served. DEDUCED (log
entry 24): where `H.RUN` never returns to `none`, whatever the reason, nothing is promised by this clause alone, since
a handler starts only while none runs; that a started handler takes its turns is `HandlersFinish`. -/
def WeaklyFair (r : Nat → State) : Prop :=
  ∀ h n, (∀ m, n ≤ m → requests h (r m)) → (∀ m, n ≤ m → ∃ k, m ≤ k ∧ (r k).hRun = .none) →
    ∃ m, n ≤ m ∧ startsIn h (r m) (r (m + 1))

/-- The synchronous wait of a dispatch polls in vain: EP0 IN has no completion to show (R103, R294). -/
def waitsForHost (s : State) : Prop :=
  (∃ rest, s.disp = .poll :: rest) ∧ ∀ b, (s.ep .IN 0).done b = false

/-- R170: "A handler never blocks and always finishes, except `WAIT_STATUS_DETACH` inside a dispatch" (R294, U33: a wait
the host never ends). DEDUCED (log entry 24) that this is a condition on runs, so that the schedule of a run the spec
admits gives a running handler its turns: R11 and D28 name fairness of starts as the only progress assumption. -/
def HandlersFinish (r : Nat → State) : Prop :=
  ∀ n, (∃ m, n ≤ m ∧ (r m).hRun = .none) ∨ ∃ m, n ≤ m ∧ ∀ k, m ≤ k → waitsForHost (r k)

/-- A run the spec admits: handlers that are asked for start, and handlers that started finish. -/
def FairRun (r : Nat → State) : Prop := IsRun r ∧ WeaklyFair r ∧ HandlersFinish r

end Sys2Proof.Machine
end

