-- ==== Sys2Proof/Certificates/Slice0/Obligations.lean ====
section
/-! DEFINITION. The statements for the provers. Each docstring names the rule of spec/ it formalises. A statement about
an instruction's result has as its conclusion that `exec` answers a next state, and says what that state holds and
what it leaves unchanged. `sameEps`, `sameRam`, `sameGlobalsBut`, `sameRest` and the other words of the frames are
those of Safety.lean. -/
section
open Sys2Proof Sys2Proof.Machine

/-! ## Reset and the invariant -/

/-- R281: the state after power-on reset, every piece of it to which the rule gives a value. -/
def Obligations.ResetState : Prop :=
  let s := State.reset
  (∀ d e, (s.ep d e).ctrl = 0x00 ∧ (s.ep d e).status = 0x03 ∧
    ∀ b, (s.ep d e).cnt b = none ∧ (s.ep d e).ptr b = none) ∧
  s.gctrl = 0x00 ∧ s.addr = 0 ∧ s.intflagsa = 0x00 ∧ s.intflagsb = 0x00 ∧ s.ctlstate = 0x00 ∧ s.setuprec = none ∧
  s.nvmcmd = s.par.nvmNoop ∧ (∀ a, s.ramByte a = none) ∧
  s.hRun = .none ∧ s.hStep = none ∧ s.hSo = none ∧ s.hSi = none ∧ s.hOutk = none ∧ s.hInk = none ∧ s.hFa = none ∧
  s.hSavedMode = none ∧ s.trace = [] ∧ s.irqBusev = false ∧ s.irqTrn = false

/-- The invariant holds after power-on reset. -/
def Obligations.ResetInv : Prop := State.reset.Inv

/-- Every step keeps the invariant, from every state that meets it (R22 to R25, R34, R40 to R43, R61, R190). Some of its
clauses are the model's: those on the steps of a dispatch and on the context it runs in (log entry 9), on the numbers
of `H.STEP` and the latches live at each (log entry 10), on `CTLSTATE` as a whole byte (log entry 11), and that
`H.SAVEDMODE` has no value between steps (log entry 12). -/
def Obligations.StepKeepsInv : Prop := ∀ s t, s.Inv → step s = .next t → t.Inv

/-! ## Encoding -/

/-- R85 to R95: decoding the bytes of a well-formed instruction gives it back, and leaves what follows. -/
def Obligations.DecodeEncode : Prop :=
  ∀ (i : Instr) (rest : List Byte), i.wf = true → decode (encode i ++ rest) = .ok i rest

/-- R90, R92: whatever decodes is the encoding of what it decodes to: no second word stands for an instruction. -/
def Obligations.EncodeDecode : Prop :=
  ∀ (bytes : List Byte) (i : Instr) (rest : List Byte), decode bytes = .ok i rest →
    i.wf = true ∧ bytes = encode i ++ rest

/-- R90: words written out from the opcode map, and the instructions they are (vectors E1, E4, E7, E13, E22, E25, E32,
E34, E38, E40, E51 of 95_test_vectors). -/
def Obligations.DecodeWords : Prop :=
  decodeTableWord 64 0x0120001E00000000 = some (.epInit 2 .OUT 2 3 true) ∧
  decodeTableWord 64 0x0318000800000200 = some (.epArm 1 .IN .b0 8 0x0200) ∧
  decodeTableWord 64 0x0424000000000000 = some (.epIsdone 2 .OUT .b1 false) ∧
  decodeTableWord 64 0x0A00001400000000 = some (.epRdstatus 0 .OUT 0x14) ∧
  decodeTableWord 64 0x1300007F00000000 = some (.setAddr 127) ∧
  decodeTableWord 64 0x1600000100000000 = some (.intEnable true false) ∧
  decodeTableWord 64 0x2400001200001000 = some (.bridgeCopy 18 0x1000) ∧
  decodeTableWord 64 0x300000AB00000200 = some (.ramWr 0xAB 0x0200) ∧
  decode [0x81, 0x20, 0x00, 0x03, 0x00, 0x00, 0x00, 0x00, 0x11, 0x22, 0x33] = .ok (.busOut 2 0 [0x11, 0x22, 0x33]) [] ∧
  decodeTableWord 64 0x8211000000000000 = some (.busIn 1 true 0) ∧
  decodeTableWord 64 0xC400000000000000 = some (.evCtlinDone false)

/-- R92, R97, R252: a word that is no instruction's, when its turn comes, is `CV_RESERVED`, and the code and the word are
what is recorded: a word of a reserved opcode of any format, and a word of a legal opcode with a bit set that must be
zero, that is any word but those the instructions are encoded by. The same holds of the SIE port for every word but
those of the bus events. That words of formats E and S fault as those of format C do is log entry 16, the SIE port's
other words log entry 18, and the ports and turns are the model's (log entries 1 and 2). -/
def Obligations.ReservedOpcodes : Prop :=
  ∀ (s : State) (w : Word) (rest : List Byte) (ts : List Turn),
    let illegal := step s = .fault .cvReserved ∧ faultRecord s = some (1, some w)
    (s.turns = .inject :: ts → s.cmd = wordBytes w ++ rest →
      let opc := (w.extractLsb' 56 8).toNat
      (opc = 0x00 ∨ opc = 0x0F ∨ (0x18 ≤ opc ∧ opc ≤ 0x1F) ∨ (0x26 ≤ opc ∧ opc ≤ 0x2F) ∨ (0x33 ≤ opc ∧ opc ≤ 0x7F) ∨
        (0x88 ≤ opc ∧ opc ≤ 0xBF) ∨ (0xC5 ≤ opc ∧ opc ≤ 0xFF) → illegal) ∧
      ((∀ i : Instr, i.wf = true → encodeWord i ≠ w) → illegal)) ∧
    (s.turns = .agent .host :: ts → s.bus = wordBytes w ++ rest →
      (∀ i : Instr, i.wf = true → isBusEvent i = true → encodeWord i ≠ w) → illegal)

/-! ## Steps -/

/-- R72, R73, R76, R170: a step runs the instruction whose bytes the port holds. An injected word and, while no
handler runs, FG's next word come from the command port; the host's next event comes from the SIE port whether or not
a handler runs. Around `exec` a step takes the word off its port, the turn off the schedule, and counts. The ports and
the schedule are the model's choice (log entries 1 and 2); that FG's turn passes while `H.RUN` is not `none`, also for
an injected dispatch, is log entries 8 and 9. -/
def Obligations.StepRunsDecoded : Prop :=
  ∀ (s : State) (i : Instr) (rest : List Byte) (ts : List Turn), i.wf = true →
    (s.turns = .inject :: ts → decode s.cmd = .ok i rest →
      step s = exec i { s with cmd := rest, turns := ts, tick := s.tick + 1 }) ∧
    (s.turns = .agent .fg :: ts → s.busy = false → decode s.cmd = .ok i rest →
      step s = exec i { s with cmd := rest, turns := ts, tick := s.tick + 1 }) ∧
    (s.turns = .agent .fg :: ts → s.busy = true → step s = .next { s with turns := ts, tick := s.tick + 1 }) ∧
    (s.turns = .agent .host :: ts → decode s.bus = .ok i rest → isBusEvent i = true →
      step s = exec i { s with bus := rest, turns := ts, tick := s.tick + 1 }) ∧
    (s.turns = .agent .handler :: ts → step s = outcomeOf (microStep { s with turns := ts, tick := s.tick + 1 }))

/-- R170, R44, R259, R260: at its turn a handler starts when its request line is true and none runs, which writes
`H.RUN` and `H.STEP` only; otherwise nothing happens. The turns are the model's choice (log entry 2); an injected
dispatch holds `H.RUN` while it lasts (log entries 8 and 9). -/
def Obligations.HandlersStart : Prop :=
  ∀ (s : State) (ts : List Turn) (a : Agent) (h : HRun), s.turns = .agent a :: ts →
    ((a = .startBus ∧ h = .hbus) ∨ (a = .startTrn ∧ h = .htrn)) →
    let irq := if h = .hbus then s.gctrl.getLsbD 1 = true ∧ s.intflagsa ≠ 0 else s.gctrl.getLsbD 2 = true ∧ s.intflagsb ≠ 0
    (irq ∧ s.hRun = .none →
      step s = .next { s with hRun := h, hStep := some 0, turns := ts, tick := s.tick + 1 }) ∧
    (¬(irq ∧ s.hRun = .none) → step s = .next { s with turns := ts, tick := s.tick + 1 })

/-- R170, R179, R252: while `H.RUN` is not `none` every command, handler start and engine event is `CV_CONTEXT`. That
this comes before the command's own checks is the model's choice (log entry 8). -/
def Obligations.ContextFault : Prop :=
  ∀ (i : Instr) (s : State), isBusEvent i = false → s.hRun ≠ .none → exec i s = .fault .cvContext

/-- R110: a command with an `EP` field at or above `N_EP` is `CV_BADEP`. -/
def Obligations.BadEndpoint : Prop :=
  ∀ (i : Instr) (e : BitVec 4) (s : State), s.busy = false → commandEp i = some e → s.par.nEp ≤ e.toNat →
    exec i s = .fault .cvBadep

/-- R252, R295: the commands of the endpoint model on a `DISABLED` direction are `CV_UNINIT`. -/
def Obligations.UninitFault : Prop :=
  ∀ (i : Instr) (e : BitVec 4) (d : Dir) (s : State), s.busy = false → needsInit i = some (e, d) →
    e.toNat < s.par.nEp → (s.ep d e).type = typeDisabled → exec i s = .fault .cvUninit

/-! ## Endpoint commands -/

/-- R111: `EP_INIT`. -/
def Obligations.EpInit : Prop :=
  ∀ (s : State) (e : BitVec 4) (d : Dir) (type bufsize : BitVec 2) (pingpong : Bool),
    s.busy = false → e.toNat < s.par.nEp →
    if type = 3 ∨ (type = 1 ∧ pingpong = true) then
      exec (.epInit e d type bufsize pingpong) s = .fault .cvReserved
    else ∃ t, exec (.epInit e d type bufsize pingpong) s = .next t ∧ t.out = .none ∧ onlyEp s t d e ∧
      (t.ep d e).type = type ∧ (t.ep d e).bufsize = bufsize ∧ (t.ep d e).pingpong = pingpong ∧
      (t.ep d e).stall = false ∧ (t.ep d e).ctrl.extractLsb' 6 2 = 0#2 ∧ (t.ep d e).status = 0x03 ∧
      ∀ b, (t.ep d e).cnt b = none ∧ (t.ep d e).ptr b = none

/-- R112, R115: `EP_CANCEL` sets both `NACK` flags, `EP_CLRDONE` clears both completion flags, and neither changes
anything else. -/
def Obligations.EpCancelClrdone : Prop :=
  ∀ (s : State) (e : BitVec 4) (d : Dir), s.busy = false → e.toNat < s.par.nEp →
    (s.ep d e).type ≠ typeDisabled →
    (∃ t, exec (.epCancel e d) s = .next t ∧ t.out = .none ∧ onlyEp s t d e ∧ onlyStatus (s.ep d e) (t.ep d e) ∧
      (∀ b, (t.ep d e).nack b = true) ∧ sameBitsBut (s.ep d e).status (t.ep d e).status [0, 1]) ∧
    (∃ t, exec (.epClrdone e d) s = .next t ∧ t.out = .none ∧ onlyEp s t d e ∧ onlyStatus (s.ep d e) (t.ep d e) ∧
      (∀ b, (t.ep d e).done b = false) ∧ sameBitsBut (s.ep d e).status (t.ep d e).status [2, 3])

/-- R113, R65, R121: `EP_ARM`, its checks in their order, and its effect on the bank. That a bank armed through `EP_TAC`
without a count or a reference owns nothing, and so lets the command complete, is log entry 19. -/
def Obligations.EpArm : Prop :=
  ∀ (s : State) (e : BitVec 4) (d : Dir) (b : Bank) (size : BitVec 16) (buf : Addr),
    s.busy = false → e.toNat < s.par.nEp →
    let r := exec (.epArm e d b size buf) s
    if (s.ep d e).type = typeDisabled then r = .fault .cvUninit
    else if b = .b1 ∧ (s.ep d e).pingpong = false then r = .fault .cvBadbank
    else if 8 <<< (s.ep d e).bufsize.toNat < size.toNat then r = .fault .cvSize
    else if 2 ^ s.par.addrW ≤ buf.toNat ∨ 2 ^ s.par.addrW < buf.toNat + size.toNat then r = .fault .cvRange
    else if (s.ep d e).nack b = false then r = .fault .cvDoublearm
    else (hardwareOwns s buf.toNat size.toNat → r = .fault .cvOwnership) ∧
      (¬hardwareOwns s buf.toNat size.toNat → ∃ t, r = .next t ∧ t.out = .none ∧ onlyEp s t d e ∧
        armedAs (s.ep d e) (t.ep d e) b size.toNat buf)

/-- R114: `EP_ISDONE`. -/
def Obligations.EpIsdone : Prop :=
  ∀ (s : State) (e : BitVec 4) (d : Dir) (b : Bank) (any : Bool),
    s.busy = false → e.toNat < s.par.nEp → (s.ep d e).type ≠ typeDisabled →
    let x := s.ep d e
    let r := exec (.epIsdone e d b any) s
    if any = false ∧ b = .b1 ∧ x.pingpong = false then r = .fault .cvBadbank
    else if any = true ∧ b = .b1 then r = .fault .cvReserved
    else ∃ t, r = .next t ∧ onlyOut s t ∧
      t.out = .value (if (any = true ∧ (x.done .b0 = true ∨ x.done .b1 = true)) ∨ (any = false ∧ x.done b = true)
        then 1 else 0)

/-- R116, R117, R118, R21: the three queries. `EP_ISREADY` is 1 when some usable bank is idle, `EP_ISEMPTY` when every
one is, and `EP_NEXTBANK` is the `BANK` flag, 0 whenever `PINGPONG` = 0 (also where `EP_TAS` set the flag: log entry
26). -/
def Obligations.EpQueries : Prop :=
  ∀ (s : State) (e : BitVec 4) (d : Dir), s.busy = false → e.toNat < s.par.nEp →
    (s.ep d e).type ≠ typeDisabled →
    let usable := fun b : Bank => b = .b0 ∨ (s.ep d e).pingpong = true
    (∃ t v, exec (.epIsready e d) s = .next t ∧ onlyOut s t ∧ t.out = .value v ∧
      (v = 1 ∨ v = 0) ∧ (v = 1 ↔ ∃ b, usable b ∧ (s.ep d e).nack b = true)) ∧
    (∃ t v, exec (.epIsempty e d) s = .next t ∧ onlyOut s t ∧ t.out = .value v ∧
      (v = 1 ∨ v = 0) ∧ (v = 1 ↔ ∀ b, usable b → (s.ep d e).nack b = true)) ∧
    (∃ t v, exec (.epNextbank e d) s = .next t ∧ onlyOut s t ∧ t.out = .value v ∧
      (v = 1 ∨ v = 0) ∧ (v = 1 ↔ (s.ep d e).pingpong = true ∧ (s.ep d e).status.getLsbD 5 = true))

/-- R119: `EP_STALL` sets the halt condition and changes nothing else. -/
def Obligations.EpStall : Prop :=
  ∀ (s : State) (e : BitVec 4) (d : Dir), s.busy = false → e.toNat < s.par.nEp →
    (s.ep d e).type ≠ typeDisabled →
    ∃ t, exec (.epStall e d) s = .next t ∧ t.out = .none ∧ onlyEp s t d e ∧
      (t.ep d e).stall = true ∧ sameBitsBut (s.ep d e).ctrl (t.ep d e).ctrl [5] ∧
      (t.ep d e).status = (s.ep d e).status ∧
      ∀ b, (t.ep d e).cnt b = (s.ep d e).cnt b ∧ (t.ep d e).ptr b = (s.ep d e).ptr b

/-- R120, R124: `EP_RDSTATUS` returns the masked flags, `EP_RDCTRL` the configuration, on any direction; nothing is
written. -/
def Obligations.EpReads : Prop :=
  ∀ (s : State) (e : BitVec 4) (d : Dir) (mask : Byte), s.busy = false → e.toNat < s.par.nEp →
    (∃ t, exec (.epRdstatus e d mask) s = .next t ∧ onlyOut s t ∧
      t.out = .value (((s.ep d e).status &&& mask).setWidth 64)) ∧
    (∃ t, exec (.epRdctrl e d) s = .next t ∧ onlyOut s t ∧ t.out = .value ((s.ep d e).ctrl.setWidth 64))

/-- R121, R122: `EP_TAC` and `EP_TAS` return the old flags and clear, respectively set, the masked ones of bits 5:0.
-/
def Obligations.EpTestAndModify : Prop :=
  ∀ (s : State) (e : BitVec 4) (d : Dir) (mask : Byte), s.busy = false → e.toNat < s.par.nEp →
    (∃ t, exec (.epTac e d mask) s = .next t ∧ onlyEp s t d e ∧ onlyStatus (s.ep d e) (t.ep d e) ∧
      t.out = .value ((s.ep d e).status.setWidth 64) ∧
      ∀ k, (t.ep d e).status.getLsbD k =
        ((s.ep d e).status.getLsbD k && !(mask.getLsbD k && decide (k < 6)))) ∧
    (∃ t, exec (.epTas e d mask) s = .next t ∧ onlyEp s t d e ∧ onlyStatus (s.ep d e) (t.ep d e) ∧
      t.out = .value ((s.ep d e).status.setWidth 64) ∧
      ∀ k, (t.ep d e).status.getLsbD k =
        ((s.ep d e).status.getLsbD k || (mask.getLsbD k && decide (k < 6))))

/-- R123: `EP_RDCNT`. -/
def Obligations.EpRdcnt : Prop :=
  ∀ (s : State) (e : BitVec 4) (d : Dir) (b : Bank), s.busy = false → e.toNat < s.par.nEp →
    let r := exec (.epRdcnt e d b) s
    if b = .b1 ∧ (s.ep d e).pingpong = false then r = .fault .cvBadbank
    else ((s.ep d e).cnt b = none → r = .fault .cvNovalue) ∧
      ∀ n, (s.ep d e).cnt b = some n → ∃ t, r = .next t ∧ onlyOut s t ∧ t.out = .value (n.setWidth 64)

/-! ## Global and harness commands -/

/-- R125, R37: `G_RD` returns the register numbered, `CV_RESERVED` from 7 on, `CV_NOVALUE` for a setup record with no
value. -/
def Obligations.GlobalRead : Prop :=
  ∀ (s : State) (reg : BitVec 4), s.busy = false →
    let r := exec (.gRd reg) s
    let gives := fun v : Word => ∃ t, r = .next t ∧ onlyOut s t ∧ t.out = .value v
    (reg.toNat = 0 → gives (s.gctrl.setWidth 64)) ∧ (reg.toNat = 1 → gives (s.addr.setWidth 64)) ∧
    (reg.toNat = 2 → gives (s.intflagsa.setWidth 64)) ∧ (reg.toNat = 3 → gives (s.intflagsb.setWidth 64)) ∧
    (reg.toNat = 4 → gives (s.ctlstate.setWidth 64)) ∧
    (reg.toNat = 5 → s.setuprec = none → r = .fault .cvNovalue) ∧
    (reg.toNat = 5 → ∀ v, s.setuprec = some v → gives v) ∧
    (reg.toNat = 6 → gives (s.nvmcmd.setWidth 64)) ∧ (7 ≤ reg.toNat → r = .fault .cvReserved)

/-- R126, R127: `IFA_CLR` and `IFB_CLR` clear the masked flags of their register, of G3 only bits 1:0. -/
def Obligations.FlagClears : Prop :=
  ∀ (s : State) (mask : Byte), s.busy = false →
    (∃ t, exec (.ifaClr mask) s = .next t ∧ t.out = .none ∧ onlyGlobals s t [2] ∧
      ∀ k, t.intflagsa.getLsbD k = (s.intflagsa.getLsbD k && !mask.getLsbD k)) ∧
    (∃ t, exec (.ifbClr mask) s = .next t ∧ t.out = .none ∧ onlyGlobals s t [3] ∧
      ∀ k, t.intflagsb.getLsbD k = (s.intflagsb.getLsbD k && !(mask.getLsbD k && decide (k < 2))))

/-- R128, R129, R130, R131, R233: `SET_ADDR`, `ATTACH`, `DETACH`, `INT_ENABLE` and `NVMCMD_WR`, each with the bits it
writes and every other one unchanged. -/
def Obligations.GlobalWrites : Prop :=
  ∀ (s : State) (a : BitVec 7) (v : Byte) (busevie trnie : Bool), s.busy = false →
    (∃ t, exec (.setAddr a) s = .next t ∧ t.out = .none ∧ onlyGlobals s t [1] ∧ t.addr = a) ∧
    (∃ t, exec .attach s = .next t ∧ t.out = .none ∧ onlyGlobals s t [0] ∧ t.gctrl.getLsbD 0 = true ∧
      sameBitsBut s.gctrl t.gctrl [0]) ∧
    (∃ t, exec .detach s = .next t ∧ t.out = .none ∧ onlyGlobals s t [0] ∧ t.gctrl.getLsbD 0 = false ∧
      sameBitsBut s.gctrl t.gctrl [0]) ∧
    (∃ t, exec (.intEnable busevie trnie) s = .next t ∧ t.out = .none ∧ onlyGlobals s t [0] ∧
      t.gctrl.getLsbD 1 = busevie ∧ t.gctrl.getLsbD 2 = trnie ∧ sameBitsBut s.gctrl t.gctrl [1, 2]) ∧
    (∃ t, exec (.nvmcmdWr v) s = .next t ∧ t.out = .none ∧ onlyGlobals s t [6] ∧ t.nvmcmd = v)

/-- R132, R283, R284: `USB_REINIT`: EP0 initialised, its OUT buffer armed, every other direction off, address, request
flags and engine state 0; the rest survives. -/
def Obligations.UsbReinit : Prop :=
  ∀ s : State, s.busy = false → paramsLegal s.par →
    ∃ t, exec .usbReinit s = .next t ∧ t.out = .none ∧
      (∀ d, (t.ep d 0).type = typeControl ∧ (t.ep d 0).bufsize = s.par.ep0Size ∧ (t.ep d 0).pingpong = false ∧
        (t.ep d 0).stall = false ∧ (t.ep d 0).ctrl.extractLsb' 6 2 = 0#2) ∧
      (t.ep .OUT 0).status = 0x02 ∧ (∃ n, (t.ep .OUT 0).cnt .b0 = some n ∧ n.toNat = maxPkt0 s.par) ∧
      (t.ep .OUT 0).ptr .b0 = some s.par.ep0OutBuf ∧ (t.ep .OUT 0).cnt .b1 = none ∧ (t.ep .OUT 0).ptr .b1 = none ∧
      (t.ep .IN 0).status = 0x03 ∧ (∀ b, (t.ep .IN 0).cnt b = none ∧ (t.ep .IN 0).ptr b = none) ∧
      (∀ d e, e ≠ 0 → e.toNat < s.par.nEp → (t.ep d e).ctrl = 0x00 ∧ (t.ep d e).status = 0x03 ∧
        ∀ b, (t.ep d e).cnt b = none ∧ (t.ep d e).ptr b = none) ∧
      t.addr = 0 ∧ t.intflagsb = 0x00 ∧ t.ctlstate = 0x00 ∧ sameGlobalsBut s t [1, 3, 4] ∧ sameRam s t ∧ sameRest s t

/-- R133, R134, R65, R121: firmware's own store and load of one byte. That a bank armed through `EP_TAC` without a count
or a reference owns nothing, and so lets both complete, is log entry 19. -/
def Obligations.RamAccess : Prop :=
  ∀ (s : State) (v : Byte) (a : Addr), s.busy = false →
    let w := exec (.ramWr v a) s
    let r := exec (.ramRd a) s
    if 2 ^ s.par.addrW ≤ a.toNat then w = .fault .cvRange ∧ r = .fault .cvRange
    else (hardwareOwns s a.toNat 1 → w = .fault .cvOwnership ∧ r = .fault .cvOwnership) ∧
      (¬hardwareOwns s a.toNat 1 →
        (∃ t, w = .next t ∧ t.out = .none ∧ t.ramByte a.toNat = some v ∧ sameRamBut s t a.toNat 1 ∧ sameEps s t ∧
          sameGlobalsBut s t [] ∧ sameRest s t) ∧
        (s.ramByte a.toNat = none → r = .fault .cvNovalue) ∧
        ∀ x, s.ramByte a.toNat = some x → ∃ t, r = .next t ∧ onlyOut s t ∧ t.out = .value (x.setWidth 64))

/-! ## The bridge -/

/-- R231, R234, R65: `BRIDGE_COPY`: its checks in their order; the bytes of `PMEM` land in the EP0 IN buffer, and `NVMCMD`
(G6) is after the command what it was before. That EP0 IN armed through `EP_TAC` without a count or a reference owns
nothing, and so does not block, is log entry 19; that `H.SAVEDMODE` holds nothing before the command is log entry 12.
-/
def Obligations.BridgeCopy : Prop :=
  ∀ (s : State) (len : BitVec 16) (src : Addr), s.busy = false → paramsLegal s.par → s.hSavedMode = none →
    let r := exec (.bridgeCopy len src) s
    let dst := s.par.ep0InBuf.toNat
    let blocked := ∃ x, (dst ≤ x ∧ x < dst + len.toNat) ∧ bankOwns s .IN 0 .b0 x
    if maxPkt0 s.par < len.toNat then r = .fault .cvOverrun
    else if 2 ^ s.par.paddrW ≤ src.toNat ∨ 2 ^ s.par.paddrW < src.toNat + len.toNat then r = .fault .cvRange
    else (blocked → r = .fault .cvOwnership) ∧
      (¬blocked → ∃ t, r = .next t ∧ t.out = .none ∧
        (∀ i, i < len.toNat → t.ramByte (dst + i) = some (s.pmemByte (src.toNat + i))) ∧
        sameRamBut s t dst len.toNat ∧ t.nvmcmd = s.nvmcmd ∧ sameEps s t ∧ sameGlobalsBut s t [] ∧ sameRest s t)

/-- R232, R65: `BUF_COPY`: its checks in their order, and the copy as if through a temporary. That a bank armed through
`EP_TAC` without a count or a reference owns nothing, and so does not block, is log entry 19. -/
def Obligations.BufCopy : Prop :=
  ∀ (s : State) (len : BitVec 16) (src : Addr), s.busy = false → paramsLegal s.par →
    let r := exec (.bufCopy len src) s
    let dst := s.par.ep0InBuf.toNat
    let blocked := hardwareOwns s src.toNat len.toNat ∨ hardwareOwns s dst len.toNat
    if maxPkt0 s.par < len.toNat then r = .fault .cvOverrun
    else if 2 ^ s.par.addrW ≤ src.toNat ∨ 2 ^ s.par.addrW < src.toNat + len.toNat then r = .fault .cvRange
    else (blocked → r = .fault .cvOwnership) ∧
      (¬blocked →
        ((∃ i, i < len.toNat ∧ s.ramByte (src.toNat + i) = none) → r = .fault .cvNovalue) ∧
        ((∀ i, i < len.toNat → s.ramByte (src.toNat + i) ≠ none) → ∃ t, r = .next t ∧ t.out = .none ∧
          (∀ i, i < len.toNat → t.ramByte (dst + i) = s.ramByte (src.toNat + i)) ∧
          sameRamBut s t dst len.toNat ∧ sameEps s t ∧ sameGlobalsBut s t [] ∧ sameRest s t))

/-! ## The terminal commands and the engine's events -/

/-- R200, R205, R208, R113: `CTL_IN`, its own checks, those of the arming of EP0 IN and those of `RearmOut`. That the
whole byte of `CTLSTATE` is tested, as the row 'any other byte' of R208 has it, is log entry 11; that a bank armed
through `EP_TAC` without a count or a reference owns nothing is log entry 19. -/
def Obligations.CtlIn : Prop :=
  ∀ (s : State) (size : BitVec 16), s.busy = false →
    let r := exec (.ctlIn size) s
    if s.ctlstate ≠ 0x01 then r = .fault .cvDispatch
    else if 8 <<< s.par.ep0Size.toNat < size.toNat then r = .fault .cvSize
    else paramsLegal s.par → ep0Usable s →
      ((s.ep .IN 0).nack .b0 = false → r = .fault .cvDoublearm) ∧
      ((s.ep .IN 0).nack .b0 = true → hardwareOwns s s.par.ep0InBuf.toNat size.toNat → r = .fault .cvOwnership) ∧
      ((s.ep .IN 0).nack .b0 = true → ¬hardwareOwns s s.par.ep0InBuf.toNat size.toNat → ¬outBufFree s →
        r = .fault .cvOwnership) ∧
      ((s.ep .IN 0).nack .b0 = true → ¬hardwareOwns s s.par.ep0InBuf.toNat size.toNat → outBufFree s →
        ∃ t, r = .next t ∧ t.out = .none ∧ armedAs (s.ep .IN 0) (t.ep .IN 0) .b0 size.toNat s.par.ep0InBuf ∧
          rearmed s t ∧ t.ctlstate = 0x02 ∧ sameEpsBut0 s t ∧ sameRam s t ∧ sameGlobalsBut s t [4] ∧ sameRest s t)

/-- R201, R202, R205, R208, R113: `CTL_OUT` and `CTL_ACK`, their own checks, those of the arming of EP0 IN and those of
`RearmOut`. That the whole byte of `CTLSTATE` is tested, as the row 'any other byte' of R208 has it, is log entry 11;
that a bank armed through `EP_TAC` without a count or a reference owns nothing is log entry 19. -/
def Obligations.CtlOutAck : Prop :=
  ∀ s : State, s.busy = false →
    if s.ctlstate ≠ 0x01 then exec .ctlOut s = .fault .cvDispatch ∧ exec .ctlAck s = .fault .cvDispatch
    else paramsLegal s.par → ep0Usable s →
      (¬outBufFree s → exec .ctlOut s = .fault .cvOwnership) ∧
      (outBufFree s → ∃ t, exec .ctlOut s = .next t ∧ t.out = .none ∧ t.ep .IN 0 = s.ep .IN 0 ∧ rearmed s t ∧
        t.ctlstate = 0x03 ∧ sameEpsBut0 s t ∧ sameRam s t ∧ sameGlobalsBut s t [4] ∧ sameRest s t) ∧
      ((s.ep .IN 0).nack .b0 = false → exec .ctlAck s = .fault .cvDoublearm) ∧
      ((s.ep .IN 0).nack .b0 = true → ¬outBufFree s → exec .ctlAck s = .fault .cvOwnership) ∧
      ((s.ep .IN 0).nack .b0 = true → outBufFree s → ∃ t, exec .ctlAck s = .next t ∧ t.out = .none ∧
        armedAs (s.ep .IN 0) (t.ep .IN 0) .b0 0 s.par.ep0InBuf ∧ rearmed s t ∧ t.ctlstate = 0x0D ∧
        sameEpsBut0 s t ∧ sameRam s t ∧ sameGlobalsBut s t [4] ∧ sameRest s t)

/-- R203, R204, R205, R208, R113: `CTL_STALL` cancels and halts both directions of EP0, arms EP0 OUT for the next SETUP
and returns to `Idle`; where a bank of another endpoint owns a byte of the OUT buffer, `RearmOut` is `CV_OWNERSHIP`.
That the whole byte of `CTLSTATE` is tested, as the row 'any other byte' of R208 has it, is log entry 11; that a bank
armed through `EP_TAC` without a count or a reference owns nothing is log entry 19. -/
def Obligations.CtlStall : Prop :=
  ∀ s : State, s.busy = false →
    let others := ∃ d e b x, e ≠ 0 ∧ (s.par.ep0OutBuf.toNat ≤ x ∧ x < s.par.ep0OutBuf.toNat + maxPkt0 s.par) ∧
      bankOwns s d e b x
    if s.ctlstate ≠ 0x01 then exec .ctlStall s = .fault .cvDispatch
    else paramsLegal s.par → ep0Usable s → (others → exec .ctlStall s = .fault .cvOwnership) ∧
      (¬others → ∃ t, exec .ctlStall s = .next t ∧ t.out = .none ∧
        (∀ d, (t.ep d 0).stall = true ∧ sameBitsBut (s.ep d 0).ctrl (t.ep d 0).ctrl [5]) ∧
        (∀ b, (t.ep .IN 0).nack b = true ∧ (t.ep .IN 0).cnt b = (s.ep .IN 0).cnt b ∧
          (t.ep .IN 0).ptr b = (s.ep .IN 0).ptr b) ∧
        sameBitsBut (s.ep .IN 0).status (t.ep .IN 0).status [0, 1] ∧
        (t.ep .OUT 0).nack .b0 = false ∧ (t.ep .OUT 0).done .b0 = false ∧ (t.ep .OUT 0).nack .b1 = true ∧
        sameBitsBut (s.ep .OUT 0).status (t.ep .OUT 0).status [0, 1, 2] ∧
        (t.ep .OUT 0).ptr .b0 = some s.par.ep0OutBuf ∧
        (∃ n, (t.ep .OUT 0).cnt .b0 = some n ∧ n.toNat = maxPkt0 s.par) ∧
        (t.ep .OUT 0).cnt .b1 = (s.ep .OUT 0).cnt .b1 ∧ (t.ep .OUT 0).ptr .b1 = (s.ep .OUT 0).ptr .b1 ∧
        t.ctlstate = 0x00 ∧ sameEpsBut0 s t ∧ sameRam s t ∧ sameGlobalsBut s t [4] ∧ sameRest s t)

/-- R191, N1: `EV_NEWREQUEST` copies the eight bytes of the OUT buffer to the setup record, enters `SetupReceived`,
notes the request and leaves the call to follow; a byte with no value is `CV_NOVALUE`. That the rest of the dispatch
follows in steps of its own, in the context of the transaction-complete handler, is the model's (log entries 9, 10).
-/
def Obligations.NewRequest : Prop :=
  ∀ s : State, s.busy = false → paramsLegal s.par →
    let byte := fun k => s.ramByte (s.par.ep0OutBuf.toNat + k)
    ((∃ k, k < 8 ∧ byte k = none) → exec .evNewrequest s = .fault .cvNovalue) ∧
    ((∀ k, k < 8 → byte k ≠ none) → ∃ t r, exec .evNewrequest s = .next t ∧ t.out = .none ∧
      t.setuprec = some r ∧ (∀ k, k < 8 → byte k = some (r.extractLsb' (8 * k) 8)) ∧ t.ctlstate = 0x01 ∧
      t.trace = s.trace ++ [.newReq r] ∧ t.disp = [.call] ∧ t.hRun = .htrn ∧ t.hStep = some 7 ∧ sameLatches s t ∧
      sameEps s t ∧ sameRam s t ∧ sameGlobalsBut s t [4, 5] ∧ sameLaunch s t ∧ samePorts s t)

/-- R196, R205, R208, R113: `EV_CTLOUT_DONE` in every state of the engine, with the checks of its arming of EP0 IN and of
`RearmOut`, before which it has cancelled EP0 IN in `DataInStage`. A count with no value is `CV_NOVALUE` (R47). That
the whole byte of `CTLSTATE` is tested is log entry 11; that a bank armed through `EP_TAC` without a count or a
reference owns nothing is log entry 19. -/
def Obligations.CtlOutDone : Prop :=
  ∀ s : State, s.busy = false →
    let r := exec .evCtloutDone s
    let free := (s.ep .OUT 0).nack .b0 = true → ¬∃ d e b x, ¬(s.ctlstate = 0x02 ∧ d = .IN ∧ e = 0) ∧
      (s.par.ep0OutBuf.toNat ≤ x ∧ x < s.par.ep0OutBuf.toNat + maxPkt0 s.par) ∧ bankOwns s d e b x
    ((s.ep .OUT 0).cnt .b0 = none → r = .fault .cvNovalue) ∧
    ∀ n, (s.ep .OUT 0).cnt .b0 = some n → paramsLegal s.par → ep0Usable s →
      (s.ctlstate = 0x03 → (s.ep .IN 0).nack .b0 = false → r = .fault .cvDoublearm) ∧
      ((s.ctlstate = 0x03 → (s.ep .IN 0).nack .b0 = true) → ¬free → r = .fault .cvOwnership) ∧
      ((s.ctlstate = 0x03 → (s.ep .IN 0).nack .b0 = true) → free →
        ∃ t, r = .next t ∧ t.out = .none ∧ t.trace = s.trace ++ [.ctlOut n] ∧ rearmed s t ∧
          (if s.ctlstate = 0x03 then
             armedAs (s.ep .IN 0) (t.ep .IN 0) .b0 0 s.par.ep0InBuf ∧ t.ctlstate = 0x0D
           else if s.ctlstate = 0x02 then
             onlyStatus (s.ep .IN 0) (t.ep .IN 0) ∧ (∀ b, (t.ep .IN 0).nack b = true) ∧
             sameBitsBut (s.ep .IN 0).status (t.ep .IN 0).status [0, 1] ∧ t.ctlstate = 0x00
           else if s.ctlstate = 0x05 then t.ep .IN 0 = s.ep .IN 0 ∧ t.ctlstate = 0x00
           else t.ep .IN 0 = s.ep .IN 0 ∧ t.ctlstate = s.ctlstate) ∧
          sameEpsBut0 s t ∧ sameRam s t ∧ sameGlobalsBut s t [4] ∧ sameLaunch s t ∧ sameHidden s t ∧ samePorts s t)

/-- R197: `EV_CTLIN_DONE` in every state of the engine. -/
def Obligations.CtlInDone : Prop :=
  ∀ (s : State) (stale : Bool), s.busy = false →
    ∃ t, exec (.evCtlinDone stale) s = .next t ∧ t.out = .none ∧ t.trace = s.trace ++ [.ctlIn stale] ∧
      t.ctlstate = (if stale = true then s.ctlstate else if s.ctlstate = 0x02 then 0x05
        else if s.ctlstate = 0x0D then 0x00 else s.ctlstate) ∧
      sameEps s t ∧ sameRam s t ∧ sameGlobalsBut s t [4] ∧ sameLaunch s t ∧ sameHidden s t ∧ samePorts s t

/-- R208: the transition table of `G.CTLSTATE`, every byte before and every event. The whole byte is tested (log entry
11). -/
def Obligations.CtlTable : Prop :=
  ∀ s : State, s.busy = false →
    (∀ t, exec .evNewrequest s = .next t → t.ctlstate = 0x01) ∧
    (∀ i, (∃ n, i = .ctlIn n) ∨ i = .ctlOut ∨ i = .ctlAck ∨ i = .ctlStall → s.ctlstate ≠ 0x01 →
      exec i s = .fault .cvDispatch) ∧
    (∀ t n, exec (.ctlIn n) s = .next t → t.ctlstate = 0x02) ∧
    (∀ t, exec .ctlOut s = .next t → t.ctlstate = 0x03) ∧
    (∀ t, exec .ctlAck s = .next t → t.ctlstate = 0x0D) ∧
    (∀ t, exec .ctlStall s = .next t → t.ctlstate = 0x00) ∧
    (∀ t, exec .evCtloutDone s = .next t → t.ctlstate = (if s.ctlstate = 0x02 then 0x00
      else if s.ctlstate = 0x03 then 0x0D else if s.ctlstate = 0x05 then 0x00 else s.ctlstate)) ∧
    (∀ t, exec (.evCtlinDone false) s = .next t → t.ctlstate = (if s.ctlstate = 0x02 then 0x05
      else if s.ctlstate = 0x0D then 0x00 else s.ctlstate)) ∧
    (∀ t, exec (.evCtlinDone true) s = .next t → t.ctlstate = s.ctlstate) ∧
    (∀ t, exec .usbReinit s = .next t → t.ctlstate = 0x00)

/-! ## Bus events -/

/-- R140: the events with an address are ignored when detached, at another address, at no such endpoint or at a
`DISABLED` direction: response `NONE` and no change at all; the other events when detached, and only then: attached,
each sets its flag. -/
def Obligations.TokenFilter : Prop :=
  ∀ (s : State) (e : BitVec 4) (a : BitVec 7) (payload : List Byte) (hack : Bool),
    let ignored := fun i => exec i s = .next { s with out := .response .none }
    let away := s.gctrl.getLsbD 0 = false ∨ a ≠ s.addr ∨ s.par.nEp ≤ e.toNat
    (away ∨ (s.ep .OUT e).type = typeDisabled → ignored (.busSetup e a payload) ∧ ignored (.busOut e a payload)) ∧
    (away ∨ (s.ep .IN e).type = typeDisabled → ignored (.busIn e hack a)) ∧
    (s.gctrl.getLsbD 0 = false →
      ignored .busSof ∧ ignored .busReset ∧ ignored .busSuspend ∧ ignored .busResume ∧ ignored .busCrcerr) ∧
    (s.gctrl.getLsbD 0 = true → ∀ i bit, (i = .busSof ∧ bit = 0) ∨ (i = .busCrcerr ∧ bit = 1) ∨
        (i = .busSuspend ∧ bit = 5) ∨ (i = .busResume ∧ bit = 6) ∨ (i = .busReset ∧ bit = 7) →
      ∃ t, exec i s = .next t ∧ t.intflagsa.getLsbD bit = true)

/-- R143, R152, R267: a `BUS_SETUP` that passes the filter, its tests in their order and its effect when accepted. That
the other bytes of the EP0 buffers are among the `RAM` that stays as it was, where R38 has their content valid for the
current transfer only, is the model's (log entry 27). -/
def Obligations.BusSetup : Prop :=
  ∀ (s : State) (e : BitVec 4) (payload : List Byte), s.gctrl.getLsbD 0 = true → e.toNat < s.par.nEp →
    (s.ep .OUT e).type ≠ typeDisabled →
    let o := s.ep .OUT e
    let r := exec (.busSetup e s.addr payload) s
    let overflow := s.intflagsa ||| 0x08
    if o.type ≠ typeControl ∨ payload.length ≠ 8 then r = .next { s with out := .response .none }
    else if o.nack .b0 = true then r = .next { s with intflagsa := overflow, out := .response .nak }
    else (o.cnt .b0 = none → r = .fault .cvNovalue) ∧
      ∀ c, o.cnt .b0 = some c →
        if c.toNat < 8 then r = .next { s with intflagsa := overflow, out := .response .none }
        else (o.ptr .b0 = none → r = .fault .cvNovalue) ∧
          ∀ p, o.ptr .b0 = some p → p.toNat + 8 ≤ 2 ^ s.par.addrW →
            ∃ t, r = .next t ∧ t.out = .response .ack ∧
              (∀ k, k < 8 → t.ramByte (p.toNat + k) = payload[k]?) ∧ sameRamBut s t p.toNat 8 ∧
              (∃ n, (t.ep .OUT e).cnt .b0 = some n ∧ n.toNat = 8) ∧
              (t.ep .OUT e).cnt .b1 = o.cnt .b1 ∧ (∀ b, (t.ep .OUT e).ptr b = o.ptr b) ∧
              (t.ep .OUT e).nack .b0 = true ∧ (t.ep .OUT e).setup = true ∧
              (t.ep .OUT e).done .b0 = (o.done .b0 || s.par.setupSetsDone0) ∧
              sameBitsBut o.status (t.ep .OUT e).status [0, 2, 4] ∧
              (∀ d, (t.ep d e).stall = false ∧ sameBitsBut (s.ep d e).ctrl (t.ep d e).ctrl [5]) ∧
              (t.ep .IN e).nack .b0 = true ∧ sameBitsBut (s.ep .IN e).status (t.ep .IN e).status [0] ∧
              (∀ b, (t.ep .IN e).cnt b = (s.ep .IN e).cnt b ∧ (t.ep .IN e).ptr b = (s.ep .IN e).ptr b) ∧
              (∀ d e', e' ≠ e → t.ep d e' = s.ep d e') ∧ t.intflagsb = s.intflagsb ||| 0x02 ∧
              sameGlobalsBut s t [3] ∧ sameRest s t

/-- R144, R141, R142, R152: a `BUS_OUT` that passes the filter: the selected bank, the tests in their order, and the
effect when accepted. A single-bank direction is served from bank 0 whatever `BANK` holds (log entry 26). -/
def Obligations.BusOut : Prop :=
  ∀ (s : State) (e : BitVec 4) (payload : List Byte), s.gctrl.getLsbD 0 = true → e.toNat < s.par.nEp →
    (s.ep .OUT e).type ≠ typeDisabled →
    let o := s.ep .OUT e
    let b : Bank := if o.pingpong = true ∧ o.status.getLsbD 5 = true then .b1 else .b0
    let r := exec (.busOut e s.addr payload) s
    if o.stall = true then r = .next { s with intflagsa := s.intflagsa ||| 0x10, out := .response .stall }
    else if o.nack b = true then r = .next { s with intflagsa := s.intflagsa ||| 0x08, out := .response .nak }
    else (o.cnt b = none → r = .fault .cvNovalue) ∧
      ∀ c, o.cnt b = some c →
        if c.toNat < payload.length then
          r = .next { s with intflagsa := s.intflagsa ||| 0x08, out := .response .none }
        else (o.ptr b = none → r = .fault .cvNovalue) ∧
          ∀ p, o.ptr b = some p → p.toNat + payload.length ≤ 2 ^ s.par.addrW →
            ∃ t, r = .next t ∧ t.out = .response .ack ∧
              (∀ k, k < payload.length → t.ramByte (p.toNat + k) = payload[k]?) ∧
              sameRamBut s t p.toNat payload.length ∧
              (∃ n, (t.ep .OUT e).cnt b = some n ∧ n.toNat = payload.length) ∧
              (∀ b', b' ≠ b → (t.ep .OUT e).cnt b' = o.cnt b') ∧ (∀ b', (t.ep .OUT e).ptr b' = o.ptr b') ∧
              (t.ep .OUT e).ctrl = o.ctrl ∧ completedStatus o (t.ep .OUT e) b ∧ sameEpsBut s t .OUT e ∧
              t.intflagsb = s.intflagsb ||| 0x01 ∧ sameGlobalsBut s t [3] ∧ sameRest s t

/-- R145, R141, R142, R152: a `BUS_IN` that passes the filter: the selected bank, the tests in their order, the data,
and the completion when the host acknowledges. A single-bank direction is served from bank 0 whatever `BANK` holds
(log entry 26). -/
def Obligations.BusIn : Prop :=
  ∀ (s : State) (e : BitVec 4) (hack : Bool), s.gctrl.getLsbD 0 = true → e.toNat < s.par.nEp →
    (s.ep .IN e).type ≠ typeDisabled →
    let i := s.ep .IN e
    let b : Bank := if i.pingpong = true ∧ i.status.getLsbD 5 = true then .b1 else .b0
    let r := exec (.busIn e hack s.addr) s
    if i.stall = true then r = .next { s with intflagsa := s.intflagsa ||| 0x10, out := .response .stall }
    else if i.nack b = true then r = .next { s with intflagsa := s.intflagsa ||| 0x04, out := .response .nak }
    else (i.cnt b = none ∨ i.ptr b = none → r = .fault .cvNovalue) ∧
      ∀ n p, i.cnt b = some n → i.ptr b = some p → p.toNat + n.toNat ≤ 2 ^ s.par.addrW →
        ((∃ k, k < n.toNat ∧ s.ramByte (p.toNat + k) = none) → r = .fault .cvNovalue) ∧
        ((∀ k, k < n.toNat → s.ramByte (p.toNat + k) ≠ none) →
          ∃ t bytes, r = .next t ∧ t.out = .response (.data bytes) ∧ bytes.length = n.toNat ∧
            (∀ k, k < n.toNat → s.ramByte (p.toNat + k) = bytes[k]?) ∧
            onlyStatus i (t.ep .IN e) ∧ sameEpsBut s t .IN e ∧ sameRam s t ∧ sameRest s t ∧
            (if hack = true then
               completedStatus i (t.ep .IN e) b ∧ t.intflagsb = s.intflagsb ||| 0x01 ∧ sameGlobalsBut s t [3]
             else t.ep .IN e = i ∧ sameGlobalsBut s t []))

/-- R146 to R150: the five bus conditions set one flag of `INTFLAGSA` while attached, and change nothing else. -/
def Obligations.BusConditions : Prop :=
  ∀ s : State, s.gctrl.getLsbD 0 = true →
    ∀ i bit, (i = .busSof ∧ bit = 0) ∨ (i = .busCrcerr ∧ bit = 1) ∨ (i = .busSuspend ∧ bit = 5) ∨
        (i = .busResume ∧ bit = 6) ∨ (i = .busReset ∧ bit = 7) →
      ∃ t, exec i s = .next t ∧ t.out = .response .none ∧ t.intflagsa.getLsbD bit = true ∧
        sameBitsBut s.intflagsa t.intflagsa [bit] ∧ onlyGlobals s t [2]

/-- R153: what hardware never does. -/
def Obligations.HardwareNever : Prop :=
  ∀ (i : Instr) (s t : State), isBusEvent i = true → exec i s = .next t →
    (∀ d e b, (s.ep d e).done b = true → (t.ep d e).done b = true) ∧
    (∀ d e, (s.ep d e).setup = true → (t.ep d e).setup = true) ∧
    (∀ d e b, (s.ep d e).nack b = true → (t.ep d e).nack b = true) ∧
    (∀ k, s.intflagsa.getLsbD k = true → t.intflagsa.getLsbD k = true) ∧
    (∀ k, s.intflagsb.getLsbD k = true → t.intflagsb.getLsbD k = true) ∧
    (∀ d e, sameBitsBut (s.ep d e).ctrl (t.ep d e).ctrl [5]) ∧
    (∀ d e, (t.ep d e).ctrl = (s.ep d e).ctrl ∨
      ((t.ep d e).stall = false ∧ t.out = .response .ack ∧ ∃ a p, i = .busSetup e a p)) ∧
    t.addr = s.addr ∧ t.ctlstate = s.ctlstate ∧ t.setuprec = s.setuprec ∧
    (∀ x, t.ramByte x ≠ s.ramByte x → ∃ e b a p, bankOwns s .OUT e b x ∧
      ((i = .busSetup e a p ∧ b = .b0) ∨ (i = .busOut e a p ∧ b = (s.ep .OUT e).sel)))

/-- R267, R254: one bus event sets at most one bit of `INTFLAGSA`, and an accepted transaction sets none; where a flag
is set by a transaction nothing else changes. -/
def Obligations.OneFlagAnEvent : Prop :=
  ∀ (i : Instr) (s t : State), isBusEvent i = true → exec i s = .next t →
    (∃ k, k < 8 ∧ sameBitsBut s.intflagsa t.intflagsa [k]) ∧
    ((t.out = .response .ack ∨ ∃ bytes, t.out = .response (.data bytes)) → t.intflagsa = s.intflagsa) ∧
    (t.intflagsa ≠ s.intflagsa → onlyGlobals s t [2])

/-! ## The handlers -/

/-- R170, R171, R176, R259: `SVC_BUSEVENT` and `SVC_TRNCOMPL` start their handler, whether or not its request is true
(R179): `H.RUN` and `H.STEP`, nothing else. -/
def Obligations.ServiceStarts : Prop :=
  ∀ (i : Instr) (h : HRun) (s : State), s.busy = false →
    ((i = .svcBusevent ∧ h = .hbus) ∨ (i = .svcTrncompl ∧ h = .htrn)) →
    ∃ t, exec i s = .next t ∧ t.hRun = h ∧ t.hStep = some 0 ∧ t.out = .none ∧ t.disp = s.disp ∧ sameLatches s t ∧
      sameEps s t ∧ sameRam s t ∧ sameGlobalsBut s t [] ∧ sameLaunch s t ∧ t.trace = s.trace ∧ samePorts s t

/-- R171 to R174: the bus-event handler reads `INTFLAGSA` once, and serves the first group set in that reading,
clearing only bits of that group that were set in it. The numbers of the micro-steps are the model's (log entry 10).
-/
def Obligations.BusEventHandler : Prop :=
  ∀ s : State, s.hRun = .hbus → s.disp = [] →
    (s.hStep = some 0 → ∃ t, microStep s = .ok t ∧ t.hFa = some s.intflagsa ∧ t.hStep = some 1 ∧ t.hRun = .hbus ∧
      onlyGlobals { s with hFa := t.hFa, hStep := t.hStep } t []) ∧
    (∀ fa, s.hStep = some 1 → s.hFa = some fa →
      ∃ t mask, microStep s = .ok t ∧ (∀ k, t.intflagsa.getLsbD k = (s.intflagsa.getLsbD k && !mask.getLsbD k)) ∧
        sameEps s t ∧ sameRam s t ∧ sameGlobalsBut s t [2] ∧ sameLaunch s t ∧ samePorts s t ∧ t.disp = [] ∧
        (if fa &&& 0x01 ≠ 0 then mask = 0x01 ∧ t.trace = s.trace ++ [.sof] ∧ t.hRun = .none
         else if fa &&& 0x0E ≠ 0 then mask = fa &&& 0x0E ∧ t.trace = s.trace ++ [.busErr mask] ∧ t.hRun = .none
         else if fa &&& 0x10 ≠ 0 then mask = 0x10 ∧ t.trace = s.trace ++ [.stallSent] ∧ t.hRun = .none
         else if fa &&& 0xE0 ≠ 0 then mask = fa &&& 0xE0 ∧ t.trace = s.trace ++ [.pwr mask] ∧
           (if fa.getLsbD 7 = true then t.hRun = .hbus ∧ t.hStep = some 2 else t.hRun = .none)
         else mask = 0 ∧ t.trace = s.trace ∧ t.hRun = .none))

/-- R175, R282: the last micro-step of a confirmed bus reset reinitialises, as `USB_REINIT` does, notes it, and ends
the handler. The steps it is cut into are the model's (log entry 10). -/
def Obligations.BusResetServed : Prop :=
  ∀ s : State, s.hRun = .hbus → s.hStep = some 2 → s.disp = [] → paramsLegal s.par →
    ∃ t u, microStep s = .ok t ∧ exec .usbReinit { s with hRun := .none } = .next u ∧
      sameEps u t ∧ sameGlobalsBut u t [] ∧ sameRam s t ∧ t.trace = s.trace ++ [.reinit] ∧ t.hRun = .none ∧
      t.hStep = none ∧ t.hFa = none ∧ t.disp = [] ∧ sameLaunch s t ∧ samePorts s t

/-- R176 (T1, T2, T4), R177: the transaction-complete handler clears the request flags first, and reads the status of
each direction of EP0 once, masked. The steps it is cut into are the model's (log entry 10). -/
def Obligations.TransactionReads : Prop :=
  ∀ s : State, s.hRun = .htrn → s.disp = [] → 0 < s.par.nEp →
    (s.hStep = some 0 → ∃ t, microStep s = .ok t ∧ (∀ k, k < 2 → t.intflagsb.getLsbD k = false) ∧
      sameBitsBut s.intflagsb t.intflagsb [0, 1] ∧ t.hStep = some 1 ∧
      onlyGlobals { s with hStep := t.hStep } t [3]) ∧
    (s.hStep = some 1 → ∃ t, microStep s = .ok t ∧ t.hSo = some ((s.ep .OUT 0).status &&& 0x14) ∧ t.hStep = some 2 ∧
      onlyOut { s with hSo := t.hSo, hStep := t.hStep } t) ∧
    (s.hStep = some 3 → ∃ t, microStep s = .ok t ∧ t.hSi = some ((s.ep .IN 0).status &&& 0x04) ∧ t.hStep = some 4 ∧
      onlyOut { s with hSi := t.hSi, hStep := t.hStep } t)

/-- R176 (T3, T4), R177: the reading of EP0 OUT is classified, `SETUP` before `DONE0`, and acknowledged: `SETUP` and
`DONE0` together for a new request, `DONE0` alone for an OUT completion; the reading of EP0 IN likewise. The steps it
is cut into are the model's (log entry 10). -/
def Obligations.TransactionClassifies : Prop :=
  ∀ (s : State) (v : Byte), s.hRun = .htrn → s.disp = [] → 0 < s.par.nEp →
    (s.hStep = some 2 → s.hSo = some v → ∃ t, microStep s = .ok t ∧ t.hStep = some 3 ∧
      onlyEp { s with hOutk := t.hOutk, hStep := t.hStep } t .OUT 0 ∧ onlyStatus (s.ep .OUT 0) (t.ep .OUT 0) ∧
      (if v.getLsbD 4 = true then t.hOutk = some .newRequest ∧ (t.ep .OUT 0).setup = false ∧
         (t.ep .OUT 0).done .b0 = false ∧ sameBitsBut (s.ep .OUT 0).status (t.ep .OUT 0).status [2, 4]
       else if v.getLsbD 2 = true then t.hOutk = some .ctlOut ∧ (t.ep .OUT 0).done .b0 = false ∧
         sameBitsBut (s.ep .OUT 0).status (t.ep .OUT 0).status [2]
       else t.hOutk = some .none ∧ (t.ep .OUT 0).status = (s.ep .OUT 0).status)) ∧
    (s.hStep = some 4 → s.hSi = some v → ∃ t, microStep s = .ok t ∧ t.hStep = some 5 ∧ t.hInk = some (v.getLsbD 2) ∧
      onlyEp { s with hInk := t.hInk, hStep := t.hStep } t .IN 0 ∧ onlyStatus (s.ep .IN 0) (t.ep .IN 0) ∧
      (if v.getLsbD 2 = true then (t.ep .IN 0).done .b0 = false ∧
         sameBitsBut (s.ep .IN 0).status (t.ep .IN 0).status [2]
       else (t.ep .IN 0).status = (s.ep .IN 0).status))

/-- R176 (T5, T6), R178: the OUT-side dispatch is the engine's event of the same name, and after it the IN-side
dispatch fires, whatever the OUT side was, flagged stale exactly when a new request was dispatched; then the handler
ends. The steps it is cut into are the model's (log entry 10). -/
def Obligations.TransactionDispatches : Prop :=
  ∀ s : State, s.hRun = .htrn → s.disp = [] →
    (∀ k, s.hStep = some 5 → s.hOutk = some k →
      (k = .none → ∃ t, microStep s = .ok t ∧ t = { s with hStep := some 6 }) ∧
      (k ≠ .none →
        let ev := if k = .newRequest then Instr.evNewrequest else .evCtloutDone
        ∀ u, exec ev { s with hRun := .none } = .next u →
          microStep s = .ok { u with hRun := .htrn, hStep := some 6, out := s.out })) ∧
    (∀ k ink, s.hStep = some 6 → s.hOutk = some k → s.hInk = some ink →
      ∃ t u, microStep s = .ok t ∧ t.hRun = .none ∧ t.hStep = none ∧ t.hOutk = none ∧ t.hInk = none ∧ t.disp = [] ∧
        (if ink = true then exec (.evCtlinDone (decide (k = .newRequest))) { s with hRun := .none } = .next u
         else u = s) ∧
        t.trace = u.trace ∧ sameEps s t ∧ sameRam s t ∧ sameGlobalsBut u t [] ∧ sameLaunch s t ∧ samePorts s t)

/-- R179, R171, R176: both handlers are total but for the dispatch at T5: with the invariant, no micro-step of a handler
can stop, T5 among them where there is nothing to dispatch; where there is, T5 stops exactly where the engine's event
does. The steps it is cut into are the model's (log entry 10). -/
def Obligations.HandlersTotal : Prop :=
  ∀ s : State, s.Inv → s.disp = [] →
    ((s.hRun = .htrn → s.hStep = some 5 → s.hOutk = some .none) → ∃ t, microStep s = .ok t) ∧
    ∀ k, s.hRun = .htrn → s.hStep = some 5 → s.hOutk = some k → k ≠ .none →
      let ev := if k = .newRequest then Instr.evNewrequest else .evCtloutDone
      ∀ f, microStep s = .error f ↔ exec ev { s with hRun := .none } = .fault f

/-! ## The dispatch -/

/-- R192 (rows 1 and 4), R193, R198: a descriptor request is resolved, noted and served: STALL where nothing or an
empty descriptor is found, a zero-length status where the host asks for none, `CV_OVERRUN` above one packet, else a
copy of the clamped length and `CTL_IN`. The model's: the steps it is cut into (log entry 9) and `CV_OVERRUN` in the
step after the call (log entry 22), the resolvers' answers as launch data (log entry 4); the request numbers 0, 2, 6
and the byte order of the fields are USB 2.0's, PRESUMED (log entry 23). -/
def Obligations.DispatchDescriptor : Prop :=
  ∀ (s : State) (r : Word) (rest : List DispStep), s.disp = .call :: rest → s.setuprec = some r →
    ∀ (x : Resolved) (c : OracleCall),
    ((r.extractLsb' 5 2 = 0#2 ∧ r.extractLsb' 8 8 = 6#8 ∧
        x = s.env.descriptor (r.extractLsb' 24 8) (r.extractLsb' 16 8) ∧
        c = .resolveDescriptor (r.extractLsb' 24 8) (r.extractLsb' 16 8) x) ∨
      (r.extractLsb' 5 2 = 2#2 ∧ r.extractLsb' 8 8 = s.par.vendorCode ∧
        x = s.env.osDescriptor (r.extractLsb' 32 16) ∧ c = .resolveOsDescriptor (r.extractLsb' 32 16) x)) →
    ∃ l, microStep s = .ok { s with trace := s.trace ++ [.call c], disp := l ++ [.n3] } ∧
      (x = .notFound → l = [.ctlStall]) ∧
      ∀ space addr length, x = .found space addr length →
        let n := min length.toNat (r.extractLsb' 48 16).toNat
        if length = 0 then l = [.ctlStall]
        else if n = 0 then l = [.ctlAck]
        else if maxPkt0 s.par < n then l = [.overrun]
        else ∃ m : BitVec 16, m.toNat = n ∧
          (space = .PMEM → l = [.bridgeCopy m addr, .ctlIn m]) ∧ (space = .RAM → l = [.bufCopy m addr, .ctlIn m])

/-- R192 (rows 2 and 3), R194, R195: a hook is asked with the fields of the record, the call noted, and its answer is
`CTL_ACK` or `CTL_STALL`. The model's: the steps it is cut into (log entry 9), and the hooks' answers as queues of
launch data, a free value where a queue is empty (log entry 4), of which the statement holds whatever it is; the
request numbers 0, 9, 11 and the byte order of the fields are USB 2.0's, PRESUMED (log entry 23). -/
def Obligations.DispatchHook : Prop :=
  ∀ (s : State) (r : Word) (rest : List DispStep), s.disp = .call :: rest →
    s.setuprec = some r → r.extractLsb' 5 2 = 0#2 →
    let follow := fun a : Bool => if a = true then DispStep.ctlAck else .ctlStall
    (r.extractLsb' 8 8 = 9#8 → ∃ a : Bool, (∀ b l, s.env.cfgAnswers = b :: l → a = b) ∧
      microStep s = .ok { s with
        trace := s.trace ++ [.call (.onSetConfiguration (r.extractLsb' 16 8) a)]
        disp := [follow a, .n3]
        env := { s.env with cfgAnswers := s.env.cfgAnswers.drop 1 } }) ∧
    (r.extractLsb' 8 8 = 11#8 → ∃ a : Bool, (∀ b l, s.env.ifAnswers = b :: l → a = b) ∧
      microStep s = .ok { s with
        trace := s.trace ++ [.call (.onSetInterface (r.extractLsb' 32 16) (r.extractLsb' 16 16) a)]
        disp := [follow a, .n3]
        env := { s.env with ifAnswers := s.env.ifAnswers.drop 1 } })

/-- R192 (row 5), R199: every other request goes to `onSetupRequest`, once, and each outcome has its ending; the bytes
of a `DataIn` are stored in the EP0 IN buffer, unless they are too many. The model's: the steps it is cut into (log
entry 9), `CV_OVERRUN` in the step after the call (log entry 22), and the answers as a queue of launch data, a free
value where it is empty (log entry 4), of which the statement holds whatever it is; the request numbers left to the
built-in layer and the byte order of `wLength` are USB 2.0's, PRESUMED (log entry 23). -/
def Obligations.DispatchExternal : Prop :=
  ∀ (s : State) (r : Word) (rest : List DispStep),
    s.disp = .call :: rest → s.setuprec = some r → paramsLegal s.par →
    ¬(r.extractLsb' 5 2 = 0#2 ∧ (r.extractLsb' 8 8 = 6#8 ∨ r.extractLsb' 8 8 = 9#8 ∨ r.extractLsb' 8 8 = 11#8)) →
    ¬(r.extractLsb' 5 2 = 2#2 ∧ r.extractLsb' 8 8 = s.par.vendorCode) →
    ∃ x t l, (∀ y q, s.env.reqAnswers = y :: q → x = y) ∧
      microStep s = .ok t ∧ t.trace = s.trace ++ [.call (.onSetupRequest x)] ∧ t.disp = l ++ [.n3] ∧
      t.env = { s.env with reqAnswers := s.env.reqAnswers.drop 1 } ∧ sameEps s t ∧ sameGlobalsBut s t [] ∧ samePorts s t ∧
      t.hRun = s.hRun ∧ t.hStep = s.hStep ∧ sameLatches s t ∧ t.par = s.par ∧ t.pmem = s.pmem ∧
      ((∀ bytes, x ≠ .dataIn bytes) → sameRam s t) ∧
      (x = .dataOut → l = [.ctlOut]) ∧ (x = .ack → l = [.ctlAck]) ∧
      (x = .ackDetach → l = [.ctlAck, .poll, .detach]) ∧ (x = .stall → l = [.ctlStall]) ∧ (x = .none → l = []) ∧
      ∀ bytes, x = .dataIn bytes →
        if maxPkt0 s.par < bytes.length ∨ (r.extractLsb' 48 16).toNat < bytes.length then l = [.overrun] ∧ sameRam s t
        else (∃ m : BitVec 16, m.toNat = bytes.length ∧ l = [.ctlIn m]) ∧
          (∀ k, k < bytes.length → t.ramByte (s.par.ep0InBuf.toNat + k) = bytes[k]?) ∧
          sameRamBut s t s.par.ep0InBuf.toNat bytes.length

/-- R191 (N3), R199, R103, R130, R294: how a dispatch ends. A reply too long is `CV_OVERRUN`; a dispatch that ended no
branch is `CV_DISPATCH`; the synchronous wait polls the completion flags of EP0 IN and stays as long as they are
clear, then detaches. The steps it is cut into are the model's (log entry 9). N3 tests the field `CSTATE` alone, while
the commands and events test the whole byte (log entry 11). -/
def Obligations.DispatchEnds : Prop :=
  ∀ (s : State) (x : DispStep) (rest : List DispStep), s.disp = x :: rest →
    (x = .overrun → microStep s = .error .cvOverrun) ∧
    (x = .n3 → s.ctlstate.extractLsb' 0 3 = 1#3 → microStep s = .error .cvDispatch) ∧
    (x = .n3 → s.ctlstate.extractLsb' 0 3 ≠ 1#3 → microStep s = .ok { s with disp := rest }) ∧
    (x = .poll → 0 < s.par.nEp → (s.ep .IN 0).type ≠ typeDisabled →
      ((s.ep .IN 0).done .b0 = false ∧ (s.ep .IN 0).done .b1 = false → microStep s = .ok s) ∧
      ((s.ep .IN 0).done .b0 = true ∨ (s.ep .IN 0).done .b1 = true → microStep s = .ok { s with disp := rest })) ∧
    (x = .detach → ∃ t, microStep s = .ok t ∧ t.gctrl.getLsbD 0 = false ∧ sameBitsBut s.gctrl t.gctrl [0] ∧
      onlyGlobals { s with disp := rest } t [0])

/-- R191 (N2), R192: the copies and the terminal command of a dispatch are the commands of the same names, issued by
the engine: what each does as a word of an idle machine in the same registers and memory, it does here. The steps it
is cut into are the model's (log entry 9). -/
def Obligations.DispatchIssuesCommands : Prop :=
  ∀ (s u : State) (x : DispStep) (i : Instr) (rest : List DispStep), s.disp = x :: rest →
    ((∃ n, x = .ctlIn n ∧ i = .ctlIn n) ∨ (x = .ctlOut ∧ i = .ctlOut) ∨ (x = .ctlAck ∧ i = .ctlAck) ∨
      (x = .ctlStall ∧ i = .ctlStall) ∨ (∃ n a, x = .bridgeCopy n a ∧ i = .bridgeCopy n a) ∨
      (∃ n a, x = .bufCopy n a ∧ i = .bufCopy n a)) →
    exec i { s with hRun := .none, disp := [] } = .next u →
    microStep s = .ok { u with hRun := s.hRun, disp := rest, out := s.out }

/-! ## Rules of the whole machine -/

/-- R62, R6: no step changes the launch parameters or `PMEM`. -/
def Obligations.LaunchFixed : Prop :=
  ∀ s t : State, step s = .next t → t.par = s.par ∧ ∀ a, t.pmemByte a = s.pmemByte a

/-- R45: the trace only grows: every step keeps the records there are. -/
def Obligations.TraceGrows : Prop := ∀ s t : State, step s = .next t → ∃ l, t.trace = s.trace ++ l

/-- R207 (1), R35: the setup record changes only at N1 of `EV_NEWREQUEST`: then the step notes the new request, enters
`SetupReceived`, and the record is the eight bytes of the OUT buffer. -/
def Obligations.SetupRecordWrittenAtN1 : Prop :=
  ∀ s t : State, step s = .next t → t.setuprec ≠ s.setuprec →
    ∃ r, t.setuprec = some r ∧ t.trace = s.trace ++ [.newReq r] ∧ t.ctlstate = 0x01 ∧
      ∀ k, k < 8 → s.ramByte (s.par.ep0OutBuf.toNat + k) = some (r.extractLsb' (8 * k) 8)

/-- R37, R234: which instruction can change which global register. -/
def Obligations.GlobalWriters : Prop :=
  ∀ (i : Instr) (s t : State), exec i s = .next t →
    (t.gctrl ≠ s.gctrl → i = .attach ∨ i = .detach ∨ ∃ b c, i = .intEnable b c) ∧
    (t.addr ≠ s.addr → i = .usbReinit ∨ ∃ a, i = .setAddr a) ∧
    (t.intflagsa ≠ s.intflagsa → isBusEvent i = true ∨ ∃ m, i = .ifaClr m) ∧
    (t.intflagsb ≠ s.intflagsb → isBusEvent i = true ∨ i = .usbReinit ∨ ∃ m, i = .ifbClr m) ∧
    (t.ctlstate ≠ s.ctlstate → i = .usbReinit ∨ (∃ n, i = .ctlIn n) ∨ i = .ctlOut ∨ i = .ctlAck ∨ i = .ctlStall ∨
      i = .evNewrequest ∨ i = .evCtloutDone ∨ ∃ f, i = .evCtlinDone f) ∧
    (t.setuprec ≠ s.setuprec → i = .evNewrequest) ∧
    (t.nvmcmd ≠ s.nvmcmd → ∃ v, i = .nvmcmdWr v)

/-- R204, R22: the halt condition is level: an instruction clears it only if it is an accepted SETUP on the endpoint,
an `EP_INIT` of the direction or `USB_REINIT`, and sets it only if it is `EP_STALL` of the direction or, on EP0,
`CTL_STALL`. -/
def Obligations.StallIsLevel : Prop :=
  ∀ (i : Instr) (s t : State) (d : Dir) (e : BitVec 4), exec i s = .next t →
    ((s.ep d e).stall = true → (t.ep d e).stall = false →
      i = .usbReinit ∨ (∃ ty c p, i = .epInit e d ty c p) ∨
      (t.out = .response .ack ∧ ∃ a p, i = .busSetup e a p)) ∧
    ((s.ep d e).stall = false → (t.ep d e).stall = true → i = .epStall e d ∨ (e = 0 ∧ i = .ctlStall))

/-- R205, R200 to R203, R196: after any terminal command and any `EV_CTLOUT_DONE` that completes, EP0 OUT is armed for
the next SETUP. -/
def Obligations.OutRearmedAtEveryBranch : Prop :=
  ∀ (i : Instr) (s t : State), exec i s = .next t →
    (∃ n, i = .ctlIn n) ∨ i = .ctlOut ∨ i = .ctlAck ∨ i = .ctlStall ∨ i = .evCtloutDone →
    (t.ep .OUT 0).nack .b0 = false

end
end

