-- ==== Sys2Proof/Laws/State.lean ====
section
/-! SUPPORT. What each update of the state does to each field, one lemma an update: a conjunction that `simp` takes
apart, so that no later proof unfolds a record update. -/
namespace Sys2Proof.Machine

/-- A group is written: everything but the register file stays. -/
@[simp] theorem setEp_fields (s : State) (d : Dir) (e : BitVec 4) (x : EpRegs) :
    (s.setEp d e x).par = s.par ∧ (s.setEp d e x).gctrl = s.gctrl ∧ (s.setEp d e x).addr = s.addr ∧
    (s.setEp d e x).intflagsa = s.intflagsa ∧ (s.setEp d e x).intflagsb = s.intflagsb ∧
    (s.setEp d e x).ctlstate = s.ctlstate ∧ (s.setEp d e x).setuprec = s.setuprec ∧
    (s.setEp d e x).nvmcmd = s.nvmcmd ∧ (s.setEp d e x).ram = s.ram ∧ (s.setEp d e x).pmem = s.pmem ∧
    (s.setEp d e x).hRun = s.hRun ∧ (s.setEp d e x).hStep = s.hStep ∧ (s.setEp d e x).hSo = s.hSo ∧
    (s.setEp d e x).hSi = s.hSi ∧ (s.setEp d e x).hOutk = s.hOutk ∧ (s.setEp d e x).hInk = s.hInk ∧
    (s.setEp d e x).hFa = s.hFa ∧ (s.setEp d e x).hSavedMode = s.hSavedMode ∧ (s.setEp d e x).trace = s.trace ∧
    (s.setEp d e x).disp = s.disp ∧ (s.setEp d e x).out = s.out ∧ (s.setEp d e x).cmd = s.cmd ∧
    (s.setEp d e x).bus = s.bus ∧ (s.setEp d e x).turns = s.turns ∧ (s.setEp d e x).tick = s.tick ∧
    (s.setEp d e x).env = s.env ∧ (∀ k, (s.setEp d e x).ramByte k = s.ramByte k) ∧
    (∀ k, (s.setEp d e x).pmemByte k = s.pmemByte k) := by
  cases d <;> (repeat' apply And.intro) <;> first | rfl | (intro a; rfl)

/-- A byte is stored. -/
@[simp] theorem setRamByte_fields (s : State) (a : Nat) (v : Byte) :
    (s.setRamByte a v).par = s.par ∧ (s.setRamByte a v).outs = s.outs ∧ (s.setRamByte a v).ins = s.ins ∧
    (s.setRamByte a v).gctrl = s.gctrl ∧ (s.setRamByte a v).addr = s.addr ∧
    (s.setRamByte a v).intflagsa = s.intflagsa ∧ (s.setRamByte a v).intflagsb = s.intflagsb ∧
    (s.setRamByte a v).ctlstate = s.ctlstate ∧ (s.setRamByte a v).setuprec = s.setuprec ∧
    (s.setRamByte a v).nvmcmd = s.nvmcmd ∧ (s.setRamByte a v).ram = writeCell s.ram a v ∧
    (s.setRamByte a v).pmem = s.pmem ∧ (s.setRamByte a v).hRun = s.hRun ∧ (s.setRamByte a v).hStep = s.hStep ∧
    (s.setRamByte a v).hSo = s.hSo ∧ (s.setRamByte a v).hSi = s.hSi ∧ (s.setRamByte a v).hOutk = s.hOutk ∧
    (s.setRamByte a v).hInk = s.hInk ∧ (s.setRamByte a v).hFa = s.hFa ∧
    (s.setRamByte a v).hSavedMode = s.hSavedMode ∧ (s.setRamByte a v).trace = s.trace ∧
    (s.setRamByte a v).disp = s.disp ∧ (s.setRamByte a v).out = s.out ∧ (s.setRamByte a v).cmd = s.cmd ∧
    (s.setRamByte a v).bus = s.bus ∧ (s.setRamByte a v).turns = s.turns ∧ (s.setRamByte a v).tick = s.tick ∧
    (s.setRamByte a v).env = s.env ∧ (∀ i j, (s.setRamByte a v).ep i j = s.ep i j) ∧
    (∀ k, (s.setRamByte a v).pmemByte k = s.pmemByte k) := by
  (repeat' apply And.intro) <;> first | rfl | (intro d e; cases d <;> rfl) | (intro a; rfl)

/-- A flag of `INTFLAGSA` is set. -/
@[simp] theorem raiseA_fields (s : State) (m : Byte) :
    (s.raiseA m).par = s.par ∧ (s.raiseA m).outs = s.outs ∧ (s.raiseA m).ins = s.ins ∧
    (s.raiseA m).gctrl = s.gctrl ∧ (s.raiseA m).addr = s.addr ∧ (s.raiseA m).intflagsa = s.intflagsa ||| m ∧
    (s.raiseA m).intflagsb = s.intflagsb ∧ (s.raiseA m).ctlstate = s.ctlstate ∧ (s.raiseA m).setuprec = s.setuprec ∧
    (s.raiseA m).nvmcmd = s.nvmcmd ∧ (s.raiseA m).ram = s.ram ∧ (s.raiseA m).pmem = s.pmem ∧
    (s.raiseA m).hRun = s.hRun ∧ (s.raiseA m).hStep = s.hStep ∧ (s.raiseA m).hSo = s.hSo ∧
    (s.raiseA m).hSi = s.hSi ∧ (s.raiseA m).hOutk = s.hOutk ∧ (s.raiseA m).hInk = s.hInk ∧
    (s.raiseA m).hFa = s.hFa ∧ (s.raiseA m).hSavedMode = s.hSavedMode ∧ (s.raiseA m).trace = s.trace ∧
    (s.raiseA m).disp = s.disp ∧ (s.raiseA m).out = s.out ∧ (s.raiseA m).cmd = s.cmd ∧ (s.raiseA m).bus = s.bus ∧
    (s.raiseA m).turns = s.turns ∧ (s.raiseA m).tick = s.tick ∧ (s.raiseA m).env = s.env ∧
    (∀ i j, (s.raiseA m).ep i j = s.ep i j) ∧ (∀ k, (s.raiseA m).ramByte k = s.ramByte k) ∧
    (∀ k, (s.raiseA m).pmemByte k = s.pmemByte k) := by
  (repeat' apply And.intro) <;> first | rfl | (intro d e; cases d <;> rfl) | (intro a; rfl)

/-- A flag of `INTFLAGSB` is set. -/
@[simp] theorem raiseB_fields (s : State) (m : Byte) :
    (s.raiseB m).par = s.par ∧ (s.raiseB m).outs = s.outs ∧ (s.raiseB m).ins = s.ins ∧
    (s.raiseB m).gctrl = s.gctrl ∧ (s.raiseB m).addr = s.addr ∧ (s.raiseB m).intflagsa = s.intflagsa ∧
    (s.raiseB m).intflagsb = s.intflagsb ||| m ∧ (s.raiseB m).ctlstate = s.ctlstate ∧
    (s.raiseB m).setuprec = s.setuprec ∧ (s.raiseB m).nvmcmd = s.nvmcmd ∧ (s.raiseB m).ram = s.ram ∧
    (s.raiseB m).pmem = s.pmem ∧ (s.raiseB m).hRun = s.hRun ∧ (s.raiseB m).hStep = s.hStep ∧
    (s.raiseB m).hSo = s.hSo ∧ (s.raiseB m).hSi = s.hSi ∧ (s.raiseB m).hOutk = s.hOutk ∧
    (s.raiseB m).hInk = s.hInk ∧ (s.raiseB m).hFa = s.hFa ∧ (s.raiseB m).hSavedMode = s.hSavedMode ∧
    (s.raiseB m).trace = s.trace ∧ (s.raiseB m).disp = s.disp ∧ (s.raiseB m).out = s.out ∧
    (s.raiseB m).cmd = s.cmd ∧ (s.raiseB m).bus = s.bus ∧ (s.raiseB m).turns = s.turns ∧
    (s.raiseB m).tick = s.tick ∧ (s.raiseB m).env = s.env ∧ (∀ i j, (s.raiseB m).ep i j = s.ep i j) ∧
    (∀ k, (s.raiseB m).ramByte k = s.ramByte k) ∧ (∀ k, (s.raiseB m).pmemByte k = s.pmemByte k) := by
  (repeat' apply And.intro) <;> first | rfl | (intro d e; cases d <;> rfl) | (intro a; rfl)

/-- The output is given. -/
@[simp] theorem give_fields (s : State) (o : Output) :
    (s.give o).par = s.par ∧ (s.give o).outs = s.outs ∧ (s.give o).ins = s.ins ∧
    (s.give o).gctrl = s.gctrl ∧ (s.give o).addr = s.addr ∧ (s.give o).intflagsa = s.intflagsa ∧
    (s.give o).intflagsb = s.intflagsb ∧ (s.give o).ctlstate = s.ctlstate ∧
    (s.give o).setuprec = s.setuprec ∧ (s.give o).nvmcmd = s.nvmcmd ∧ (s.give o).ram = s.ram ∧
    (s.give o).pmem = s.pmem ∧ (s.give o).hRun = s.hRun ∧ (s.give o).hStep = s.hStep ∧
    (s.give o).hSo = s.hSo ∧ (s.give o).hSi = s.hSi ∧ (s.give o).hOutk = s.hOutk ∧
    (s.give o).hInk = s.hInk ∧ (s.give o).hFa = s.hFa ∧ (s.give o).hSavedMode = s.hSavedMode ∧
    (s.give o).trace = s.trace ∧ (s.give o).disp = s.disp ∧ (s.give o).out = o ∧
    (s.give o).cmd = s.cmd ∧ (s.give o).bus = s.bus ∧ (s.give o).turns = s.turns ∧
    (s.give o).tick = s.tick ∧ (s.give o).env = s.env ∧ (∀ i j, (s.give o).ep i j = s.ep i j) ∧
    (∀ k, (s.give o).ramByte k = s.ramByte k) ∧ (∀ k, (s.give o).pmemByte k = s.pmemByte k) := by
  (repeat' apply And.intro) <;> first | rfl | (intro d e; cases d <;> rfl) | (intro a; rfl)

/-- A response is given. -/
@[simp] theorem respond_fields (s : State) (r : Response) :
    (s.respond r).par = s.par ∧ (s.respond r).outs = s.outs ∧ (s.respond r).ins = s.ins ∧
    (s.respond r).gctrl = s.gctrl ∧ (s.respond r).addr = s.addr ∧ (s.respond r).intflagsa = s.intflagsa ∧
    (s.respond r).intflagsb = s.intflagsb ∧ (s.respond r).ctlstate = s.ctlstate ∧
    (s.respond r).setuprec = s.setuprec ∧ (s.respond r).nvmcmd = s.nvmcmd ∧ (s.respond r).ram = s.ram ∧
    (s.respond r).pmem = s.pmem ∧ (s.respond r).hRun = s.hRun ∧ (s.respond r).hStep = s.hStep ∧
    (s.respond r).hSo = s.hSo ∧ (s.respond r).hSi = s.hSi ∧ (s.respond r).hOutk = s.hOutk ∧
    (s.respond r).hInk = s.hInk ∧ (s.respond r).hFa = s.hFa ∧ (s.respond r).hSavedMode = s.hSavedMode ∧
    (s.respond r).trace = s.trace ∧ (s.respond r).disp = s.disp ∧ (s.respond r).out = .response r ∧
    (s.respond r).cmd = s.cmd ∧ (s.respond r).bus = s.bus ∧ (s.respond r).turns = s.turns ∧
    (s.respond r).tick = s.tick ∧ (s.respond r).env = s.env ∧ (∀ i j, (s.respond r).ep i j = s.ep i j) ∧
    (∀ k, (s.respond r).ramByte k = s.ramByte k) ∧ (∀ k, (s.respond r).pmemByte k = s.pmemByte k) := by
  (repeat' apply And.intro) <;> first | rfl | (intro d e; cases d <;> rfl) | (intro a; rfl)

/-- A record is appended. -/
@[simp] theorem emit_fields (s : State) (n : Note) :
    (s.emit n).par = s.par ∧ (s.emit n).outs = s.outs ∧ (s.emit n).ins = s.ins ∧ (s.emit n).gctrl = s.gctrl ∧
    (s.emit n).addr = s.addr ∧ (s.emit n).intflagsa = s.intflagsa ∧ (s.emit n).intflagsb = s.intflagsb ∧
    (s.emit n).ctlstate = s.ctlstate ∧ (s.emit n).setuprec = s.setuprec ∧ (s.emit n).nvmcmd = s.nvmcmd ∧
    (s.emit n).ram = s.ram ∧ (s.emit n).pmem = s.pmem ∧ (s.emit n).hRun = s.hRun ∧ (s.emit n).hStep = s.hStep ∧
    (s.emit n).hSo = s.hSo ∧ (s.emit n).hSi = s.hSi ∧ (s.emit n).hOutk = s.hOutk ∧ (s.emit n).hInk = s.hInk ∧
    (s.emit n).hFa = s.hFa ∧ (s.emit n).hSavedMode = s.hSavedMode ∧ (s.emit n).trace = s.trace ++ [n] ∧
    (s.emit n).disp = s.disp ∧ (s.emit n).out = s.out ∧ (s.emit n).cmd = s.cmd ∧ (s.emit n).bus = s.bus ∧
    (s.emit n).turns = s.turns ∧ (s.emit n).tick = s.tick ∧ (s.emit n).env = s.env ∧
    (∀ i j, (s.emit n).ep i j = s.ep i j) ∧ (∀ k, (s.emit n).ramByte k = s.ramByte k) ∧
    (∀ k, (s.emit n).pmemByte k = s.pmemByte k) := by
  (repeat' apply And.intro) <;> first | rfl | (intro d e; cases d <;> rfl) | (intro a; rfl)

/-- The engine's state is written. -/
@[simp] theorem setCtl_fields (s : State) (c : Byte) :
    (s.setCtl c).par = s.par ∧ (s.setCtl c).outs = s.outs ∧ (s.setCtl c).ins = s.ins ∧
    (s.setCtl c).gctrl = s.gctrl ∧ (s.setCtl c).addr = s.addr ∧ (s.setCtl c).intflagsa = s.intflagsa ∧
    (s.setCtl c).intflagsb = s.intflagsb ∧ (s.setCtl c).ctlstate = c ∧ (s.setCtl c).setuprec = s.setuprec ∧
    (s.setCtl c).nvmcmd = s.nvmcmd ∧ (s.setCtl c).ram = s.ram ∧ (s.setCtl c).pmem = s.pmem ∧
    (s.setCtl c).hRun = s.hRun ∧ (s.setCtl c).hStep = s.hStep ∧ (s.setCtl c).hSo = s.hSo ∧
    (s.setCtl c).hSi = s.hSi ∧ (s.setCtl c).hOutk = s.hOutk ∧ (s.setCtl c).hInk = s.hInk ∧
    (s.setCtl c).hFa = s.hFa ∧ (s.setCtl c).hSavedMode = s.hSavedMode ∧ (s.setCtl c).trace = s.trace ∧
    (s.setCtl c).disp = s.disp ∧ (s.setCtl c).out = s.out ∧ (s.setCtl c).cmd = s.cmd ∧ (s.setCtl c).bus = s.bus ∧
    (s.setCtl c).turns = s.turns ∧ (s.setCtl c).tick = s.tick ∧ (s.setCtl c).env = s.env ∧
    (∀ i j, (s.setCtl c).ep i j = s.ep i j) ∧ (∀ k, (s.setCtl c).ramByte k = s.ramByte k) ∧
    (∀ k, (s.setCtl c).pmemByte k = s.pmemByte k) := by
  (repeat' apply And.intro) <;> first | rfl | (intro d e; cases d <;> rfl) | (intro a; rfl)

/-- The setup record is written. -/
@[simp] theorem record_fields (s : State) (r : Word) :
    (s.record r).par = s.par ∧ (s.record r).outs = s.outs ∧ (s.record r).ins = s.ins ∧
    (s.record r).gctrl = s.gctrl ∧ (s.record r).addr = s.addr ∧ (s.record r).intflagsa = s.intflagsa ∧
    (s.record r).intflagsb = s.intflagsb ∧ (s.record r).ctlstate = s.ctlstate ∧ (s.record r).setuprec = some r ∧
    (s.record r).nvmcmd = s.nvmcmd ∧ (s.record r).ram = s.ram ∧ (s.record r).pmem = s.pmem ∧
    (s.record r).hRun = s.hRun ∧ (s.record r).hStep = s.hStep ∧ (s.record r).hSo = s.hSo ∧
    (s.record r).hSi = s.hSi ∧ (s.record r).hOutk = s.hOutk ∧ (s.record r).hInk = s.hInk ∧
    (s.record r).hFa = s.hFa ∧ (s.record r).hSavedMode = s.hSavedMode ∧ (s.record r).trace = s.trace ∧
    (s.record r).disp = s.disp ∧ (s.record r).out = s.out ∧ (s.record r).cmd = s.cmd ∧ (s.record r).bus = s.bus ∧
    (s.record r).turns = s.turns ∧ (s.record r).tick = s.tick ∧ (s.record r).env = s.env ∧
    (∀ i j, (s.record r).ep i j = s.ep i j) ∧ (∀ k, (s.record r).ramByte k = s.ramByte k) ∧
    (∀ k, (s.record r).pmemByte k = s.pmemByte k) := by
  (repeat' apply And.intro) <;> first | rfl | (intro d e; cases d <;> rfl) | (intro a; rfl)

/-- The rest of a dispatch is written. -/
@[simp] theorem follow_fields (s : State) (l : List DispStep) :
    (s.follow l).par = s.par ∧ (s.follow l).outs = s.outs ∧ (s.follow l).ins = s.ins ∧
    (s.follow l).gctrl = s.gctrl ∧ (s.follow l).addr = s.addr ∧ (s.follow l).intflagsa = s.intflagsa ∧
    (s.follow l).intflagsb = s.intflagsb ∧ (s.follow l).ctlstate = s.ctlstate ∧ (s.follow l).setuprec = s.setuprec ∧
    (s.follow l).nvmcmd = s.nvmcmd ∧ (s.follow l).ram = s.ram ∧ (s.follow l).pmem = s.pmem ∧
    (s.follow l).hRun = s.hRun ∧ (s.follow l).hStep = s.hStep ∧ (s.follow l).hSo = s.hSo ∧
    (s.follow l).hSi = s.hSi ∧ (s.follow l).hOutk = s.hOutk ∧ (s.follow l).hInk = s.hInk ∧
    (s.follow l).hFa = s.hFa ∧ (s.follow l).hSavedMode = s.hSavedMode ∧ (s.follow l).trace = s.trace ∧
    (s.follow l).disp = l ∧ (s.follow l).out = s.out ∧ (s.follow l).cmd = s.cmd ∧ (s.follow l).bus = s.bus ∧
    (s.follow l).turns = s.turns ∧ (s.follow l).tick = s.tick ∧ (s.follow l).env = s.env ∧
    (∀ i j, (s.follow l).ep i j = s.ep i j) ∧ (∀ k, (s.follow l).ramByte k = s.ramByte k) ∧
    (∀ k, (s.follow l).pmemByte k = s.pmemByte k) := by
  (repeat' apply And.intro) <;> first | rfl | (intro d e; cases d <;> rfl) | (intro a; rfl)

/-- The rest of a dispatch is laid out. -/
@[simp] theorem plan_fields (s : State) (l : List DispStep) :
    (s.plan l).par = s.par ∧ (s.plan l).outs = s.outs ∧ (s.plan l).ins = s.ins ∧ (s.plan l).gctrl = s.gctrl ∧
    (s.plan l).addr = s.addr ∧ (s.plan l).intflagsa = s.intflagsa ∧ (s.plan l).intflagsb = s.intflagsb ∧
    (s.plan l).ctlstate = s.ctlstate ∧ (s.plan l).setuprec = s.setuprec ∧ (s.plan l).nvmcmd = s.nvmcmd ∧
    (s.plan l).ram = s.ram ∧ (s.plan l).pmem = s.pmem ∧ (s.plan l).hRun = s.hRun ∧ (s.plan l).hStep = s.hStep ∧
    (s.plan l).hSo = s.hSo ∧ (s.plan l).hSi = s.hSi ∧ (s.plan l).hOutk = s.hOutk ∧ (s.plan l).hInk = s.hInk ∧
    (s.plan l).hFa = s.hFa ∧ (s.plan l).hSavedMode = s.hSavedMode ∧ (s.plan l).trace = s.trace ∧
    (s.plan l).disp = l ++ [.n3] ∧ (s.plan l).out = s.out ∧ (s.plan l).cmd = s.cmd ∧ (s.plan l).bus = s.bus ∧
    (s.plan l).turns = s.turns ∧ (s.plan l).tick = s.tick ∧ (s.plan l).env = s.env ∧
    (∀ i j, (s.plan l).ep i j = s.ep i j) ∧ (∀ k, (s.plan l).ramByte k = s.ramByte k) ∧
    (∀ k, (s.plan l).pmemByte k = s.pmemByte k) := by
  (repeat' apply And.intro) <;> first | rfl | (intro d e; cases d <;> rfl) | (intro a; rfl)

/-- A handler starts. -/
@[simp] theorem startHandler_fields (s : State) (h : HRun) :
    (s.startHandler h).par = s.par ∧ (s.startHandler h).outs = s.outs ∧ (s.startHandler h).ins = s.ins ∧
    (s.startHandler h).gctrl = s.gctrl ∧ (s.startHandler h).addr = s.addr ∧
    (s.startHandler h).intflagsa = s.intflagsa ∧ (s.startHandler h).intflagsb = s.intflagsb ∧
    (s.startHandler h).ctlstate = s.ctlstate ∧ (s.startHandler h).setuprec = s.setuprec ∧
    (s.startHandler h).nvmcmd = s.nvmcmd ∧ (s.startHandler h).ram = s.ram ∧ (s.startHandler h).pmem = s.pmem ∧
    (s.startHandler h).hRun = h ∧ (s.startHandler h).hStep = some 0 ∧ (s.startHandler h).hSo = s.hSo ∧
    (s.startHandler h).hSi = s.hSi ∧ (s.startHandler h).hOutk = s.hOutk ∧ (s.startHandler h).hInk = s.hInk ∧
    (s.startHandler h).hFa = s.hFa ∧ (s.startHandler h).hSavedMode = s.hSavedMode ∧
    (s.startHandler h).trace = s.trace ∧ (s.startHandler h).disp = s.disp ∧ (s.startHandler h).out = s.out ∧
    (s.startHandler h).cmd = s.cmd ∧ (s.startHandler h).bus = s.bus ∧ (s.startHandler h).turns = s.turns ∧
    (s.startHandler h).tick = s.tick ∧ (s.startHandler h).env = s.env ∧
    (∀ i j, (s.startHandler h).ep i j = s.ep i j) ∧ (∀ k, (s.startHandler h).ramByte k = s.ramByte k) ∧
    (∀ k, (s.startHandler h).pmemByte k = s.pmemByte k) := by
  (repeat' apply And.intro) <;> first | rfl | (intro d e; cases d <;> rfl) | (intro a; rfl)

/-- An injected dispatch takes the context of the transaction-complete handler. -/
@[simp] theorem dispatchContext_fields (s : State) :
    s.dispatchContext.par = s.par ∧ s.dispatchContext.outs = s.outs ∧ s.dispatchContext.ins = s.ins ∧
    s.dispatchContext.gctrl = s.gctrl ∧ s.dispatchContext.addr = s.addr ∧
    s.dispatchContext.intflagsa = s.intflagsa ∧ s.dispatchContext.intflagsb = s.intflagsb ∧
    s.dispatchContext.ctlstate = s.ctlstate ∧ s.dispatchContext.setuprec = s.setuprec ∧
    s.dispatchContext.nvmcmd = s.nvmcmd ∧ s.dispatchContext.ram = s.ram ∧ s.dispatchContext.pmem = s.pmem ∧
    s.dispatchContext.hRun = .htrn ∧ s.dispatchContext.hStep = some 7 ∧ s.dispatchContext.hSo = s.hSo ∧
    s.dispatchContext.hSi = s.hSi ∧ s.dispatchContext.hOutk = s.hOutk ∧ s.dispatchContext.hInk = s.hInk ∧
    s.dispatchContext.hFa = s.hFa ∧ s.dispatchContext.hSavedMode = s.hSavedMode ∧
    s.dispatchContext.trace = s.trace ∧ s.dispatchContext.disp = s.disp ∧ s.dispatchContext.out = s.out ∧
    s.dispatchContext.cmd = s.cmd ∧ s.dispatchContext.bus = s.bus ∧ s.dispatchContext.turns = s.turns ∧
    s.dispatchContext.tick = s.tick ∧ s.dispatchContext.env = s.env ∧
    (∀ i j, s.dispatchContext.ep i j = s.ep i j) ∧ (∀ k, s.dispatchContext.ramByte k = s.ramByte k) ∧
    (∀ k, s.dispatchContext.pmemByte k = s.pmemByte k) := by
  (repeat' apply And.intro) <;> first | rfl | (intro d e; cases d <;> rfl) | (intro a; rfl)

/-- A micro-step is done. -/
@[simp] theorem atStep_fields (s : State) (n : Nat) :
    (s.atStep n).par = s.par ∧ (s.atStep n).outs = s.outs ∧ (s.atStep n).ins = s.ins ∧
    (s.atStep n).gctrl = s.gctrl ∧ (s.atStep n).addr = s.addr ∧ (s.atStep n).intflagsa = s.intflagsa ∧
    (s.atStep n).intflagsb = s.intflagsb ∧ (s.atStep n).ctlstate = s.ctlstate ∧ (s.atStep n).setuprec = s.setuprec ∧
    (s.atStep n).nvmcmd = s.nvmcmd ∧ (s.atStep n).ram = s.ram ∧ (s.atStep n).pmem = s.pmem ∧
    (s.atStep n).hRun = s.hRun ∧ (s.atStep n).hStep = some n ∧ (s.atStep n).hSo = s.hSo ∧ (s.atStep n).hSi = s.hSi ∧
    (s.atStep n).hOutk = s.hOutk ∧ (s.atStep n).hInk = s.hInk ∧ (s.atStep n).hFa = s.hFa ∧
    (s.atStep n).hSavedMode = s.hSavedMode ∧ (s.atStep n).trace = s.trace ∧ (s.atStep n).disp = s.disp ∧
    (s.atStep n).out = s.out ∧ (s.atStep n).cmd = s.cmd ∧ (s.atStep n).bus = s.bus ∧ (s.atStep n).turns = s.turns ∧
    (s.atStep n).tick = s.tick ∧ (s.atStep n).env = s.env ∧ (∀ i j, (s.atStep n).ep i j = s.ep i j) ∧
    (∀ k, (s.atStep n).ramByte k = s.ramByte k) ∧ (∀ k, (s.atStep n).pmemByte k = s.pmemByte k) := by
  (repeat' apply And.intro) <;> first | rfl | (intro d e; cases d <;> rfl) | (intro a; rfl)

/-- A handler ends. -/
@[simp] theorem endHandler_fields (s : State) :
    (s.endHandler).par = s.par ∧ (s.endHandler).outs = s.outs ∧ (s.endHandler).ins = s.ins ∧
    (s.endHandler).gctrl = s.gctrl ∧ (s.endHandler).addr = s.addr ∧ (s.endHandler).intflagsa = s.intflagsa ∧
    (s.endHandler).intflagsb = s.intflagsb ∧ (s.endHandler).ctlstate = s.ctlstate ∧
    (s.endHandler).setuprec = s.setuprec ∧ (s.endHandler).nvmcmd = s.nvmcmd ∧ (s.endHandler).ram = s.ram ∧
    (s.endHandler).pmem = s.pmem ∧ (s.endHandler).hRun = .none ∧ (s.endHandler).hStep = none ∧
    (s.endHandler).hSo = none ∧ (s.endHandler).hSi = none ∧ (s.endHandler).hOutk = none ∧
    (s.endHandler).hInk = none ∧ (s.endHandler).hFa = none ∧ (s.endHandler).hSavedMode = s.hSavedMode ∧
    (s.endHandler).trace = s.trace ∧ (s.endHandler).disp = s.disp ∧ (s.endHandler).out = s.out ∧
    (s.endHandler).cmd = s.cmd ∧ (s.endHandler).bus = s.bus ∧ (s.endHandler).turns = s.turns ∧
    (s.endHandler).tick = s.tick ∧ (s.endHandler).env = s.env ∧ (∀ i j, (s.endHandler).ep i j = s.ep i j) ∧
    (∀ k, (s.endHandler).ramByte k = s.ramByte k) ∧ (∀ k, (s.endHandler).pmemByte k = s.pmemByte k) := by
  (repeat' apply And.intro) <;> first | rfl | (intro d e; cases d <;> rfl) | (intro a; rfl)

/-- The bridge saves and switches the mode. -/
@[simp] theorem saveMode_fields (s : State) :
    (s.saveMode).par = s.par ∧ (s.saveMode).outs = s.outs ∧ (s.saveMode).ins = s.ins ∧
    (s.saveMode).gctrl = s.gctrl ∧ (s.saveMode).addr = s.addr ∧ (s.saveMode).intflagsa = s.intflagsa ∧
    (s.saveMode).intflagsb = s.intflagsb ∧ (s.saveMode).ctlstate = s.ctlstate ∧ (s.saveMode).setuprec = s.setuprec ∧
    (s.saveMode).nvmcmd = s.par.nvmNoop ∧ (s.saveMode).ram = s.ram ∧ (s.saveMode).pmem = s.pmem ∧
    (s.saveMode).hRun = s.hRun ∧ (s.saveMode).hStep = s.hStep ∧ (s.saveMode).hSo = s.hSo ∧
    (s.saveMode).hSi = s.hSi ∧ (s.saveMode).hOutk = s.hOutk ∧ (s.saveMode).hInk = s.hInk ∧
    (s.saveMode).hFa = s.hFa ∧ (s.saveMode).hSavedMode = some s.nvmcmd ∧ (s.saveMode).trace = s.trace ∧
    (s.saveMode).disp = s.disp ∧ (s.saveMode).out = s.out ∧ (s.saveMode).cmd = s.cmd ∧ (s.saveMode).bus = s.bus ∧
    (s.saveMode).turns = s.turns ∧ (s.saveMode).tick = s.tick ∧ (s.saveMode).env = s.env ∧
    (∀ i j, (s.saveMode).ep i j = s.ep i j) ∧ (∀ k, (s.saveMode).ramByte k = s.ramByte k) ∧
    (∀ k, (s.saveMode).pmemByte k = s.pmemByte k) := by
  (repeat' apply And.intro) <;> first | rfl | (intro d e; cases d <;> rfl) | (intro a; rfl)

/-- A turn is taken off the schedule. -/
@[simp] theorem tookTurn_fields (s : State) :
    (s.tookTurn).par = s.par ∧ (s.tookTurn).outs = s.outs ∧ (s.tookTurn).ins = s.ins ∧
    (s.tookTurn).gctrl = s.gctrl ∧ (s.tookTurn).addr = s.addr ∧ (s.tookTurn).intflagsa = s.intflagsa ∧
    (s.tookTurn).intflagsb = s.intflagsb ∧ (s.tookTurn).ctlstate = s.ctlstate ∧ (s.tookTurn).setuprec = s.setuprec ∧
    (s.tookTurn).nvmcmd = s.nvmcmd ∧ (s.tookTurn).ram = s.ram ∧ (s.tookTurn).pmem = s.pmem ∧
    (s.tookTurn).hRun = s.hRun ∧ (s.tookTurn).hStep = s.hStep ∧ (s.tookTurn).hSo = s.hSo ∧
    (s.tookTurn).hSi = s.hSi ∧ (s.tookTurn).hOutk = s.hOutk ∧ (s.tookTurn).hInk = s.hInk ∧
    (s.tookTurn).hFa = s.hFa ∧ (s.tookTurn).hSavedMode = s.hSavedMode ∧ (s.tookTurn).trace = s.trace ∧
    (s.tookTurn).disp = s.disp ∧ (s.tookTurn).out = s.out ∧ (s.tookTurn).cmd = s.cmd ∧ (s.tookTurn).bus = s.bus ∧
    (s.tookTurn).turns = s.turns.tail ∧ (s.tookTurn).tick = s.tick + 1 ∧ (s.tookTurn).env = s.env ∧
    (∀ i j, (s.tookTurn).ep i j = s.ep i j) ∧ (∀ k, (s.tookTurn).ramByte k = s.ramByte k) ∧
    (∀ k, (s.tookTurn).pmemByte k = s.pmemByte k) := by
  (repeat' apply And.intro) <;> first | rfl | (intro d e; cases d <;> rfl) | (intro a; rfl)

/-- `IFA_CLR`. -/
@[simp] theorem ifaClr_fields (m : Byte) (s : State) :
    (ifaClr m s).par = s.par ∧ (ifaClr m s).outs = s.outs ∧ (ifaClr m s).ins = s.ins ∧
    (ifaClr m s).gctrl = s.gctrl ∧ (ifaClr m s).addr = s.addr ∧ (ifaClr m s).intflagsa = s.intflagsa &&& ~~~m ∧
    (ifaClr m s).intflagsb = s.intflagsb ∧ (ifaClr m s).ctlstate = s.ctlstate ∧ (ifaClr m s).setuprec = s.setuprec ∧
    (ifaClr m s).nvmcmd = s.nvmcmd ∧ (ifaClr m s).ram = s.ram ∧ (ifaClr m s).pmem = s.pmem ∧
    (ifaClr m s).hRun = s.hRun ∧ (ifaClr m s).hStep = s.hStep ∧ (ifaClr m s).hSo = s.hSo ∧
    (ifaClr m s).hSi = s.hSi ∧ (ifaClr m s).hOutk = s.hOutk ∧ (ifaClr m s).hInk = s.hInk ∧
    (ifaClr m s).hFa = s.hFa ∧ (ifaClr m s).hSavedMode = s.hSavedMode ∧ (ifaClr m s).trace = s.trace ∧
    (ifaClr m s).disp = s.disp ∧ (ifaClr m s).out = s.out ∧ (ifaClr m s).cmd = s.cmd ∧ (ifaClr m s).bus = s.bus ∧
    (ifaClr m s).turns = s.turns ∧ (ifaClr m s).tick = s.tick ∧ (ifaClr m s).env = s.env ∧
    (∀ i j, (ifaClr m s).ep i j = s.ep i j) ∧ (∀ k, (ifaClr m s).ramByte k = s.ramByte k) ∧
    (∀ k, (ifaClr m s).pmemByte k = s.pmemByte k) := by
  (repeat' apply And.intro) <;> first | rfl | (intro d e; cases d <;> rfl) | (intro a; rfl)

/-- `IFB_CLR`. -/
@[simp] theorem ifbClr_fields (m : Byte) (s : State) :
    (ifbClr m s).par = s.par ∧ (ifbClr m s).outs = s.outs ∧ (ifbClr m s).ins = s.ins ∧
    (ifbClr m s).gctrl = s.gctrl ∧ (ifbClr m s).addr = s.addr ∧ (ifbClr m s).intflagsa = s.intflagsa ∧
    (ifbClr m s).intflagsb = s.intflagsb &&& ~~~(m &&& 0x03) ∧ (ifbClr m s).ctlstate = s.ctlstate ∧
    (ifbClr m s).setuprec = s.setuprec ∧ (ifbClr m s).nvmcmd = s.nvmcmd ∧ (ifbClr m s).ram = s.ram ∧
    (ifbClr m s).pmem = s.pmem ∧ (ifbClr m s).hRun = s.hRun ∧ (ifbClr m s).hStep = s.hStep ∧
    (ifbClr m s).hSo = s.hSo ∧ (ifbClr m s).hSi = s.hSi ∧ (ifbClr m s).hOutk = s.hOutk ∧
    (ifbClr m s).hInk = s.hInk ∧ (ifbClr m s).hFa = s.hFa ∧ (ifbClr m s).hSavedMode = s.hSavedMode ∧
    (ifbClr m s).trace = s.trace ∧ (ifbClr m s).disp = s.disp ∧ (ifbClr m s).out = s.out ∧
    (ifbClr m s).cmd = s.cmd ∧ (ifbClr m s).bus = s.bus ∧ (ifbClr m s).turns = s.turns ∧
    (ifbClr m s).tick = s.tick ∧ (ifbClr m s).env = s.env ∧ (∀ i j, (ifbClr m s).ep i j = s.ep i j) ∧
    (∀ k, (ifbClr m s).ramByte k = s.ramByte k) ∧ (∀ k, (ifbClr m s).pmemByte k = s.pmemByte k) := by
  (repeat' apply And.intro) <;> first | rfl | (intro d e; cases d <;> rfl) | (intro a; rfl)

/-- The first part of `USB_REINIT`. -/
@[simp] theorem clearAll_fields (s : State) :
    (clearAll s).par = s.par ∧ (clearAll s).outs = Vector.replicate 16 EpRegs.off ∧
    (clearAll s).ins = Vector.replicate 16 EpRegs.off ∧ (clearAll s).gctrl = s.gctrl ∧ (clearAll s).addr = 0 ∧
    (clearAll s).intflagsa = s.intflagsa ∧ (clearAll s).intflagsb = 0x00 ∧ (clearAll s).ctlstate = csIdle ∧
    (clearAll s).setuprec = s.setuprec ∧ (clearAll s).nvmcmd = s.nvmcmd ∧ (clearAll s).ram = s.ram ∧
    (clearAll s).pmem = s.pmem ∧ (clearAll s).hRun = s.hRun ∧ (clearAll s).hStep = s.hStep ∧
    (clearAll s).hSo = s.hSo ∧ (clearAll s).hSi = s.hSi ∧ (clearAll s).hOutk = s.hOutk ∧
    (clearAll s).hInk = s.hInk ∧ (clearAll s).hFa = s.hFa ∧ (clearAll s).hSavedMode = s.hSavedMode ∧
    (clearAll s).trace = s.trace ∧ (clearAll s).disp = s.disp ∧ (clearAll s).out = s.out ∧
    (clearAll s).cmd = s.cmd ∧ (clearAll s).bus = s.bus ∧ (clearAll s).turns = s.turns ∧
    (clearAll s).tick = s.tick ∧ (clearAll s).env = s.env ∧ (∀ k, (clearAll s).ramByte k = s.ramByte k) ∧
    (∀ k, (clearAll s).pmemByte k = s.pmemByte k) := by
  (repeat' apply And.intro) <;> first | rfl | (intro a; rfl)

/-- A group that was written reads as written (R20: groups do not alias). -/
@[simp] theorem ep_setEp_same (s : State) (d : Dir) (e : BitVec 4) (x : EpRegs) : (s.setEp d e x).ep d e = x := by
  cases d <;> simp [State.setEp, State.ep]

/-- Writing one group leaves every other (R20: groups do not alias). -/
theorem ep_setEp_other (s : State) (d d' : Dir) (e e' : BitVec 4) (x : EpRegs) (h : ¬(d' = d ∧ e' = e)) :
    (s.setEp d e x).ep d' e' = s.ep d' e' := by
  have hv : d = d' → e.toNat ≠ e'.toNat := fun hd he => h ⟨hd.symm, (BitVec.eq_of_toNat_eq he).symm⟩
  cases d <;> cases d' <;> simp_all [State.setEp, State.ep]

/-- Reading a group after any write. -/
theorem ep_setEp (s : State) (d d' : Dir) (e e' : BitVec 4) (x : EpRegs) :
    (s.setEp d e x).ep d' e' = if d' = d ∧ e' = e then x else s.ep d' e' := by
  split
  · rename_i h
    obtain ⟨rfl, rfl⟩ := h
    exact ep_setEp_same ..
  · exact ep_setEp_other _ _ _ _ _ _ ‹_›

/-- The other direction's groups are left alone. -/
@[simp] theorem ep_setEp_in_out (s : State) (e e' : BitVec 4) (x : EpRegs) :
    (s.setEp .IN e x).ep .OUT e' = s.ep .OUT e' := ep_setEp_other _ _ _ _ _ _ (by simp)

/-- The other direction's groups are left alone. -/
@[simp] theorem ep_setEp_out_in (s : State) (e e' : BitVec 4) (x : EpRegs) :
    (s.setEp .OUT e x).ep .IN e' = s.ep .IN e' := ep_setEp_other _ _ _ _ _ _ (by simp)

/-- After `clearAll` every direction is off (R132). -/
@[simp] theorem ep_clearAll (s : State) (d : Dir) (e : BitVec 4) : (clearAll s).ep d e = EpRegs.off := by
  cases d <;> simp [State.ep]

/-- After power-on every direction is off (R281). -/
@[simp] theorem ep_reset (d : Dir) (e : BitVec 4) : State.reset.ep d e = EpRegs.off := by
  cases d <;> simp [State.ep, State.reset]

/-- Storing bytes changes only `RAM`. -/
@[simp] theorem setRamBytes_fields (s : State) (a : Nat) (vs : List Byte) :
    (s.setRamBytes a vs).par = s.par ∧
    (s.setRamBytes a vs).outs = s.outs ∧
    (s.setRamBytes a vs).ins = s.ins ∧
    (s.setRamBytes a vs).gctrl = s.gctrl ∧
    (s.setRamBytes a vs).addr = s.addr ∧
    (s.setRamBytes a vs).intflagsa = s.intflagsa ∧
    (s.setRamBytes a vs).intflagsb = s.intflagsb ∧
    (s.setRamBytes a vs).ctlstate = s.ctlstate ∧
    (s.setRamBytes a vs).setuprec = s.setuprec ∧
    (s.setRamBytes a vs).nvmcmd = s.nvmcmd ∧
    (s.setRamBytes a vs).pmem = s.pmem ∧
    (s.setRamBytes a vs).hRun = s.hRun ∧
    (s.setRamBytes a vs).hStep = s.hStep ∧
    (s.setRamBytes a vs).hSo = s.hSo ∧
    (s.setRamBytes a vs).hSi = s.hSi ∧
    (s.setRamBytes a vs).hOutk = s.hOutk ∧
    (s.setRamBytes a vs).hInk = s.hInk ∧
    (s.setRamBytes a vs).hFa = s.hFa ∧
    (s.setRamBytes a vs).hSavedMode = s.hSavedMode ∧
    (s.setRamBytes a vs).trace = s.trace ∧
    (s.setRamBytes a vs).disp = s.disp ∧
    (s.setRamBytes a vs).out = s.out ∧
    (s.setRamBytes a vs).cmd = s.cmd ∧
    (s.setRamBytes a vs).bus = s.bus ∧
    (s.setRamBytes a vs).turns = s.turns ∧
    (s.setRamBytes a vs).tick = s.tick ∧
    (s.setRamBytes a vs).env = s.env ∧
    (∀ d e, (s.setRamBytes a vs).ep d e = s.ep d e) ∧ (∀ b, (s.setRamBytes a vs).pmemByte b = s.pmemByte b) := by
  induction vs generalizing s a with
  | nil => simp [State.setRamBytes]
  | cons v vs ih => simp [State.setRamBytes, ih]

end Sys2Proof.Machine
end

