-- ==== Sys2Proof/Laws/Ops.lean ====
section
/-! SUPPORT. The laws of the shared operations: memory, ownership, and the forms in which an operation can answer. -/
namespace Sys2Proof.Machine

/-! ## Memory -/

/-- A read after a write: the byte written, and every other address as before. -/
theorem readCell_writeCell (m : List Host.Cell) (a : Nat) (v : Byte) (b : Nat) :
    readCell (writeCell m a v) b = if b = a then some v else readCell m b := by
  induction m with
  | nil => simp [writeCell, readCell, eq_comm]
  | cons c m ih =>
    obtain ⟨a', v'⟩ := c
    simp only [writeCell]
    split
    · simp [readCell, eq_comm]
    · split
      · subst_vars
        by_cases h : b = a' <;> simp [readCell, h, eq_comm]
      · simp only [readCell, ih]
        by_cases h : a' = b
        · have : b ≠ a := by omega
          simp [h, this]
        · simp [h]

/-- The cells after a write are the one written and cells that were there. -/
theorem mem_writeCell {m : List Host.Cell} {a : Nat} {v : Byte} {c : Host.Cell} (h : c ∈ writeCell m a v) :
    c = (a, v) ∨ c ∈ m := by
  induction m with
  | nil => simpa [writeCell] using h
  | cons c' m ih =>
    obtain ⟨a', v'⟩ := c'
    simp only [writeCell] at h
    split at h
    · simpa using h
    · split at h
      · rcases List.mem_cons.1 h with h | h
        · exact .inl h
        · exact .inr (List.mem_cons_of_mem _ h)
      · rcases List.mem_cons.1 h with h | h
        · exact .inr (by simp [h])
        · exact (ih h).imp id (List.mem_cons_of_mem _)

/-- A write keeps the canonical form. -/
theorem writeCell_wf {m : List Host.Cell} (a : Nat) (v : Byte) (h : memoryWf m) : memoryWf (writeCell m a v) := by
  induction m with
  | nil => simp [writeCell]
  | cons c m ih =>
    obtain ⟨a', v'⟩ := c
    rw [memoryWf, List.pairwise_cons] at h
    simp only [writeCell]
    split
    · rename_i hlt
      refine List.pairwise_cons.2 ⟨fun x hx => ?_, List.pairwise_cons.2 h⟩
      rcases List.mem_cons.1 hx with rfl | hx
      · exact hlt
      · exact Nat.lt_trans hlt (h.1 x hx)
    · split
      · subst_vars
        exact List.pairwise_cons.2 ⟨h.1, h.2⟩
      · refine List.pairwise_cons.2 ⟨fun x hx => ?_, ih h.2⟩
        rcases mem_writeCell hx with rfl | hx
        · simp only
          omega
        · exact h.1 x hx

/-- Nothing is listed after power-on, so the form holds (R281). -/
theorem reset_memoryWf : memoryWf State.reset.ram := List.Pairwise.nil

/-- Reading `RAM` after a byte was stored. -/
theorem ramByte_setRamByte (s : State) (a : Nat) (v : Byte) (b : Nat) :
    (s.setRamByte a v).ramByte b = if b = a then some v else s.ramByte b := readCell_writeCell ..

/-- Reading `RAM` after bytes were stored (R63: byte `i` at `a + i`). -/
theorem ramByte_setRamBytes (s : State) (a : Nat) (vs : List Byte) (b : Nat) :
    (s.setRamBytes a vs).ramByte b =
      if a ≤ b ∧ b < a + vs.length then vs[b - a]? else s.ramByte b := by
  induction vs generalizing s a with
  | nil => rw [if_neg (by simp), State.setRamBytes]
  | cons v vs ih =>
    rw [State.setRamBytes, ih, ramByte_setRamByte, List.length_cons]
    by_cases h : b = a
    · subst h
      simp [show ¬(b + 1 ≤ b) by omega]
    · by_cases h' : a + 1 ≤ b ∧ b < a + 1 + vs.length
      · rw [if_pos h', if_pos (by omega), show b - a = b - (a + 1) + 1 by omega, List.getElem?_cons_succ]
      · rw [if_neg h', if_neg h, if_neg (by omega)]

/-- Storing bytes keeps the canonical form. -/
theorem setRamBytes_wf (s : State) (a : Nat) (vs : List Byte) (h : memoryWf s.ram) :
    memoryWf (s.setRamBytes a vs).ram := by
  induction vs generalizing s a with
  | nil => exact h
  | cons v vs ih => exact ih _ _ (writeCell_wf a v h)

/-- The cells after bytes were stored lie where cells lay or in the range stored to. -/
theorem mem_setRamBytes {s : State} {a : Nat} {vs : List Byte} {c : Host.Cell} (h : c ∈ (s.setRamBytes a vs).ram) :
    c ∈ s.ram ∨ (a ≤ c.1 ∧ c.1 < a + vs.length) := by
  induction vs generalizing s a with
  | nil => exact .inl h
  | cons v vs ih =>
    rcases ih h with h | h
    · rcases mem_writeCell h with rfl | h
      · exact .inr (by simp)
      · exact .inl h
    · exact .inr (by rw [List.length_cons]; omega)

/-- What `MemWrite(RAM, ...)` answers (R9, R61). -/
theorem memWrite_ok {s t : State} {a : Nat} {vs : List Byte} :
    memWrite s a vs = .ok t ↔ (vs = [] ∨ a + vs.length ≤ ramSize s.par) ∧ t = s.setRamBytes a vs := by
  unfold memWrite
  split
  · rename_i h
    have : vs ≠ [] := by rintro rfl; simp at h
    simp [this]
    omega
  · rename_i h
    have : vs = [] ∨ a + vs.length ≤ ramSize s.par := by
      cases vs with
      | nil => exact .inl rfl
      | cons v vs => right; simp at h ⊢; omega
    simp [this, eq_comm]

/-- `n` bytes read are `n` bytes, each where it lies. -/
theorem ramBytes_some {s : State} {a n : Nat} {vs : List Byte} (h : s.ramBytes a n = some vs) :
    vs.length = n ∧ ∀ i, i < n → s.ramByte (a + i) = vs[i]? := by
  induction n generalizing a vs with
  | zero => cases h; simp
  | succ n ih =>
    simp only [State.ramBytes] at h
    split at h
    · rename_i v vs' hv hvs
      cases h
      obtain ⟨hl, hb⟩ := ih hvs
      refine ⟨by simp [hl], fun i hi => ?_⟩
      cases i with
      | zero => simpa using hv
      | succ i => simpa [show a + (i + 1) = a + 1 + i by omega] using hb i (by omega)
    · cases h

/-- A range whose every byte has a value can be read. -/
theorem ramBytes_total {s : State} {a n : Nat} (h : ∀ i, i < n → (s.ramByte (a + i)).isSome) :
    ∃ vs, s.ramBytes a n = some vs := by
  induction n generalizing a with
  | zero => exact ⟨[], rfl⟩
  | succ n ih =>
    obtain ⟨v, hv⟩ := Option.isSome_iff_exists.1 (h 0 (by omega))
    obtain ⟨vs, hvs⟩ := ih (a := a + 1) fun i hi => by simpa [Nat.add_assoc, Nat.add_comm 1] using h (i + 1) (by omega)
    exact ⟨v :: vs, by simp only [State.ramBytes, Nat.add_zero] at hv ⊢; simp [hv, hvs]⟩

/-- A range with a byte that has no value cannot be read. -/
theorem ramBytes_none {s : State} {a n : Nat} (h : ∃ i, i < n ∧ s.ramByte (a + i) = none) : s.ramBytes a n = none := by
  cases hc : s.ramBytes a n with
  | none => rfl
  | some vs =>
    obtain ⟨i, hi, hn⟩ := h
    obtain ⟨hl, hb⟩ := ramBytes_some hc
    have hv := hb i hi
    rw [hn, eq_comm, List.getElem?_eq_none_iff] at hv
    omega

/-- What `MemRead(RAM, ...)` answers (R9, R47, R61). -/
theorem memRead_ok {s : State} {a n : Nat} {vs : List Byte} :
    memRead s a n = .ok vs ↔ (n = 0 ∨ a + n ≤ ramSize s.par) ∧ s.ramBytes a n = some vs := by
  unfold memRead
  split
  · simp
    omega
  · rename_i h
    have h' : n = 0 ∨ a + n ≤ ramSize s.par := by omega
    cases s.ramBytes a n <;> simp [h']

/-- The read primitive in the neutral mode and in range (R230). -/
theorem pmemRead_ok {s : State} {a : Nat} (hm : s.nvmcmd = s.par.nvmNoop) (hr : a < pmemSize s.par) :
    pmemRead s a = .ok (s.pmemByte a) := by
  simp [pmemRead, hm, Nat.not_le.2 hr]

/-- `n` bytes of `PMEM` in the neutral mode and in range (R230, R231). -/
theorem pmemReadBytes_ok {s : State} {a n : Nat} (hm : s.nvmcmd = s.par.nvmNoop) (hr : a + n ≤ pmemSize s.par) :
    pmemReadBytes s a n = .ok ((List.range n).map fun i => s.pmemByte (a + i)) := by
  induction n generalizing a with
  | zero => rfl
  | succ n ih =>
    rw [pmemReadBytes, pmemRead_ok hm (by omega), ih (by omega), List.range_succ_eq_map]
    simp [Function.comp_def, Nat.add_assoc, Nat.add_comm 1, bind, Except.bind]

/-! ## Ownership -/

/-- Two ranges meet when an address lies in both. -/
theorem meets_iff (a n a' n' : Nat) :
    meets a n a' n' = true ↔ ∃ x, (a ≤ x ∧ x < a + n) ∧ (a' ≤ x ∧ x < a' + n') := by
  simp only [meets, Bool.and_eq_true, decide_eq_true_eq]
  constructor
  · intro h
    by_cases h' : a ≤ a'
    · exact ⟨a', by omega⟩
    · exact ⟨a, by omega⟩
  · rintro ⟨x, h⟩
    omega

/-- Every endpoint number is in the list. -/
theorem mem_epNumbers : ∀ e : BitVec 4, e ∈ epNumbers := by decide

/-- What a bank owns (R27, R65). -/
theorem armedRange_eq_some {x : EpRegs} {b : Bank} {r : Nat × Nat} :
    x.armedRange b = some r ↔
      x.nack b = false ∧ ∃ a n, x.ptr b = some a ∧ x.cnt b = some n ∧ r = (a.toNat, n.toNat) := by
  unfold EpRegs.armedRange
  cases x.nack b <;> cases x.ptr b <;> cases x.cnt b <;> simp [eq_comm]

/-- A direction owns a byte of a range (R65). -/
theorem owns_iff {x : EpRegs} {a n : Nat} :
    x.owns a n = true ↔ ∃ b p c, x.nack b = false ∧ x.ptr b = some p ∧ x.cnt b = some c ∧
      meets a n p.toNat c.toNat = true := by
  simp only [EpRegs.owns, List.any_eq_true, Option.any_eq_true]
  constructor
  · rintro ⟨b, -, r, hr, hm⟩
    obtain ⟨hn, p, c, hp, hc, rfl⟩ := armedRange_eq_some.1 hr
    exact ⟨b, p, c, hn, hp, hc, hm⟩
  · rintro ⟨b, p, c, hn, hp, hc, hm⟩
    exact ⟨b, by cases b <;> simp, _, armedRange_eq_some.2 ⟨hn, p, c, hp, hc, rfl⟩, hm⟩

/-- Hardware owns a byte of a range: some armed bank of an existing endpoint holds it (R65). -/
theorem hwOwns_iff {s : State} {a n : Nat} :
    s.hwOwns a n = true ↔ ∃ d e b p c, e.toNat < s.par.nEp ∧ (s.ep d e).nack b = false ∧
      (s.ep d e).ptr b = some p ∧ (s.ep d e).cnt b = some c ∧ meets a n p.toNat c.toNat = true := by
  simp only [State.hwOwns, List.any_eq_true, Bool.and_eq_true, Bool.or_eq_true, decide_eq_true_eq, owns_iff]
  constructor
  · rintro ⟨e, -, he, ⟨b, p, c, h⟩ | ⟨b, p, c, h⟩⟩
    · exact ⟨.OUT, e, b, p, c, he, h⟩
    · exact ⟨.IN, e, b, p, c, he, h⟩
  · rintro ⟨d, e, b, p, c, he, h⟩
    cases d
    · exact ⟨e, mem_epNumbers e, he, .inl ⟨b, p, c, h⟩⟩
    · exact ⟨e, mem_epNumbers e, he, .inr ⟨b, p, c, h⟩⟩

/-! ## How operations answer -/

/-- The code and the bytes name the response: no two have the same (R89). -/
theorem response_code_inj {r r' : Response} (hc : r.code = r'.code) (hb : r.bytes = r'.bytes) : r = r' := by
  cases r <;> cases r' <;> simp_all [Response.code, Response.bytes]

/-- The two bits of `H.OUTK` name its kind (R40). -/
theorem outKind_code_inj {k k' : OutKind} (h : k.code = k'.code) : k = k' := by
  revert h
  cases k <;> cases k' <;> decide

/-- A command with an `EP` field goes on only below `N_EP` (R110). -/
theorem onEp_ok {α : Type} {s : State} {d : Dir} {e : BitVec 4} {k : EpRegs → Except Fault α} {v : α} :
    onEp s d e k = .ok v ↔ e.toNat < s.par.nEp ∧ k (s.ep d e) = .ok v := by
  unfold onEp
  split <;> simp [*]

/-- And, where the rule asks for it, only on an initialised direction (R252, `CV_UNINIT`). -/
theorem onInit_ok {α : Type} {s : State} {d : Dir} {e : BitVec 4} {k : EpRegs → Except Fault α} {v : α} :
    onInit s d e k = .ok v ↔ e.toNat < s.par.nEp ∧ (s.ep d e).type ≠ typeDisabled ∧ k (s.ep d e) = .ok v := by
  unfold onInit
  rw [onEp_ok]
  by_cases h : (s.ep d e).type = typeDisabled <;> simp [h]

/-- State that holds a value can be used (R47). -/
theorem valueOf_ok {α : Type} {o : Option α} {v : α} : valueOf o = .ok v ↔ o = some v := by
  cases o <;> simp [valueOf]

/-- The outcome is a next state exactly where the operation answers one. -/
theorem outcomeOf_next {r : Except Fault State} {t : State} : outcomeOf r = .next t ↔ r = .ok t := by
  cases r <;> simp [outcomeOf]

/-- A command completes exactly where no handler runs and its operation answers (R110, R170). -/
theorem command_next {s t : State} {r : Except Fault State} :
    command s r = .next t ↔ s.busy = false ∧ ∃ u, r = .ok u ∧ t = u.give .none := by
  unfold command whenIdle
  cases s.busy <;> cases r <;> simp [outcomeOf, Except.map, eq_comm]

/-- A command with a result completes exactly so too (R89). -/
theorem returning_next {s t : State} {r : Except Fault (State × Word)} :
    returning s r = .next t ↔ s.busy = false ∧ ∃ u, r = .ok u ∧ t = u.1.give (.value u.2) := by
  unfold returning whenIdle
  cases s.busy <;> cases r <;> simp [outcomeOf, Except.map, eq_comm]

/-- A query writes nothing but its result (R69). -/
theorem query_next {s t : State} {r : Except Fault Word} :
    query s r = .next t ↔ s.busy = false ∧ ∃ v, r = .ok v ∧ t = s.give (.value v) := by
  rw [query, returning_next]
  cases r <;> simp [Except.map]

/-- A command that its operation answers. -/
theorem command_of_ok {s u : State} {r : Except Fault State} (hb : s.busy = false) (hr : r = .ok u) :
    command s r = .next (u.give .none) := command_next.2 ⟨hb, u, hr, rfl⟩

/-- A command that its operation turns down. -/
theorem command_of_error {s : State} {r : Except Fault State} {f : Fault} (hb : s.busy = false) (hr : r = .error f) :
    command s r = .fault f := by simp [command, whenIdle, hb, hr, outcomeOf, Except.map]

/-- A command with a result that its operation answers. -/
theorem returning_of_ok {s u : State} {v : Word} {r : Except Fault (State × Word)} (hb : s.busy = false)
    (hr : r = .ok (u, v)) : returning s r = .next (u.give (.value v)) := returning_next.2 ⟨hb, _, hr, rfl⟩

/-- A query that its operation answers. -/
theorem query_of_ok {s : State} {v : Word} {r : Except Fault Word} (hb : s.busy = false) (hr : r = .ok v) :
    query s r = .next (s.give (.value v)) := query_next.2 ⟨hb, v, hr, rfl⟩

/-- A query that its operation turns down. -/
theorem query_of_error {s : State} {r : Except Fault Word} {f : Fault} (hb : s.busy = false) (hr : r = .error f) :
    query s r = .fault f := by simp [query, returning, whenIdle, hb, hr, outcomeOf, Except.map]

/-- While a handler runs, no command is taken (`CV_CONTEXT`, R252). -/
theorem whenIdle_busy {s : State} {r : Except Fault State} (h : s.busy = true) :
    whenIdle s r = .fault .cvContext := by simp [whenIdle, h]

end Sys2Proof.Machine
end

