-- ==== Sys2Proof/Laws/Frames.lean ====
section
/-! SUPPORT. The frames of Safety.lean for the updates the operations are made of, and the bits and fields of the
flag updates. -/
namespace Sys2Proof.Machine

/-- Hardware owns a byte of a range in the words of claims (R65). -/
theorem hwOwns_iff_hardwareOwns {s : State} {a n : Nat} : s.hwOwns a n = true ↔ hardwareOwns s a n := by
  rw [hwOwns_iff]
  simp only [hardwareOwns, bankOwns, meets_iff]
  constructor
  · rintro ⟨d, e, b, p, c, he, hn, hp, hc, x, h1, h2⟩
    exact ⟨x, h1, d, e, b, he, hn, p, c, hp, hc, h2.1, h2.2⟩
  · rintro ⟨x, h1, d, e, b, he, hn, p, c, hp, hc, h2, h3⟩
    exact ⟨d, e, b, p, c, he, hn, hp, hc, x, h1, h2, h3⟩

/-- No handler runs. -/
theorem busy_eq_false {s : State} : s.busy = false ↔ s.hRun = .none := by
  simp [State.busy]

/-- Nothing changed. -/
theorem sameRest_refl (s : State) : sameRest s s := by
  simp [sameRest, sameLaunch, sameHidden, sameLatches, samePorts]

/-- Writing one group and the output changes nothing else. -/
theorem onlyEp_setEp (s : State) (d : Dir) (e : BitVec 4) (x : EpRegs) (o : Output) :
    onlyEp s ((s.setEp d e x).give o) d e := by
  refine ⟨fun d' e' h => ep_setEp_other s d d' e e' x h, fun a => ?_, ?_, ?_⟩
  · exact (by simp : (s.setEp d e x).ramByte a = s.ramByte a)
  · simp [sameGlobalsBut]
  · simp [sameRest, sameLaunch, sameHidden, sameLatches, samePorts]

/-- The group that was written, whatever the output. -/
theorem ep_setEp_out (s : State) (d : Dir) (e : BitVec 4) (x : EpRegs) (o : Output) :
    ((s.setEp d e x).give o).ep d e = x := ep_setEp_same s d e x

/-- Writing only the output changes nothing else. -/
theorem onlyOut_out (s : State) (o : Output) : onlyOut s (s.give o) :=
  ⟨fun _ _ => rfl, fun _ => rfl, ⟨fun _ => rfl, fun _ => rfl, fun _ => rfl, fun _ => rfl, fun _ => rfl,
    fun _ => rfl, fun _ => rfl⟩, ⟨rfl, rfl, rfl⟩, ⟨rfl, rfl, rfl, rfl, rfl, rfl, rfl, rfl, rfl⟩, rfl, rfl, rfl, rfl, rfl⟩

/-- Storing bytes leaves every byte outside their range. -/
theorem setRamBytes_frame (s : State) (a : Nat) (vs : List Byte) : sameRamBut s (s.setRamBytes a vs) a vs.length :=
  fun x hx => by rw [ramByte_setRamBytes, if_neg hx]

/-! ## Flags -/

/-- The named flags are bits of `STATUS` (R23). -/
theorem nack_eq (x : EpRegs) (b : Bank) : x.nack b = x.status.getLsbD (nackBit b) := by cases b <;> rfl

/-- The named flags are bits of `STATUS` (R23). -/
theorem done_eq (x : EpRegs) (b : Bank) : x.done b = x.status.getLsbD (doneBit b) := by cases b <;> rfl

/-- Every bit of a byte after bits were set. -/
theorem getLsbD_or (x m : Byte) (k : Nat) : (x ||| m).getLsbD k = (x.getLsbD k || m.getLsbD k) := by simp

/-- Every bit of a byte after bits were cleared. -/
theorem getLsbD_clear (x m : Byte) (k : Nat) : (x &&& ~~~m).getLsbD k = (x.getLsbD k && !m.getLsbD k) := by
  by_cases h : k < 8
  · simp [h]
  · rw [BitVec.getLsbD_of_ge _ _ (by omega), BitVec.getLsbD_of_ge x _ (by omega), Bool.false_and]

/-- A bit number beyond a byte reads 0 in any byte, so a statement about its bits is one about eight bits. -/
theorem sameBitsBut_iff {x y : Byte} {l : List Nat} :
    sameBitsBut x y l ↔ ∀ k, k < 8 → k ∉ l → y.getLsbD k = x.getLsbD k := by
  constructor
  · intro h k _ hk
    exact h k hk
  · intro h k hk
    by_cases h8 : k < 8
    · exact h k h8 hk
    · rw [BitVec.getLsbD_of_ge _ _ (by omega), BitVec.getLsbD_of_ge _ _ (by omega)]

/-- Setting bits changes no other bit. -/
theorem sameBitsBut_or (x m : Byte) (l : List Nat) (h : ∀ k, k < 8 → k ∉ l → m.getLsbD k = false) :
    sameBitsBut x (x ||| m) l := sameBitsBut_iff.2 fun k h8 hk => by rw [getLsbD_or, h k h8 hk, Bool.or_false]

/-- Clearing bits changes no other bit. -/
theorem sameBitsBut_clear (x m : Byte) (l : List Nat) (h : ∀ k, k < 8 → k ∉ l → m.getLsbD k = false) :
    sameBitsBut x (x &&& ~~~m) l := sameBitsBut_iff.2 fun k h8 hk => by
  rw [getLsbD_clear, h k h8 hk, Bool.not_false, Bool.and_true]

end Sys2Proof.Machine
end

