-- ==== Sys2Proof/Laws/Endpoint.lean ====
section
/-! SUPPORT. What each endpoint operation that writes answers, and what its write does to the flags of the group: the
lemmas that the rules about handlers and the control engine rest on. -/
namespace Sys2Proof.Machine

/-! ## Operations -/

/-- Everything `EP_ARM` can do (R113). -/
theorem epArm_ok {e : BitVec 4} {d : Dir} {b : Bank} {size : BitVec 16} {buf : Addr} {s t : State} :
    epArm e d b size buf s = .ok t ↔
      e.toNat < s.par.nEp ∧ (s.ep d e).type ≠ typeDisabled ∧ ¬(b = .b1 ∧ (s.ep d e).pingpong = false) ∧
      size.toNat ≤ maxPkt (s.ep d e).bufsize ∧ buf.toNat < ramSize s.par ∧ buf.toNat + size.toNat ≤ ramSize s.par ∧
      (s.ep d e).nack b = true ∧ s.hwOwns buf.toNat size.toNat = false ∧
      t = s.setEp d e ((s.ep d e).arm b (size.setWidth 7) buf) := by
  rw [epArm, onInit_ok]
  refine and_congr_right fun _ => and_congr_right fun _ => ?_
  by_cases h1 : b = .b1 ∧ (s.ep d e).pingpong = false
  · simp [h1]
  by_cases h2 : maxPkt (s.ep d e).bufsize < size.toNat
  · simp [h1, h2, Nat.not_le.2 h2]
  by_cases h3 : ramSize s.par ≤ buf.toNat ∨ ramSize s.par < buf.toNat + size.toNat
  · simp only [if_neg h1, if_neg h2, if_pos h3]
    refine ⟨fun h => (nomatch h), fun h => ?_⟩
    omega
  rw [if_neg h1, if_neg h2, if_neg h3]
  by_cases h4 : (s.ep d e).nack b = false
  · rw [if_pos h4]
    exact ⟨fun h => (nomatch h), fun h => absurd h.2.2.2.2.1 (by simp [h4])⟩
  rw [if_neg h4]
  by_cases h5 : s.hwOwns buf.toNat size.toNat = true
  · rw [if_pos h5]
    exact ⟨fun h => (nomatch h), fun h => absurd h.2.2.2.2.2.1 (by simp [h5])⟩
  rw [if_neg h5, Except.ok.injEq]
  simp only [Bool.not_eq_false] at h4
  simp only [Bool.not_eq_true] at h5
  exact ⟨fun h => ⟨h1, by omega, by omega, by omega, h4, h5, h.symm⟩, fun h => h.2.2.2.2.2.2.symm⟩

/-- Everything `EP_CANCEL` can do (R112). -/
theorem epCancel_ok {e : BitVec 4} {d : Dir} {s t : State} :
    epCancel e d s = .ok t ↔ e.toNat < s.par.nEp ∧ (s.ep d e).type ≠ typeDisabled ∧
      t = s.setEp d e ((s.ep d e).orStatus 0x03) := by
  rw [epCancel, onInit_ok, Except.ok.injEq, eq_comm (a := t)]

/-- Everything `EP_STALL` can do (R119). -/
theorem epStall_ok {e : BitVec 4} {d : Dir} {s t : State} :
    epStall e d s = .ok t ↔ e.toNat < s.par.nEp ∧ (s.ep d e).type ≠ typeDisabled ∧
      t = s.setEp d e (s.ep d e).setStall := by
  rw [epStall, onInit_ok, Except.ok.injEq, eq_comm (a := t)]

/-- Everything `EP_INIT` can do (R111). -/
theorem epInit_ok {e : BitVec 4} {d : Dir} {type bufsize : BitVec 2} {pingpong : Bool} {s t : State} :
    epInit e d type bufsize pingpong s = .ok t ↔ e.toNat < s.par.nEp ∧ type ≠ typeReserved ∧
      ¬(type = typeControl ∧ pingpong = true) ∧ t = s.setEp d e (EpRegs.initialised type bufsize pingpong) := by
  rw [epInit, onEp_ok]
  by_cases h1 : type = typeReserved <;> by_cases h2 : type = typeControl ∧ pingpong = true <;> simp [h1, h2, eq_comm]

/-- Everything `EP_TAC` can do (R121). -/
theorem epTac_ok {e : BitVec 4} {d : Dir} {mask : Byte} {s : State} {r : State × Byte} :
    epTac e d mask s = .ok r ↔ e.toNat < s.par.nEp ∧
      r = (s.setEp d e ((s.ep d e).clearStatus (mask &&& 0x3F)), (s.ep d e).status) := by
  rw [epTac, onEp_ok, Except.ok.injEq, eq_comm (a := r)]

/-! ## Sizes -/

/-- No class holds more than 64 bytes (R7). -/
theorem maxPkt_le (c : BitVec 2) : maxPkt c ≤ 64 := by revert c; decide

/-- Every class holds at least 8 bytes (R7). -/
theorem maxPkt_ge (c : BitVec 2) : 8 ≤ maxPkt c := by revert c; decide

/-- The operand of an `EP_ARM` with a whole packet of EP0 (R132, R205). -/
theorem maxPkt0Operand_toNat (p : Params) : (maxPkt0Operand p).toNat = maxPkt0 p := by
  have := maxPkt_le p.ep0Size
  simp only [maxPkt0Operand, maxPkt0, BitVec.toNat_ofNat]
  omega

/-- A size that fits a packet fits the 7 bits of `CNT` (R24). -/
theorem toNat_count {c : BitVec 2} {n : BitVec 16} (h : n.toNat ≤ maxPkt c) : (n.setWidth 7).toNat = n.toNat := by
  have := maxPkt_le c
  rw [BitVec.toNat_setWidth, Nat.mod_eq_of_lt (by omega)]

/-! ## Groups -/

/-- Both banks are idle after `EP_INIT` (R111). -/
@[simp] theorem nack_initialised (type bufsize : BitVec 2) (pingpong : Bool) (b : Bank) :
    (EpRegs.initialised type bufsize pingpong).nack b = true := by
  cases b <;> simp [EpRegs.nack, EpRegs.initialised]

/-- The configuration after `EP_INIT` (R111). -/
theorem initialised_fields (type bufsize : BitVec 2) (pingpong : Bool) :
    (EpRegs.initialised type bufsize pingpong).type = type ∧
    (EpRegs.initialised type bufsize pingpong).bufsize = bufsize ∧
    (EpRegs.initialised type bufsize pingpong).pingpong = pingpong ∧
    (EpRegs.initialised type bufsize pingpong).stall = false := by
  revert type bufsize pingpong
  decide

/-- Both banks of a direction that is off are idle (R281). -/
@[simp] theorem nack_off (b : Bank) : EpRegs.off.nack b = true := by cases b <;> rfl

/-- Arming leaves the configuration alone (R113). -/
@[simp] theorem ctrl_arm (x : EpRegs) (b : Bank) (n : BitVec 7) (a : Addr) : (x.arm b n a).ctrl = x.ctrl := by
  cases b <;> rfl

/-- What arming writes (R113, R26). -/
theorem armedAs_arm (x : EpRegs) (b : Bank) (n : BitVec 16) (a : Addr) (h : n.toNat ≤ maxPkt x.bufsize) :
    armedAs x (x.arm b (n.setWidth 7) a) b n.toNat a := by
  have bits : ∀ b : Bank, ∀ k, k < 8 → k ∉ [nackBit b, doneBit b] →
      (doneMask b).getLsbD k = false ∧ (nackMask b).getLsbD k = false := by
    intro b
    cases b <;> decide
  refine ⟨ctrl_arm .., ?_, ?_, ?_, ?_, ⟨n.setWidth 7, ?_, toNat_count h⟩, ?_⟩
  · cases b <;> simp [EpRegs.arm, EpRegs.nack, EpRegs.clearStatus, nackMask, doneMask]
  · cases b <;> simp [EpRegs.arm, EpRegs.done, EpRegs.clearStatus, nackMask, doneMask]
  · refine sameBitsBut_iff.2 fun k h8 hk => ?_
    have : (x.arm b (n.setWidth 7) a).status = (x.status &&& ~~~doneMask b) &&& ~~~nackMask b := by cases b <;> rfl
    rw [this, getLsbD_clear, getLsbD_clear, (bits b k h8 hk).1, (bits b k h8 hk).2]
    simp
  · cases b <;> rfl
  · cases b <;> rfl
  · intro b' hb
    cases b <;> cases b' <;> first | exact absurd rfl hb | exact ⟨rfl, rfl⟩

/-- What completion writes (R142). -/
theorem completedStatus_completed (x : EpRegs) (b : Bank) : completedStatus x (x.completed b) b := by
  have bits : ∀ b : Bank, ∀ k, k < 8 → k ∉ [nackBit b, doneBit b, 5] →
      (doneMask b).getLsbD k = false ∧ (nackMask b).getLsbD k = false ∧ (0x20#8).getLsbD k = false := by
    intro b
    cases b <;> decide
  unfold EpRegs.completed completedStatus
  cases hp : x.pingpong
  · refine ⟨?_, ?_, ?_, sameBitsBut_iff.2 fun k h8 hk => ?_⟩
    · cases b <;> simp [EpRegs.nack, EpRegs.orStatus, nackMask, doneMask]
    · cases b <;> simp [EpRegs.done, EpRegs.orStatus, nackMask, doneMask]
    · cases b <;> simp [EpRegs.orStatus, nackMask, doneMask]
    · simp [EpRegs.orStatus, (bits b k h8 hk).1, (bits b k h8 hk).2.1]
  · refine ⟨?_, ?_, ?_, sameBitsBut_iff.2 fun k h8 hk => ?_⟩
    · cases b <;> simp [EpRegs.nack, EpRegs.orStatus, nackMask, doneMask]
    · cases b <;> simp [EpRegs.done, EpRegs.orStatus, nackMask, doneMask]
    · cases b <;> simp [EpRegs.orStatus, nackMask, doneMask]
    · simp [EpRegs.orStatus, BitVec.getLsbD_xor, (bits b k h8 hk).1, (bits b k h8 hk).2.1, (bits b k h8 hk).2.2]

end Sys2Proof.Machine
end

