-- ==== Sys2Proof/Laws/Bus.lean ====
section
/-! SUPPORT. Everything a bus event can do, one inversion lemma an event, and what its writes do to the flags. -/
namespace Sys2Proof.Machine

/-- The token filter in the words of R140. -/
theorem filtered_iff {s : State} {d : Dir} {e : BitVec 4} {a : BitVec 7} :
    s.filtered d e a = true ↔ s.gctrl.getLsbD 0 = false ∨ a ≠ s.addr ∨ s.par.nEp ≤ e.toNat ∨
      (s.ep d e).type = typeDisabled := by
  simp [State.filtered, State.attached, or_assoc]

/-- An accepted SETUP (R143): `s` becomes this state. -/
def State.setupTaken (s : State) (e : BitVec 4) (buf : Addr) (payload : List Byte) : State :=
  (((((s.setRamBytes buf.toNat payload).setEp .OUT e ((s.ep .OUT e).setupAccepted s.par.setupSetsDone0)).setEp .IN e
    (s.ep .IN e).setupWithdrawn).raiseB setupif).respond .ack)

/-- An accepted OUT transaction (R144). -/
def State.outTaken (s : State) (e : BitVec 4) (b : Bank) (buf : Addr) (payload : List Byte) : State :=
  (((s.setRamBytes buf.toNat payload).setEp .OUT e
    (((s.ep .OUT e).setCnt b (BitVec.ofNat 7 payload.length)).completed b)).raiseB trnif).respond .ack

/-- Everything `BUS_SETUP` can do (R143). -/
theorem busSetup_cases {s t : State} {e : BitVec 4} {a : BitVec 7} {payload : List Byte}
    (h : busSetup e a payload s = .ok t) :
    t = s.respond .none ∨ (∃ r, (r = .nak ∨ r = .none) ∧ t = (s.raiseA ovfif).respond r) ∨
    ∃ c buf, s.filtered .OUT e a = false ∧ (s.ep .OUT e).type = typeControl ∧ payload.length = 8 ∧
      (s.ep .OUT e).nack .b0 = false ∧ (s.ep .OUT e).cnt .b0 = some c ∧ 8 ≤ c.toNat ∧
      (s.ep .OUT e).ptr .b0 = some buf ∧ buf.toNat + 8 ≤ ramSize s.par ∧ t = s.setupTaken e buf payload := by
  unfold busSetup at h
  by_cases h1 : s.filtered .OUT e a = true
  · simp only [h1, if_true, Except.ok.injEq] at h
    exact .inl h.symm
  by_cases h2 : (s.ep .OUT e).type ≠ typeControl
  · simp only [if_neg h1, if_pos h2, Except.ok.injEq] at h
    exact .inl h.symm
  by_cases h3 : payload.length ≠ 8
  · simp only [if_neg h1, if_neg h2, if_pos h3, Except.ok.injEq] at h
    exact .inl h.symm
  by_cases h4 : (s.ep .OUT e).nack .b0 = true
  · simp only [if_neg h1, if_neg h2, if_neg h3, if_pos h4, Except.ok.injEq] at h
    exact .inr (.inl ⟨_, .inl rfl, h.symm⟩)
  simp only [if_neg h1, if_neg h2, if_neg h3, if_neg h4, bind, Except.bind] at h
  have h3 : payload.length = 8 := Decidable.not_not.1 h3
  cases hc : (s.ep .OUT e).cnt .b0 with
  | none => simp [hc, valueOf] at h
  | some c =>
    by_cases h5 : c.toNat < 8
    · simp only [hc, valueOf, if_pos h5, Except.ok.injEq] at h
      exact .inr (.inl ⟨_, .inr rfl, h.symm⟩)
    cases hb : (s.ep .OUT e).ptr .b0 with
    | none => simp [hc, hb, valueOf, h5] at h
    | some buf =>
      simp only [hc, hb, valueOf, if_neg h5] at h
      split at h
      · cases h
      · rename_i u hu
        obtain ⟨hr, rfl⟩ := memWrite_ok.1 hu
        have hne : payload ≠ [] := by rintro rfl; simp at h3
        exact .inr (.inr ⟨c, buf, by simpa using h1, Decidable.not_not.1 h2, h3, by simpa using h4, rfl, by omega, rfl,
          by have := hr.resolve_left hne; omega, (Except.ok.inj h).symm⟩)

/-- Everything `BUS_OUT` can do (R144). -/
theorem busOut_cases {s t : State} {e : BitVec 4} {a : BitVec 7} {payload : List Byte}
    (h : busOut e a payload s = .ok t) :
    t = s.respond .none ∨ t = (s.raiseA stallif).respond .stall ∨
    (∃ r, (r = .nak ∨ r = .none) ∧ t = (s.raiseA ovfif).respond r) ∨
    ∃ b c buf, b = (s.ep .OUT e).sel ∧ s.filtered .OUT e a = false ∧ (s.ep .OUT e).stall = false ∧
      (s.ep .OUT e).nack b = false ∧ (s.ep .OUT e).cnt b = some c ∧ payload.length ≤ c.toNat ∧
      (s.ep .OUT e).ptr b = some buf ∧ (payload = [] ∨ buf.toNat + payload.length ≤ ramSize s.par) ∧
      t = s.outTaken e b buf payload := by
  simp only [busOut] at h
  generalize hs : (s.ep .OUT e).sel = b at h
  by_cases h1 : s.filtered .OUT e a = true
  · simp only [h1, if_true, Except.ok.injEq] at h
    exact .inl h.symm
  by_cases h2 : (s.ep .OUT e).stall = true
  · simp only [if_neg h1, if_pos h2, Except.ok.injEq] at h
    exact .inr (.inl h.symm)
  by_cases h4 : (s.ep .OUT e).nack b = true
  · simp only [if_neg h1, if_neg h2, if_pos h4, Except.ok.injEq] at h
    exact .inr (.inr (.inl ⟨_, .inl rfl, h.symm⟩))
  simp only [if_neg h1, if_neg h2, if_neg h4, bind, Except.bind] at h
  cases hc : (s.ep .OUT e).cnt b with
  | none => simp [hc, valueOf] at h
  | some c =>
    by_cases h5 : c.toNat < payload.length
    · simp only [hc, valueOf, if_pos h5, Except.ok.injEq] at h
      exact .inr (.inr (.inl ⟨_, .inr rfl, h.symm⟩))
    cases hb : (s.ep .OUT e).ptr b with
    | none => simp [hc, hb, valueOf, h5] at h
    | some buf =>
      simp only [hc, hb, valueOf, if_neg h5] at h
      split at h
      · cases h
      · rename_i u hu
        obtain ⟨hr, rfl⟩ := memWrite_ok.1 hu
        refine .inr (.inr (.inr ⟨b, c, buf, rfl, by simpa using h1, by simpa using h2, by simpa using h4, hc, by omega,
          hb, hr, ?_⟩))
        rw [← Except.ok.inj h]
        simp [State.complete, State.outTaken, State.setEp, State.ep]

/-- Everything `BUS_IN` can do (R145). -/
theorem busIn_cases {s t : State} {e : BitVec 4} {a : BitVec 7} {hack : Bool} (h : busIn e hack a s = .ok t) :
    t = s.respond .none ∨ t = (s.raiseA stallif).respond .stall ∨ t = (s.raiseA unfif).respond .nak ∨
    ∃ b bytes, b = (s.ep .IN e).sel ∧ s.filtered .IN e a = false ∧ (s.ep .IN e).stall = false ∧
      (s.ep .IN e).nack b = false ∧
      t = (if hack = true then s.complete .IN e b else s).respond (.data bytes) := by
  simp only [busIn] at h
  generalize hs : (s.ep .IN e).sel = b at h
  by_cases h1 : s.filtered .IN e a = true
  · simp only [h1, if_true, Except.ok.injEq] at h
    exact .inl h.symm
  by_cases h2 : (s.ep .IN e).stall = true
  · simp only [if_neg h1, if_pos h2, Except.ok.injEq] at h
    exact .inr (.inl h.symm)
  by_cases h4 : (s.ep .IN e).nack b = true
  · simp only [if_neg h1, if_neg h2, if_pos h4, Except.ok.injEq] at h
    exact .inr (.inr (.inl h.symm))
  simp only [if_neg h1, if_neg h2, if_neg h4, bind, Except.bind] at h
  split at h; · cases h
  split at h; · cases h
  split at h; · cases h
  exact .inr (.inr (.inr ⟨b, _, rfl, by simpa using h1, by simpa using h2, by simpa using h4, (Except.ok.inj h).symm⟩))

/-- Everything a bus condition can do (R146 to R150). -/
theorem condition_cases (s : State) (flag : Byte) :
    s.condition flag = s.respond .none ∨ s.condition flag = (s.raiseA flag).respond .none := by
  unfold State.condition
  cases s.attached
  · exact .inl rfl
  · exact .inr rfl

/-- A transaction passes the filter only for an existing endpoint (R140). -/
theorem lt_of_not_filtered {s : State} {d : Dir} {e : BitVec 4} {a : BitVec 7} (h : s.filtered d e a = false) :
    e.toNat < s.par.nEp := by
  rw [← Bool.not_eq_true, filtered_iff] at h
  simp only [not_or] at h
  omega

/-- The flags of `INTFLAGSA`, one bit each (R32). -/
def flagsA : List Byte := [sofif, crcif, unfif, ovfif, stallif, suspendif, resumeif, rstif]

/-- Everything a bus event can do: answer and change nothing, set one flag of `INTFLAGSA`, or complete a transaction
(R140 to R152). -/
theorem busEvent_cases {i : Instr} {s t : State} (hi : isBusEvent i = true) (h : exec i s = .next t) :
    (∃ r, t = s.respond r) ∨
    (∃ m r, (r = .none ∨ r = .nak ∨ r = .stall) ∧ m ∈ flagsA ∧ t = (s.raiseA m).respond r) ∨
    (∃ e a p c buf, i = .busSetup e a p ∧ e.toNat < s.par.nEp ∧ (s.ep .OUT e).type = typeControl ∧ p.length = 8 ∧
      (s.ep .OUT e).nack .b0 = false ∧ (s.ep .OUT e).cnt .b0 = some c ∧ 8 ≤ c.toNat ∧
      (s.ep .OUT e).ptr .b0 = some buf ∧ buf.toNat + 8 ≤ ramSize s.par ∧ t = s.setupTaken e buf p) ∨
    (∃ e a p b c buf, i = .busOut e a p ∧ b = (s.ep .OUT e).sel ∧ e.toNat < s.par.nEp ∧
      (s.ep .OUT e).nack b = false ∧ (s.ep .OUT e).cnt b = some c ∧ p.length ≤ c.toNat ∧
      (s.ep .OUT e).ptr b = some buf ∧ (p = [] ∨ buf.toNat + p.length ≤ ramSize s.par) ∧
      t = s.outTaken e b buf p) ∨
    (∃ e a b bytes, i = .busIn e true a ∧ b = (s.ep .IN e).sel ∧ e.toNat < s.par.nEp ∧
      (s.ep .IN e).nack b = false ∧ t = (s.complete .IN e b).respond (.data bytes)) := by
  have cond : ∀ m, m ∈ flagsA → Host.Outcome.next (s.condition m) = (.next t : Host.Outcome State Fault Refusal) →
      (∃ r, t = s.respond r) ∨
      (∃ m r, (r = .none ∨ r = .nak ∨ r = .stall) ∧ m ∈ flagsA ∧ t = (s.raiseA m).respond r) := by
    intro m hm h
    injection h with h
    rcases condition_cases s m with hc | hc
    · exact .inl ⟨_, h.symm.trans hc⟩
    · exact .inr ⟨m, _, .inl rfl, hm, h.symm.trans hc⟩
  cases i with
  | busSetup e a p =>
    rcases busSetup_cases (outcomeOf_next.1 h) with rfl | ⟨r, hr, rfl⟩ | ⟨c, buf, h1, h2, h3, h4, h5, h6, h7, h8, h9⟩
    · exact .inl ⟨_, rfl⟩
    · exact .inr (.inl ⟨ovfif, r, by rcases hr with rfl | rfl <;> simp, by simp [flagsA], rfl⟩)
    · exact .inr (.inr (.inl ⟨e, a, p, c, buf, rfl, lt_of_not_filtered h1, h2, h3, h4, h5, h6, h7, h8, h9⟩))
  | busOut e a p =>
    rcases busOut_cases (outcomeOf_next.1 h) with
      rfl | rfl | ⟨r, hr, rfl⟩ | ⟨b, c, buf, h1, h2, h3, h4, h5, h6, h7, h8, h9⟩
    · exact .inl ⟨_, rfl⟩
    · exact .inr (.inl ⟨stallif, _, by simp, by simp [flagsA], rfl⟩)
    · exact .inr (.inl ⟨ovfif, r, by rcases hr with rfl | rfl <;> simp, by simp [flagsA], rfl⟩)
    · exact .inr (.inr (.inr (.inl ⟨e, a, p, b, c, buf, rfl, h1, lt_of_not_filtered h2, h4, h5, h6, h7, h8, h9⟩)))
  | busIn e k a =>
    rcases busIn_cases (outcomeOf_next.1 h) with rfl | rfl | rfl | ⟨b, bytes, h1, h2, h3, h4, h5⟩
    · exact .inl ⟨_, rfl⟩
    · exact .inr (.inl ⟨stallif, _, by simp, by simp [flagsA], rfl⟩)
    · exact .inr (.inl ⟨unfif, _, by simp, by simp [flagsA], rfl⟩)
    · cases k
      · exact .inl ⟨_, h5⟩
      · exact .inr (.inr (.inr (.inr ⟨e, a, b, bytes, rfl, h1, lt_of_not_filtered h2, h4, h5⟩)))
  | busSof => exact (cond sofif (by simp [flagsA]) h).imp id .inl
  | busReset => exact (cond rstif (by simp [flagsA]) h).imp id .inl
  | busSuspend => exact (cond suspendif (by simp [flagsA]) h).imp id .inl
  | busResume => exact (cond resumeif (by simp [flagsA]) h).imp id .inl
  | busCrcerr => exact (cond crcif (by simp [flagsA]) h).imp id .inl
  | _ => cases hi

/-! ## What the writes do to a group -/

/-- The selected bank (R141). -/
theorem sel_eq (x : EpRegs) : x.sel = if x.pingpong = true ∧ x.status.getLsbD 5 = true then .b1 else .b0 :=
  ite_congr (Bool.and_eq_true _ _) (fun _ => rfl) (fun _ => rfl)

/-- Completion writes only `STATUS` (R142). -/
theorem completed_fields (x : EpRegs) (b : Bank) :
    (x.completed b).ctrl = x.ctrl ∧ ∀ b', (x.completed b).cnt b' = x.cnt b' ∧ (x.completed b).ptr b' = x.ptr b' := by
  unfold EpRegs.completed
  split <;> exact ⟨rfl, fun b' => by cases b' <;> exact ⟨rfl, rfl⟩⟩

/-- Writing a count writes nothing else (R24). -/
theorem setCnt_fields (x : EpRegs) (b : Bank) (n : BitVec 7) :
    (x.setCnt b n).ctrl = x.ctrl ∧ (x.setCnt b n).status = x.status ∧ (x.setCnt b n).cnt b = some n ∧
    (∀ b', b' ≠ b → (x.setCnt b n).cnt b' = x.cnt b') ∧ ∀ b', (x.setCnt b n).ptr b' = x.ptr b' := by
  cases b <;> refine ⟨rfl, rfl, rfl, fun b' h => ?_, fun b' => by cases b' <;> rfl⟩ <;>
    cases b' <;> first | exact absurd rfl h | rfl

/-- An accepted SETUP on the OUT direction (R143). -/
theorem setupAccepted_fields (x : EpRegs) (f : Bool) :
    (x.setupAccepted f).ctrl = x.ctrl &&& ~~~0x20 ∧ (x.setupAccepted f).cnt .b0 = some 8 ∧
    (x.setupAccepted f).cnt .b1 = x.cnt .b1 ∧ (∀ b, (x.setupAccepted f).ptr b = x.ptr b) ∧
    (x.setupAccepted f).status = x.status ||| (if f = true then 0x15 else 0x11) := by
  cases f <;> refine ⟨rfl, rfl, rfl, fun b => by cases b <;> rfl, ?_⟩ <;>
    simp [EpRegs.setupAccepted, EpRegs.setCnt, EpRegs.orStatus, EpRegs.clrStall, BitVec.or_assoc]

/-- An accepted SETUP on the IN direction (R143). -/
theorem setupWithdrawn_fields (x : EpRegs) :
    x.setupWithdrawn.ctrl = x.ctrl &&& ~~~0x20 ∧ (∀ b, x.setupWithdrawn.cnt b = x.cnt b) ∧
    (∀ b, x.setupWithdrawn.ptr b = x.ptr b) ∧ x.setupWithdrawn.status = x.status ||| 0x01 :=
  ⟨rfl, fun b => by cases b <;> rfl, fun b => by cases b <;> rfl, rfl⟩

/-- Completion clears no `NACK`, `DONE` or `SETUP` flag (R142, R153). -/
theorem completed_mono (x : EpRegs) (b b' : Bank) : (x.nack b' = true → (x.completed b).nack b' = true) ∧ (x.done b' = true → (x.completed b).done b' = true) ∧ (x.setup = true → (x.completed b).setup = true) := by
  have := (completedStatus_completed x b)
  obtain ⟨h1, h2, h3, h4⟩ := this
  refine ⟨?_, ?_, ?_⟩
  · intro h
    by_cases hb : b' = b
    · subst hb; exact h1
    · rw [nack_eq] at h ⊢; rw [h4, h]; cases b <;> cases b' <;> simp_all [nackBit, doneBit]
  · intro h
    by_cases hb : b' = b
    · subst hb; exact h2
    · rw [done_eq] at h ⊢; rw [h4, h]; cases b <;> cases b' <;> simp_all [nackBit, doneBit]
  · intro h
    unfold EpRegs.setup at h ⊢; rw [h4, h]; cases b <;> simp [nackBit, doneBit]

end Sys2Proof.Machine
end

