-- ==== Sys2Proof/Laws/Engine.lean ====
section
/-! SUPPORT. What the building blocks of the control engine answer: the first arming of EP0 IN, `RearmOut`, and the
check that a terminal command is inside a dispatch. -/
namespace Sys2Proof.Machine

/-- Writing a group to what it is changes nothing. -/
theorem setEp_self (s : State) (d : Dir) (e : BitVec 4) : s.setEp d e (s.ep d e) = s := by
  cases d <;> simp [State.setEp, State.ep]

/-- A terminal command outside a dispatch is turned down (R200 to R203). -/
theorem inDispatch_ok {s t : State} {r : Except Fault State} :
    inDispatch s r = .ok t ↔ s.ctlstate = csSetup ∧ r = .ok t := by
  unfold inDispatch
  by_cases h : s.ctlstate = csSetup <;> simp [h]

/-- Outside `SetupReceived` a terminal command is `CV_DISPATCH` (R208). -/
theorem inDispatch_of_ne {s : State} {r : Except Fault State} (h : s.ctlstate ≠ csSetup) :
    inDispatch s r = .error .cvDispatch := if_pos h

/-- In `SetupReceived` a terminal command is taken (R208). -/
theorem inDispatch_of_eq {s : State} {r : Except Fault State} (h : s.ctlstate = csSetup) : inDispatch s r = r :=
  if_neg (not_not_intro h)

/-- Everything `RearmOut` can do (R205). -/
theorem rearmOut_ok {s t : State} :
    rearmOut s = .ok t ↔ ((s.ep .OUT 0).nack .b0 = false ∧ t = s) ∨
      ((s.ep .OUT 0).nack .b0 = true ∧
        epArm 0 .OUT .b0 (maxPkt0Operand s.par) s.par.ep0OutBuf s = .ok t) := by
  unfold rearmOut
  cases (s.ep .OUT 0).nack .b0 <;> simp [eq_comm]

/-- Whatever `RearmOut` did, it wrote only EP0 OUT, and that is armed now (R205). -/
theorem rearmOut_armed {s t : State} (h : rearmOut s = .ok t) :
    ∃ x, t = s.setEp .OUT 0 x ∧ x.nack .b0 = false ∧ x.ctrl = (s.ep .OUT 0).ctrl := by
  rcases rearmOut_ok.1 h with ⟨hn, rfl⟩ | ⟨-, ha⟩
  · exact ⟨_, (setEp_self ..).symm, hn, rfl⟩
  · obtain ⟨-, -, -, hs, -, -, -, -, rfl⟩ := epArm_ok.1 ha
    exact ⟨_, rfl, (armedAs_arm _ _ _ _ hs).2.1, ctrl_arm ..⟩

/-- `RearmOut` arms EP0 OUT where EP0 is initialised and nothing else owns its buffer (R205). -/
theorem rearmOut_of_free {s : State} (hp : paramsLegal s.par) (hu : (s.ep .OUT 0).type ≠ typeDisabled)
    (hc : (s.ep .OUT 0).bufsize = s.par.ep0Size) (hf : outBufFree s) :
    ∃ x, rearmOut s = .ok (s.setEp .OUT 0 x) ∧
      if (s.ep .OUT 0).nack .b0 = true then armedAs (s.ep .OUT 0) x .b0 (maxPkt0 s.par) s.par.ep0OutBuf
      else x = s.ep .OUT 0 := by
  have hs := maxPkt0Operand_toNat s.par
  have hm : maxPkt0 s.par = maxPkt (s.ep .OUT 0).bufsize := by rw [hc, maxPkt0]
  by_cases hn : (s.ep .OUT 0).nack .b0 = true
  · refine ⟨_, rearmOut_ok.2 (.inr ⟨hn, epArm_ok.2 ⟨?_, hu, by simp, by omega, ?_, by omega, hn, ?_, rfl⟩⟩), ?_⟩
    · exact hp.1
    · have := maxPkt_ge s.par.ep0Size
      simp only [paramsLegal, maxPkt0] at hp
      omega
    · rw [hs, ← Bool.not_eq_true, hwOwns_iff_hardwareOwns]
      exact hf hn
    · rw [if_pos hn]
      have := armedAs_arm (s.ep .OUT 0) .b0 (maxPkt0Operand s.par) s.par.ep0OutBuf (by omega)
      rwa [hs] at this
  · refine ⟨s.ep .OUT 0, ?_, by rw [if_neg hn]⟩
    rw [setEp_self]
    exact rearmOut_ok.2 (.inl ⟨by simpa using hn, rfl⟩)

/-- `RearmOut` is `CV_OWNERSHIP` where EP0 OUT is idle and an armed bank owns a byte of its buffer (R205, R113). -/
theorem rearmOut_of_owned {s : State} (hp : paramsLegal s.par) (hu : (s.ep .OUT 0).type ≠ typeDisabled)
    (hc : (s.ep .OUT 0).bufsize = s.par.ep0Size) (hf : ¬outBufFree s) : rearmOut s = .error .cvOwnership := by
  have hs := maxPkt0Operand_toNat s.par
  have hm : maxPkt0 s.par = maxPkt (s.ep .OUT 0).bufsize := by rw [hc, maxPkt0]
  have hn : (s.ep .OUT 0).nack .b0 = true := Decidable.byContradiction fun h => hf fun h' => absurd h' h
  have ho : s.hwOwns s.par.ep0OutBuf.toNat (maxPkt0 s.par) = true :=
    Decidable.byContradiction fun h => hf fun _ h' => h (hwOwns_iff_hardwareOwns.2 h')
  have hr : ¬(ramSize s.par ≤ s.par.ep0OutBuf.toNat ∨ ramSize s.par < s.par.ep0OutBuf.toNat + maxPkt0 s.par) := by
    have := maxPkt_ge s.par.ep0Size
    simp only [paramsLegal, maxPkt0] at hp ⊢
    omega
  rw [rearmOut, if_pos hn, epArm, onInit, onEp, if_pos (show (0 : BitVec 4).toNat < s.par.nEp from hp.1), if_neg hu,
    if_neg (by simp), hs, if_neg (by omega), if_neg hr, if_neg (by rw [hn]; decide), if_pos ho]

/-- The first arming of EP0 IN (R200, R202, R196). -/
theorem armIn_of_free {s : State} {size : BitVec 16} (hp : paramsLegal s.par)
    (hu : (s.ep .IN 0).type ≠ typeDisabled) (hc : (s.ep .IN 0).bufsize = s.par.ep0Size)
    (hn : (s.ep .IN 0).nack .b0 = true) (hs : size.toNat ≤ maxPkt0 s.par)
    (ho : ¬hardwareOwns s s.par.ep0InBuf.toNat size.toNat) :
    ∃ x, armIn size s = .ok (s.setEp .IN 0 x) ∧ armedAs (s.ep .IN 0) x .b0 size.toNat s.par.ep0InBuf := by
  have hm : maxPkt0 s.par = maxPkt (s.ep .IN 0).bufsize := by rw [hc, maxPkt0]
  refine ⟨_, epArm_ok.2 ⟨hp.1, hu, by simp, by omega, ?_, by omega, hn, ?_, rfl⟩, armedAs_arm _ _ _ _ (by omega)⟩
  · have := maxPkt_ge s.par.ep0Size
    simp only [paramsLegal, maxPkt0] at hp
    omega
  · rw [← Bool.not_eq_true, hwOwns_iff_hardwareOwns]
    exact ho

/-- Hardware owns no byte of an empty range. -/
theorem not_hardwareOwns_zero (s : State) (a : Nat) : ¬hardwareOwns s a 0 := by
  rintro ⟨x, h, -⟩
  omega

/-- Arming EP0 IN inside its own buffer leaves EP0 OUT's buffer free (R6: the buffers are disjoint). -/
theorem outBufFree_armIn {s : State} {x : EpRegs} {n : Nat} (hp : paramsLegal s.par) (hn : n ≤ maxPkt0 s.par)
    (ha : armedAs (s.ep .IN 0) x .b0 n s.par.ep0InBuf) (hf : outBufFree s) : outBufFree (s.setEp .IN 0 x) := by
  intro hi
  simp only [ep_setEp_in_out] at hi
  rintro ⟨y, hy, d, e, b, he, hna, p, c, hq, hc, h1, h2⟩
  refine hf hi ⟨y, by simpa using hy, ?_⟩
  by_cases hd : d = .IN ∧ e = 0
  · obtain ⟨rfl, rfl⟩ := hd
    simp only [ep_setEp_same] at hna hq hc
    cases b with
    | b0 =>
      obtain ⟨-, -, -, -, hp', ⟨c', hc', hl⟩, -⟩ := ha
      rw [hp'] at hq
      rw [hc'] at hc
      injection hq with hq
      injection hc with hc
      subst hq hc
      simp only [setEp_fields] at hy
      simp only [paramsLegal] at hp
      omega
    | b1 =>
      have hb := ha.2.2.2.2.2.2 .b1 (by decide)
      have hs := ha.2.2.2.1 1 (by decide)
      exact ⟨.IN, 0, .b1, by simpa using he, by rw [nack_eq] at hna ⊢; exact hs ▸ hna, p, c, hb.2 ▸ hq, hb.1 ▸ hc, h1, h2⟩
  · rw [ep_setEp_other _ _ _ _ _ _ hd] at hna hq hc
    exact ⟨d, e, b, by simpa using he, hna, p, c, hq, hc, h1, h2⟩

/-- Arming EP0 IN where it was idle takes nothing from who owned EP0 OUT's buffer. -/
theorem outBufFree_of_armIn {s : State} {x : EpRegs} {n : Nat} (hn : (s.ep .IN 0).nack .b0 = true)
    (ha : armedAs (s.ep .IN 0) x .b0 n s.par.ep0InBuf) (hf : outBufFree (s.setEp .IN 0 x)) : outBufFree s := by
  intro hi
  rintro ⟨y, hy, d, e, b, he, hna, p, c, hq, hc, h1, h2⟩
  refine hf (by simpa using hi) ⟨y, by simpa using hy, d, e, b, by simpa using he, ?_⟩
  by_cases hd : d = .IN ∧ e = 0
  · obtain ⟨rfl, rfl⟩ := hd
    cases b with
    | b0 => exact absurd (hn.symm.trans hna) (by decide)
    | b1 =>
      have hb := ha.2.2.2.2.2.2 .b1 (by decide)
      have hs := ha.2.2.2.1 1 (by decide)
      simp only [ep_setEp_same]
      exact ⟨by rw [nack_eq] at hna ⊢; exact hs.trans hna, p, c, hb.2.trans hq, hb.1.trans hc, h1, h2⟩
  · rw [ep_setEp_other _ _ _ _ _ _ hd]
    exact ⟨hna, p, c, hq, hc, h1, h2⟩

end Sys2Proof.Machine
end

