-- ==== Sys2Proof/Laws/Context.lean ====
section
/-! SUPPORT. The operations that the engine and firmware share look at no hidden state: run in another context they do
the same (R110, R191: a command issued inside a handler is the command of the same name). -/
namespace Sys2Proof.Machine

/-- The state with another handler, micro-step, dispatch and output. -/
def State.inContext (s : State) (h : HRun) (n : Option Nat) (l : List DispStep) (o : Output) : State :=
  { s with hRun := h, hStep := n, disp := l, out := o }

variable (s : State) (h : HRun) (n : Option Nat) (l : List DispStep) (o : Output)

@[simp] theorem ep_inContext (d : Dir) (e : BitVec 4) : (s.inContext h n l o).ep d e = s.ep d e := by cases d <;> rfl

@[simp] theorem par_inContext : (s.inContext h n l o).par = s.par := rfl

@[simp] theorem ctlstate_inContext : (s.inContext h n l o).ctlstate = s.ctlstate := rfl

theorem setEp_inContext (d : Dir) (e : BitVec 4) (x : EpRegs) :
    (s.inContext h n l o).setEp d e x = (s.setEp d e x).inContext h n l o := by cases d <;> rfl

theorem setCtl_inContext (c : Byte) : (s.inContext h n l o).setCtl c = (s.setCtl c).inContext h n l o := rfl

theorem emit_inContext (x : Note) : (s.inContext h n l o).emit x = (s.emit x).inContext h n l o := rfl

theorem setRamBytes_inContext (a : Nat) (vs : List Byte) :
    (s.inContext h n l o).setRamBytes a vs = (s.setRamBytes a vs).inContext h n l o := by
  induction vs generalizing s a with
  | nil => rfl
  | cons v vs ih => exact ih (s.setRamByte a v) (a + 1)

theorem ramBytes_inContext (a k : Nat) : (s.inContext h n l o).ramBytes a k = s.ramBytes a k := by
  induction k generalizing a with
  | zero => rfl
  | succ k ih =>
    simp only [State.ramBytes, ih]
    rfl

theorem hwOwns_inContext (a k : Nat) : (s.inContext h n l o).hwOwns a k = s.hwOwns a k := by
  simp only [State.hwOwns, ep_inContext, par_inContext]
  rfl

theorem memRead_inContext (a k : Nat) : memRead (s.inContext h n l o) a k = memRead s a k := by
  simp only [memRead, ramBytes_inContext, par_inContext]

theorem memWrite_inContext (a : Nat) (vs : List Byte) :
    memWrite (s.inContext h n l o) a vs = (memWrite s a vs).map (·.inContext h n l o) := by
  simp only [memWrite, par_inContext, setRamBytes_inContext]
  split <;> rfl

theorem pmemReadBytes_inContext (a k : Nat) : pmemReadBytes (s.inContext h n l o) a k = pmemReadBytes s a k := by
  induction k generalizing a with
  | zero => rfl
  | succ k ih =>
    simp only [pmemReadBytes, ih]
    rfl

/-- Mapping over a sequence. -/
theorem map_bind {α β γ : Type} (x : Except Fault α) (f : α → Except Fault β) (g : β → γ) :
    (x >>= f).map g = x >>= fun a => (f a).map g := by cases x <;> rfl

/-- A sequence whose first part was mapped. -/
theorem bind_map {α β γ : Type} (x : Except Fault α) (f : α → β) (g : β → Except Fault γ) :
    (x.map f >>= g) = x >>= fun a => g (f a) := by cases x <;> rfl

theorem epArm_inContext (e : BitVec 4) (d : Dir) (b : Bank) (size : BitVec 16) (buf : Addr) :
    epArm e d b size buf (s.inContext h n l o) = (epArm e d b size buf s).map (·.inContext h n l o) := by
  simp only [epArm, onInit, onEp, ep_inContext, par_inContext, hwOwns_inContext, setEp_inContext]
  repeat' split
  all_goals rfl

theorem epCancel_inContext (e : BitVec 4) (d : Dir) :
    epCancel e d (s.inContext h n l o) = (epCancel e d s).map (·.inContext h n l o) := by
  simp only [epCancel, onInit, onEp, ep_inContext, par_inContext, setEp_inContext]
  repeat' split
  all_goals rfl

theorem epStall_inContext (e : BitVec 4) (d : Dir) :
    epStall e d (s.inContext h n l o) = (epStall e d s).map (·.inContext h n l o) := by
  simp only [epStall, onInit, onEp, ep_inContext, par_inContext, setEp_inContext]
  repeat' split
  all_goals rfl

theorem armIn_inContext (size : BitVec 16) :
    armIn size (s.inContext h n l o) = (armIn size s).map (·.inContext h n l o) := epArm_inContext ..

theorem rearmOut_inContext : rearmOut (s.inContext h n l o) = (rearmOut s).map (·.inContext h n l o) := by
  simp only [rearmOut, ep_inContext, par_inContext, epArm_inContext]
  split <;> rfl

/-- `CTL_IN` in another context (R200). -/
theorem ctlIn_inContext (size : BitVec 16) :
    ctlIn size (s.inContext h n l o) = (ctlIn size s).map (·.inContext h n l o) := by
  simp only [ctlIn, inDispatch, ctlstate_inContext, par_inContext, armIn_inContext, bind_map, rearmOut_inContext,
    setCtl_inContext]
  repeat' split
  all_goals first | rfl | (simp only [map_bind]; rfl)

/-- `CTL_OUT` in another context (R201). -/
theorem ctlOut_inContext : ctlOut (s.inContext h n l o) = (ctlOut s).map (·.inContext h n l o) := by
  simp only [ctlOut, inDispatch, ctlstate_inContext, bind_map, rearmOut_inContext, setCtl_inContext]
  split
  · rfl
  · simp only [map_bind]
    rfl

/-- `CTL_ACK` in another context (R202). -/
theorem ctlAck_inContext : ctlAck (s.inContext h n l o) = (ctlAck s).map (·.inContext h n l o) := by
  simp only [ctlAck, inDispatch, ctlstate_inContext, setCtl_inContext, armIn_inContext, bind_map, rearmOut_inContext]
  split
  · rfl
  · simp only [map_bind]
    rfl

/-- `CTL_STALL` in another context (R203). -/
theorem ctlStall_inContext : ctlStall (s.inContext h n l o) = (ctlStall s).map (·.inContext h n l o) := by
  simp only [ctlStall, inDispatch, ctlstate_inContext, epCancel_inContext, epStall_inContext, bind_map,
    rearmOut_inContext, setCtl_inContext]
  split
  · rfl
  · simp only [map_bind]
    rfl

/-- `BRIDGE_COPY` in another context (R231). -/
theorem bridgeCopy_inContext (len : BitVec 16) (src : Addr) :
    bridgeCopy len src (s.inContext h n l o) = (bridgeCopy len src s).map (·.inContext h n l o) := by
  have hs : (s.inContext h n l o).saveMode = s.saveMode.inContext h n l o := rfl
  have ho : (s.inContext h n l o).ep0InOwns len.toNat = s.ep0InOwns len.toNat := by
    simp only [State.ep0InOwns, ep_inContext, par_inContext]
  have hr : ∀ t : State, (t.inContext h n l o).restoreMode = t.restoreMode.map (·.inContext h n l o) := by
    intro t
    have : (t.inContext h n l o).hSavedMode = t.hSavedMode := rfl
    simp only [State.restoreMode, this]
    cases t.hSavedMode <;> rfl
  simp only [bridgeCopy, par_inContext, ho, hs, pmemReadBytes_inContext, memWrite_inContext, bind_map, hr]
  repeat' split
  all_goals first | rfl | (simp only [map_bind])

/-- `BUF_COPY` in another context (R232). -/
theorem bufCopy_inContext (len : BitVec 16) (src : Addr) :
    bufCopy len src (s.inContext h n l o) = (bufCopy len src s).map (·.inContext h n l o) := by
  simp only [bufCopy, par_inContext, hwOwns_inContext, memRead_inContext, memWrite_inContext]
  repeat' split
  all_goals first | rfl | (simp only [map_bind])

/-- N1 in another context (R191). -/
theorem newRequest_inContext : newRequest (s.inContext h n l o) = (newRequest s).map (·.inContext h n l o) := by
  simp only [newRequest, par_inContext, memRead_inContext, map_bind]
  rfl

/-- `EV_CTLOUT_DONE` in another context (R196). -/
theorem evCtloutDone_inContext : evCtloutDone (s.inContext h n l o) = (evCtloutDone s).map (·.inContext h n l o) := by
  simp only [evCtloutDone, ep_inContext, emit_inContext, ctlstate_inContext, armIn_inContext, epCancel_inContext,
    rearmOut_inContext, bind_map, setCtl_inContext, map_bind]
  congr 1
  funext c
  repeat' split
  all_goals first | rfl | (simp only [map_bind]; rfl)

/-- `EV_CTLIN_DONE` in another context (R197). -/
theorem evCtlinDone_inContext (stale : Bool) :
    evCtlinDone stale (s.inContext h n l o) = (evCtlinDone stale s).inContext h n l o := by
  simp only [evCtlinDone, emit_inContext, ctlstate_inContext, setCtl_inContext]
  cases stale
  · by_cases h1 : (s.emit (.ctlIn false)).ctlstate = csDataIn
    · simp only [Bool.false_eq_true, if_false, if_pos h1]
      exact if_pos h1
    · by_cases h2 : (s.emit (.ctlIn false)).ctlstate = csStatusIn
      · simp only [Bool.false_eq_true, if_false, if_neg h1, if_pos h2]
        exact (if_neg h1).trans (if_pos h2)
      · simp only [Bool.false_eq_true, if_false, if_neg h1, if_neg h2]
        exact (if_neg h1).trans (if_neg h2)
  · rfl

/-- An operation that looks at no hidden state changes none. -/
theorem context_kept {f : State → Except Fault State}
    (hf : ∀ s h n l o, f (s.inContext h n l o) = (f s).map (·.inContext h n l o)) {s t : State} (ht : f s = .ok t) :
    t = t.inContext s.hRun s.hStep s.disp s.out := by
  have hs := hf s s.hRun s.hStep s.disp s.out
  rw [show s.inContext s.hRun s.hStep s.disp s.out = s from rfl, ht] at hs
  exact Except.ok.inj hs

end Sys2Proof.Machine
end

