-- ==== Sys2Proof/Laws/Decode.lean ====
section
/-! SUPPORT. The small lemmas of the decoder and the encoder: the eight bytes of a word make the word again, and no two
rows of the opcode map have a word in common. -/
namespace Sys2Proof

/-- Two neighbouring fields of a word, put together. -/
theorem extract_append {n : Nat} (w : Word) {k m : Nat} :
    (w.extractLsb' (k + n) m ++ w.extractLsb' k n) = w.extractLsb' k (m + n) := by
  apply BitVec.eq_of_getLsbD_eq
  intro i hi
  simp only [BitVec.getLsbD_append, BitVec.getLsbD_extractLsb', hi, decide_true, Bool.true_and]
  split
  · simp_all
  · have h : decide (i - n < m) = true := by simp; omega
    rw [h, Bool.true_and]
    congr 1
    omega

/-- The eight bytes of a word, put together again, are the word (R85). -/
theorem append_wordBytes (w : Word) :
    (w.extractLsb' 56 8 ++ w.extractLsb' 48 8 ++ w.extractLsb' 40 8 ++ w.extractLsb' 32 8 ++
      w.extractLsb' 24 8 ++ w.extractLsb' 16 8 ++ w.extractLsb' 8 8 ++ w.extractLsb' 0 8 : BitVec 64) = w := by
  rw [extract_append (n := 8) (k := 48), extract_append (n := 8) (k := 40), extract_append (n := 8) (k := 32),
    extract_append (n := 8) (k := 24), extract_append (n := 8) (k := 16), extract_append (n := 8) (k := 8),
    extract_append (n := 8) (k := 0)]
  exact BitVec.extractLsb'_eq_self

/-- Decoding the bytes of a word is decoding the word. -/
theorem decode_wordBytes (w : Word) (rest : List Byte) : decode (wordBytes w ++ rest) = decodeAfter w rest := by
  simp only [wordBytes, List.cons_append, List.nil_append, decode, append_wordBytes]

/-- Every row fixes the opcode byte (R90). -/
theorem row_mask_fixes_opcode : ∀ r ∈ rows, r.mask.extractLsb' 56 8 = 0xFF#8 := by decide

/-- No two rows have one opcode (R90). -/
theorem rows_opcodes_distinct : rows.Pairwise fun a b => a.mtch.extractLsb' 56 8 ≠ b.mtch.extractLsb' 56 8 := by
  decide

/-- A word of a row has the row's opcode. -/
theorem opcode_of_matches {r : Row} (hr : r ∈ rows) {w : Word} (h : r.matches w = true) :
    w.extractLsb' 56 8 = r.mtch.extractLsb' 56 8 := by
  have hm : w &&& r.mask = r.mtch := by simpa [Row.matches] using h
  rw [← hm, BitVec.extractLsb'_and, row_mask_fixes_opcode r hr]
  exact (BitVec.and_allOnes (x := w.extractLsb' 56 8)).symm

/-- In a list whose rows have distinct opcodes the first match is the only one. -/
theorem find?_of_matches {l : List Row} (hd : l.Pairwise fun a b => a.mtch.extractLsb' 56 8 ≠ b.mtch.extractLsb' 56 8)
    (hl : ∀ r ∈ l, r ∈ rows) {r : Row} (hr : r ∈ l) {w : Word} (h : r.matches w = true) :
    l.find? (·.matches w) = some r := by
  induction l with
  | nil => cases hr
  | cons a l ih =>
    rw [List.pairwise_cons] at hd
    rcases List.mem_cons.1 hr with rfl | hr'
    · simp [h]
    · have hna : a.matches w = false := by
        cases ha : a.matches w with
        | false => rfl
        | true =>
          have h1 := opcode_of_matches (hl a (by simp)) ha
          have h2 := opcode_of_matches (hl r hr) h
          exact absurd (h1.symm.trans h2) (hd.1 r hr')
      simp [hna, ih hd.2 (fun x hx => hl x (List.mem_cons_of_mem _ hx)) hr']

/-- The row of a word is the one it matches (R90). -/
theorem rowOf_of_matches {r : Row} (hr : r ∈ rows) {w : Word} (h : r.matches w = true) : rowOf w = some r :=
  find?_of_matches rows_opcodes_distinct (fun _ hx => hx) hr h

/-! ## The fields of the three formats -/

/-- The fields of a format C word (R86). -/
theorem formatC_fields (opc : Byte) (ep : BitVec 4) (dir bank : BitVec 1) (a : BitVec 16) (b : Addr) :
    (formatC opc ep dir bank a b).extractLsb' 56 8 = opc ∧ Word.ep (formatC opc ep dir bank a b) = ep ∧
    Word.a (formatC opc ep dir bank a b) = a ∧ Word.b (formatC opc ep dir bank a b) = b := by
  refine ⟨?_, ?_, ?_, ?_⟩
  all_goals
    apply BitVec.eq_of_getLsbD_eq
    intro i hi
    simp only [Word.ep, Word.a, Word.b, formatC, BitVec.getLsbD_extractLsb', BitVec.getLsbD_append, hi]
    repeat' split
    all_goals first | omega | (simp only [decide_true, Bool.true_and]; congr 1; omega)

/-- The two single-bit fields of a format C word (R86). -/
theorem formatC_bits (opc : Byte) (ep : BitVec 4) (dir bank : BitVec 1) (a : BitVec 16) (b : Addr) :
    (formatC opc ep dir bank a b).getLsbD 51 = dir.getLsbD 0 ∧
    (formatC opc ep dir bank a b).getLsbD 50 = bank.getLsbD 0 := by
  simp only [formatC, BitVec.getLsbD_append]
  exact ⟨rfl, rfl⟩

/-- Masking a format C word masks its fields. -/
theorem formatC_and (opc : Byte) (ep : BitVec 4) (dir bank : BitVec 1) (a : BitVec 16) (b : Addr) (m : Word) :
    formatC opc ep dir bank a b &&& m =
      formatC (opc &&& m.extractLsb' 56 8) (ep &&& m.extractLsb' 52 4) (dir &&& m.extractLsb' 51 1)
        (bank &&& m.extractLsb' 50 1) (a &&& m.extractLsb' 32 16) (b &&& m.extractLsb' 0 32) := by
  apply BitVec.eq_of_getLsbD_eq
  intro i hi
  simp only [formatC, BitVec.getLsbD_and, BitVec.getLsbD_append, BitVec.getLsbD_extractLsb']
  repeat' split
  all_goals first
    | omega
    | (simp only [*, decide_true, Bool.true_and, Nat.zero_add]; done)
    | (rw [decide_eq_true (by omega), Bool.true_and]; congr 2; omega)
    | simp

/-- The fields of a format E word (R87). -/
theorem formatE_fields (opc : Byte) (ep : BitVec 4) (hack : BitVec 1) (len : BitVec 16) (devaddr : BitVec 7) :
    (formatE opc ep hack len devaddr).extractLsb' 56 8 = opc ∧ Word.ep (formatE opc ep hack len devaddr) = ep ∧
    Word.a (formatE opc ep hack len devaddr) = len ∧ Word.devaddr (formatE opc ep hack len devaddr) = devaddr := by
  refine ⟨?_, ?_, ?_, ?_⟩
  all_goals
    apply BitVec.eq_of_getLsbD_eq
    intro i hi
    simp only [Word.ep, Word.a, Word.devaddr, formatE, BitVec.getLsbD_extractLsb', BitVec.getLsbD_append, hi]
    repeat' split
    all_goals first | omega | (simp only [decide_true, Bool.true_and]; congr 1; omega)

/-- The single-bit field of a format E word (R87). -/
theorem formatE_hack (opc : Byte) (ep : BitVec 4) (hack : BitVec 1) (len : BitVec 16) (devaddr : BitVec 7) :
    (formatE opc ep hack len devaddr).getLsbD 48 = hack.getLsbD 0 := by
  simp only [formatE, BitVec.getLsbD_append]
  rfl

/-- Masking a format E word masks its fields. -/
theorem formatE_and (opc : Byte) (ep : BitVec 4) (hack : BitVec 1) (len : BitVec 16) (devaddr : BitVec 7) (m : Word) :
    formatE opc ep hack len devaddr &&& m =
      formatE (opc &&& m.extractLsb' 56 8) (ep &&& m.extractLsb' 52 4) (hack &&& m.extractLsb' 48 1)
        (len &&& m.extractLsb' 32 16) (devaddr &&& m.extractLsb' 0 7) := by
  apply BitVec.eq_of_getLsbD_eq
  intro i hi
  simp only [formatE, BitVec.getLsbD_and, BitVec.getLsbD_append, BitVec.getLsbD_extractLsb']
  repeat' split
  all_goals first
    | omega
    | (simp only [*, decide_true, Bool.true_and, Nat.zero_add]; done)
    | (rw [decide_eq_true (by omega), Bool.true_and]; congr 2; omega)
    | simp

/-- A field inside `A` (R86). -/
theorem extract_in_a (w : Word) (k n : Nat) (h : k + n ≤ 16) :
    w.extractLsb' (32 + k) n = (Word.a w).extractLsb' k n := by
  apply BitVec.eq_of_getLsbD_eq
  intro i hi
  have : decide (k + i < 16) = true := by simp; omega
  simp only [Word.a, BitVec.getLsbD_extractLsb', hi, this, decide_true, Bool.true_and]
  congr 1
  omega

/-- A bit inside `A` (R86). -/
theorem bit_in_a (w : Word) (k : Nat) (h : k < 16) : w.getLsbD (32 + k) = (Word.a w).getLsbD k := by
  simp [Word.a, h]

/-- The operand of `EP_INIT` in `A` (R91). -/
theorem operand_init : ∀ (pingpong : Bool) (bufsize type : BitVec 2),
    let a : BitVec 16 := 0#11 ++ BitVec.ofBool pingpong ++ bufsize ++ type
    a &&& 0xFFE0#16 = 0 ∧ a.extractLsb' 0 2 = type ∧ a.extractLsb' 2 2 = bufsize ∧ a.getLsbD 4 = pingpong := by
  decide

/-- A flag in `A[0]` (R91). -/
theorem operand_flag : ∀ x : Bool,
    let a : BitVec 16 := 0#15 ++ BitVec.ofBool x
    a &&& 0xFFFE#16 = 0 ∧ a.getLsbD 0 = x := by decide

/-- A byte in `A[7:0]` (R91). -/
theorem operand_byte (x : Byte) :
    let a : BitVec 16 := 0#8 ++ x
    a &&& 0xFF00#16 = 0 ∧ a.extractLsb' 0 8 = x := by revert x; decide

/-- A register number in `A[3:0]` (R91). -/
theorem operand_reg : ∀ x : BitVec 4,
    let a : BitVec 16 := 0#12 ++ x
    a &&& 0xFFF0#16 = 0 ∧ a.extractLsb' 0 4 = x := by decide

/-- An address in `A[6:0]` (R91). -/
theorem operand_addr : ∀ x : BitVec 7,
    let a : BitVec 16 := 0#9 ++ x
    a &&& 0xFF80#16 = 0 ∧ a.extractLsb' 0 7 = x := by decide

/-- The two enables in `A[1:0]` (R91). -/
theorem operand_enables : ∀ busevie trnie : Bool,
    let a : BitVec 16 := 0#14 ++ BitVec.ofBool trnie ++ BitVec.ofBool busevie
    a &&& 0xFFFC#16 = 0 ∧ a.getLsbD 0 = busevie ∧ a.getLsbD 1 = trnie := by decide

/-! Every field of an encoded word reads as it was written. -/

@[simp] theorem opcode_formatC (opc : Byte) (ep : BitVec 4) (dir bank : BitVec 1) (a : BitVec 16) (b : Addr) :
    (formatC opc ep dir bank a b).extractLsb' 56 8 = opc := (formatC_fields ..).1

@[simp] theorem ep_formatC (opc : Byte) (ep : BitVec 4) (dir bank : BitVec 1) (a : BitVec 16) (b : Addr) :
    Word.ep (formatC opc ep dir bank a b) = ep := (formatC_fields ..).2.1

@[simp] theorem dir_formatC (opc : Byte) (ep : BitVec 4) (d : Dir) (bank : BitVec 1) (a : BitVec 16) (b : Addr) :
    Word.dir (formatC opc ep d.bit bank a b) = d := by
  rw [Word.dir, (formatC_bits ..).1]
  cases d <;> rfl

@[simp] theorem bank_formatC (opc : Byte) (ep : BitVec 4) (dir : BitVec 1) (x : Bank) (a : BitVec 16) (b : Addr) :
    Word.bank (formatC opc ep dir x.bit a b) = x := by
  rw [Word.bank, (formatC_bits ..).2]
  cases x <;> rfl

@[simp] theorem a_formatC (opc : Byte) (ep : BitVec 4) (dir bank : BitVec 1) (a : BitVec 16) (b : Addr) :
    Word.a (formatC opc ep dir bank a b) = a := (formatC_fields ..).2.2.1

@[simp] theorem b_formatC (opc : Byte) (ep : BitVec 4) (dir bank : BitVec 1) (a : BitVec 16) (b : Addr) :
    Word.b (formatC opc ep dir bank a b) = b := (formatC_fields ..).2.2.2

@[simp] theorem aByte_formatC (opc : Byte) (ep : BitVec 4) (dir bank : BitVec 1) (x : Byte) (b : Addr) :
    Word.aByte (formatC opc ep dir bank (0#8 ++ x) b) = x := by
  rw [Word.aByte, extract_in_a _ 0 8 (by decide), a_formatC, (operand_byte x).2]

@[simp] theorem opcode_formatE (opc : Byte) (ep : BitVec 4) (hack : BitVec 1) (len : BitVec 16) (devaddr : BitVec 7) :
    (formatE opc ep hack len devaddr).extractLsb' 56 8 = opc := (formatE_fields ..).1

@[simp] theorem ep_formatE (opc : Byte) (ep : BitVec 4) (hack : BitVec 1) (len : BitVec 16) (devaddr : BitVec 7) :
    Word.ep (formatE opc ep hack len devaddr) = ep := (formatE_fields ..).2.1

@[simp] theorem a_formatE (opc : Byte) (ep : BitVec 4) (hack : BitVec 1) (len : BitVec 16) (devaddr : BitVec 7) :
    Word.a (formatE opc ep hack len devaddr) = len := (formatE_fields ..).2.2.1

@[simp] theorem devaddr_formatE (opc : Byte) (ep : BitVec 4) (hack : BitVec 1) (len : BitVec 16)
    (devaddr : BitVec 7) : Word.devaddr (formatE opc ep hack len devaddr) = devaddr := (formatE_fields ..).2.2.2

end Sys2Proof
end

