-- ==== Sys2Proof/Laws/Handlers.lean ====
section
/-! SUPPORT. Which micro-step comes next, and how a dispatch's steps are taken. -/
namespace Sys2Proof.Machine

/-- The next micro-step of the bus-event handler (R43, R171). -/
theorem microStep_hbus {s : State} {n : Nat} (hd : s.disp = []) (hr : s.hRun = .hbus) (hs : s.hStep = some n) :
    microStep s = busEventStep n s := by
  simp only [microStep, hd, hr, hs, valueOf, bind, Except.bind]

/-- The next micro-step of the transaction-complete handler (R43, R176). -/
theorem microStep_htrn {s : State} {n : Nat} (hd : s.disp = []) (hr : s.hRun = .htrn) (hs : s.hStep = some n) :
    microStep s = trncomplStep n s := by
  simp only [microStep, hd, hr, hs, valueOf, bind, Except.bind]

/-- A step of a dispatch comes before the handler it runs in (R191, R176). -/
theorem microStep_disp {s : State} {x : DispStep} {rest : List DispStep} (hd : s.disp = x :: rest) :
    microStep s = runDispStep s (s.follow rest) x := by
  simp only [microStep, hd]

/-- With nothing in progress a micro-step does nothing. -/
theorem microStep_idle {s : State} (hd : s.disp = []) (hr : s.hRun = .none) : microStep s = .ok s := by
  simp only [microStep, hd, hr]

/-- The single read of a status register (R177). -/
theorem epRdstatus_ok {e : BitVec 4} {d : Dir} {mask : Byte} {s : State} (h : e.toNat < s.par.nEp) :
    epRdstatus e d mask s = .ok ((s.ep d e).status &&& mask) := onEp_ok.2 ⟨h, rfl⟩

end Sys2Proof.Machine
end

