-- ==== Sys2Proof/Laws/Invariant.lean ====
section
/-! SUPPORT. The part of the invariant that registers and memory carry, and that every shared operation keeps it. -/
namespace Sys2Proof.Machine

/-- The invariant but for the hidden state (R22 to R25, R34, R42, R61). -/
def State.CoreInv (s : State) : Prop :=
  paramsLegal s.par ∧ memoryWf s.ram ∧ (∀ c ∈ s.ram, c.1 < ramSize s.par) ∧
  (∀ d e, (s.ep d e).Inv s.par) ∧ s.gctrl.extractLsb' 3 5 = 0#5 ∧ s.intflagsb.extractLsb' 2 6 = 0#6 ∧
  s.ctlstate ∈ ctlStates ∧ s.hSavedMode = none

/-! ## Groups -/

/-- Fields of a byte after bits were set: those where no bit was set are unchanged. -/
theorem extract_or (x m : Byte) (i n : Nat) (h : m.extractLsb' i n = 0) :
    (x ||| m).extractLsb' i n = x.extractLsb' i n := by rw [BitVec.extractLsb'_or, h]; exact BitVec.or_zero

/-- Fields of a byte after bits were kept: those where every bit was kept are unchanged. -/
theorem extract_and (x m : Byte) (i n : Nat) (h : m.extractLsb' i n = BitVec.allOnes n) :
    (x &&& m).extractLsb' i n = x.extractLsb' i n := by rw [BitVec.extractLsb'_and, h]; exact BitVec.and_allOnes

/-- Clearing bits keeps a field that is zero. -/
theorem extract_and_zero (x m : Byte) (i n : Nat) (h : x.extractLsb' i n = 0) : (x &&& m).extractLsb' i n = 0 := by
  rw [BitVec.extractLsb'_and, h]
  exact BitVec.zero_and

/-- A group that is off (R281). -/
theorem off_inv (p : Params) : EpRegs.off.Inv p :=
  ⟨by decide, by decide, by decide, by decide, fun b => (by cases b <;> rfl), fun b n a h => (by cases b <;> cases h),
    fun _ => rfl⟩

/-- A group after a legal `EP_INIT` (R111). -/
theorem initialised_inv (p : Params) {type bufsize : BitVec 2} {pingpong : Bool} (h : type ≠ typeReserved)
    (h' : ¬(type = typeControl ∧ pingpong = true)) : (EpRegs.initialised type bufsize pingpong).Inv p := by
  obtain ⟨h1, -, h3, -⟩ := initialised_fields type bufsize pingpong
  refine ⟨?_, (by decide : (0x03#8).extractLsb' 6 2 = 0#2), by rwa [h1], ?_, fun b => (by cases b <;> rfl), fun b n a h => (by cases b <;> cases h),
    fun _ => rfl⟩
  · revert type bufsize pingpong
    decide
  · rw [h1, h3]
    intro ht
    simpa [ht] using h'

/-- What `STATUS` holds below its reserved bits does not matter to the invariant (R23). -/
theorem status_inv {p : Params} {x : EpRegs} {v : Byte} (hx : x.Inv p) (hv : v.extractLsb' 6 2 = 0#2) :
    EpRegs.Inv p { x with status := v } := by
  obtain ⟨h1, -, h3, h4, h5, h6, h7⟩ := hx
  exact ⟨h1, hv, h3, h4, fun b => by have := h5 b; cases b <;> exact this,
    fun b n a hc hp => by have := h6 b n a; cases b <;> exact this hc hp, h7⟩

/-- Setting flags of `STATUS[5:0]` (R23). -/
theorem orStatus_inv {p : Params} {x : EpRegs} {m : Byte} (hx : x.Inv p) (hm : m.extractLsb' 6 2 = 0#2) :
    (x.orStatus m).Inv p := status_inv hx (by rw [extract_or _ _ _ _ hm]; exact hx.2.1)

/-- Clearing flags of `STATUS` (R23). -/
theorem clearStatus_inv {p : Params} {x : EpRegs} {m : Byte} (hx : x.Inv p) : (x.clearStatus m).Inv p :=
  status_inv hx (extract_and_zero _ _ _ _ hx.2.1)

/-- What `CTRL.STALL` holds does not matter to the invariant (R22). -/
theorem ctrl_inv {p : Params} {x : EpRegs} {v : Byte} (hx : x.Inv p) (h6 : v.extractLsb' 6 2 = x.ctrl.extractLsb' 6 2)
    (h0 : v.extractLsb' 0 2 = x.ctrl.extractLsb' 0 2) (h2 : v.extractLsb' 2 2 = x.ctrl.extractLsb' 2 2)
    (h4 : v.getLsbD 4 = x.ctrl.getLsbD 4) : EpRegs.Inv p { x with ctrl := v } := by
  obtain ⟨a1, a2, a3, a4, a5, a6, a7⟩ := hx
  refine ⟨h6.trans a1, a2, ?_, ?_, fun b => by have := a5 b; cases b <;> exact this, ?_, ?_⟩
  · exact fun h => a3 (h0.symm.trans h)
  · intro h
    exact h4.trans (a4 (h0.symm.trans h))
  · intro b n a hc hp
    have hb : EpRegs.bufsize { x with ctrl := v } = x.bufsize := h2
    rw [hb]
    have := a6 b n a
    cases b <;> exact this hc hp
  · intro h
    exact a7 (h4.symm.trans h)

/-- The halt condition is set (R119). -/
theorem setStall_inv {p : Params} {x : EpRegs} (hx : x.Inv p) : x.setStall.Inv p :=
  ctrl_inv hx (extract_or _ _ _ _ (by decide)) (extract_or _ _ _ _ (by decide)) (extract_or _ _ _ _ (by decide))
    (by rw [getLsbD_or]; simp)

/-- The halt condition is cleared (R143). -/
theorem clrStall_inv {p : Params} {x : EpRegs} (hx : x.Inv p) : x.clrStall.Inv p :=
  ctrl_inv hx (extract_and _ _ _ _ (by decide)) (extract_and _ _ _ _ (by decide)) (extract_and _ _ _ _ (by decide))
    (by rw [BitVec.getLsbD_and]; simp)

/-- A count that fits replaces a count (R24). -/
theorem setCnt_inv {p : Params} {x : EpRegs} {b : Bank} {c n : BitVec 7} (hx : x.Inv p) (hc : x.cnt b = some c)
    (hn : ∀ a, x.ptr b = some a → n.toNat ≤ maxPkt x.bufsize ∧ a.toNat + n.toNat ≤ ramSize p) :
    (x.setCnt b n).Inv p := by
  obtain ⟨a1, a2, a3, a4, a5, a6, a7⟩ := hx
  obtain ⟨f1, f2, f3, f4, f5⟩ := setCnt_fields x b n
  refine ⟨by rwa [f1], by rwa [f2], ?_, ?_, ?_, ?_, ?_⟩
  · simpa only [EpRegs.type, f1] using a3
  · simpa only [EpRegs.type, EpRegs.pingpong, f1] using a4
  · intro b'
    by_cases hb : b' = b
    · subst hb
      rw [f3, f5, ← a5, hc]
      rfl
    · rw [f4 b' hb, f5, a5]
  · intro b' n' a h1 h2
    have hs : (x.setCnt b n).bufsize = x.bufsize := by simp only [EpRegs.bufsize, f1]
    rw [hs]
    rw [f5] at h2
    by_cases hb : b' = b
    · subst hb
      rw [f3] at h1
      cases h1
      exact hn a h2
    · rw [f4 b' hb] at h1
      exact a6 b' n' a h1 h2
  · intro h
    have h' : x.pingpong = false := by simpa only [EpRegs.pingpong, f1] using h
    by_cases hb : b = .b1
    · subst hb
      rw [a7 h'] at hc
      cases hc
    · rw [f4 .b1 (Ne.symm hb)]
      exact a7 h'

/-- A bank is armed within the class and `RAM` (R113). -/
theorem arm_inv {p : Params} {x : EpRegs} {b : Bank} {n : BitVec 16} {a : Addr} (hx : x.Inv p)
    (hb : ¬(b = .b1 ∧ x.pingpong = false)) (hn : n.toNat ≤ maxPkt x.bufsize) (ha : a.toNat + n.toNat ≤ ramSize p) :
    (x.arm b (n.setWidth 7) a).Inv p := by
  have hc := toNat_count hn
  have h1 : EpRegs.Inv p ((x.setPtr b a).setCnt b (n.setWidth 7)) := by
    obtain ⟨a1, a2, a3, a4, a5, a6, a7⟩ := hx
    cases b with
    | b0 =>
      refine ⟨a1, a2, a3, a4, fun b' => ?_, fun b' n' a' h1 h2 => ?_, a7⟩
      · cases b'
        · rfl
        · exact a5 .b1
      · cases b'
        · cases h1
          cases h2
          exact ⟨hc ▸ hn, hc ▸ ha⟩
        · exact a6 .b1 n' a' h1 h2
    | b1 =>
      refine ⟨a1, a2, a3, a4, fun b' => ?_, fun b' n' a' h1 h2 => ?_, fun h => absurd ⟨rfl, h⟩ hb⟩
      · cases b'
        · exact a5 .b0
        · rfl
      · cases b'
        · exact a6 .b0 n' a' h1 h2
        · cases h1
          cases h2
          exact ⟨hc ▸ hn, hc ▸ ha⟩
  exact clearStatus_inv (clearStatus_inv h1)

/-- A bank completes (R142). -/
theorem completed_inv {p : Params} {x : EpRegs} (b : Bank) (hx : x.Inv p) : (x.completed b).Inv p := by
  have h1 := orStatus_inv (orStatus_inv hx (m := nackMask b) (by cases b <;> decide)) (m := doneMask b)
    (by cases b <;> decide)
  unfold EpRegs.completed
  simp only
  split
  · refine status_inv h1 ?_
    rw [BitVec.extractLsb'_xor, h1.2.1]
    decide
  · exact h1

/-! ## States -/

/-- Writing a legal group. -/
theorem setEp_core {s : State} {d : Dir} {e : BitVec 4} {x : EpRegs} (hs : s.CoreInv) (hx : x.Inv s.par) :
    (s.setEp d e x).CoreInv := by
  obtain ⟨h1, h2, h3, h4, h5, h6, h7, h8⟩ := hs
  refine ⟨by simpa using h1, by simpa using h2, by simpa using h3, fun d' e' => ?_, by simpa using h5,
    by simpa using h6, by simpa using h7, by simpa using h8⟩
  rw [ep_setEp]
  simp only [setEp_fields]
  split
  · exact hx
  · exact h4 d' e'

/-- Writing the engine's state. -/
theorem setCtl_core {s : State} {c : Byte} (hs : s.CoreInv) (hc : c ∈ ctlStates) : (s.setCtl c).CoreInv := by
  obtain ⟨h1, h2, h3, h4, h5, h6, -, h8⟩ := hs
  exact ⟨h1, h2, h3, fun d e => h4 d e, h5, h6, hc, h8⟩

/-- Storing bytes inside `RAM`. -/
theorem setRamBytes_core {s : State} {a : Nat} {vs : List Byte} (hs : s.CoreInv)
    (hr : vs = [] ∨ a + vs.length ≤ ramSize s.par) : (s.setRamBytes a vs).CoreInv := by
  obtain ⟨h1, h2, h3, h4, h5, h6, h7, h8⟩ := hs
  refine ⟨by simpa using h1, setRamBytes_wf _ _ _ h2, fun c hc => ?_, fun d e => by simpa using h4 d e,
    by simpa using h5, by simpa using h6, by simpa using h7, by simpa using h8⟩
  simp only [setRamBytes_fields]
  rcases mem_setRamBytes hc with h | h
  · exact h3 c h
  · rcases hr with rfl | hr
    · simp at h
      omega
    · omega

/-- What the core does not look at can be anything. -/
theorem core_of_same {s t : State} (hs : s.CoreInv) (h1 : t.par = s.par) (h2 : t.ram = s.ram)
    (h3 : ∀ d e, t.ep d e = s.ep d e) (h4 : t.gctrl = s.gctrl) (h5 : t.intflagsb = s.intflagsb)
    (h6 : t.ctlstate = s.ctlstate) (h7 : t.hSavedMode = s.hSavedMode) : t.CoreInv := by
  unfold State.CoreInv
  simp only [h1, h2, h3, h4, h5, h6, h7]
  exact hs

/-! ## Operations -/

theorem epArm_core {e : BitVec 4} {d : Dir} {b : Bank} {size : BitVec 16} {buf : Addr} {s t : State} (hs : s.CoreInv)
    (h : epArm e d b size buf s = .ok t) : t.CoreInv := by
  obtain ⟨-, -, hb, hn, -, hr, -, -, rfl⟩ := epArm_ok.1 h
  exact setEp_core hs (arm_inv (hs.2.2.2.1 d e) hb hn hr)

theorem epCancel_core {e : BitVec 4} {d : Dir} {s t : State} (hs : s.CoreInv) (h : epCancel e d s = .ok t) :
    t.CoreInv := by
  obtain ⟨-, -, rfl⟩ := epCancel_ok.1 h
  exact setEp_core hs (orStatus_inv (hs.2.2.2.1 d e) (by decide))

theorem epStall_core {e : BitVec 4} {d : Dir} {s t : State} (hs : s.CoreInv) (h : epStall e d s = .ok t) :
    t.CoreInv := by
  obtain ⟨-, -, rfl⟩ := epStall_ok.1 h
  exact setEp_core hs (setStall_inv (hs.2.2.2.1 d e))

theorem epInit_core {e : BitVec 4} {d : Dir} {type bufsize : BitVec 2} {pingpong : Bool} {s t : State}
    (hs : s.CoreInv) (h : epInit e d type bufsize pingpong s = .ok t) : t.CoreInv := by
  obtain ⟨-, h1, h2, rfl⟩ := epInit_ok.1 h
  exact setEp_core hs (initialised_inv _ h1 h2)

theorem epTac_core {e : BitVec 4} {d : Dir} {mask : Byte} {s : State} {r : State × Byte} (hs : s.CoreInv)
    (h : epTac e d mask s = .ok r) : r.1.CoreInv := by
  obtain ⟨-, rfl⟩ := epTac_ok.1 h
  exact setEp_core hs (clearStatus_inv (hs.2.2.2.1 d e))

theorem rearmOut_core {s t : State} (hs : s.CoreInv) (h : rearmOut s = .ok t) : t.CoreInv := by
  rcases rearmOut_ok.1 h with ⟨-, rfl⟩ | ⟨-, h⟩
  · exact hs
  · exact epArm_core hs h

theorem memWrite_core {s t : State} {a : Nat} {vs : List Byte} (hs : s.CoreInv) (h : memWrite s a vs = .ok t) :
    t.CoreInv := by
  obtain ⟨hr, rfl⟩ := memWrite_ok.1 h
  exact setRamBytes_core hs hr

/-- Taking a sequence of operations apart. -/
theorem bind_ok {α β : Type} {x : Except Fault α} {f : α → Except Fault β} {b : β} :
    (x >>= f) = .ok b ↔ ∃ a, x = .ok a ∧ f a = .ok b := by
  cases x with
  | error => simp [bind, Except.bind]
  | ok a => simp [bind, Except.bind]

/-- Taking a mapped operation apart. -/
theorem map_ok {α β : Type} {x : Except Fault α} {f : α → β} {b : β} : x.map f = .ok b ↔ ∃ a, x = .ok a ∧ f a = b := by
  cases x <;> simp [Except.map]

theorem ctlIn_core {size : BitVec 16} {s t : State} (hs : s.CoreInv) (h : ctlIn size s = .ok t) : t.CoreInv := by
  have h := (inDispatch_ok.1 h).2
  split at h
  · cases h
  obtain ⟨a, ha, h⟩ := bind_ok.1 h
  obtain ⟨b, hb, h⟩ := bind_ok.1 h
  cases h
  exact setCtl_core (rearmOut_core (epArm_core hs ha) hb) (by decide)

theorem ctlOut_core {s t : State} (hs : s.CoreInv) (h : ctlOut s = .ok t) : t.CoreInv := by
  obtain ⟨a, ha, h⟩ := bind_ok.1 (inDispatch_ok.1 h).2
  cases h
  exact setCtl_core (rearmOut_core hs ha) (by decide)

theorem ctlAck_core {s t : State} (hs : s.CoreInv) (h : ctlAck s = .ok t) : t.CoreInv := by
  obtain ⟨a, ha, h⟩ := bind_ok.1 (inDispatch_ok.1 h).2
  obtain ⟨b, hb, h⟩ := bind_ok.1 h
  cases h
  exact setCtl_core (rearmOut_core (epArm_core (setCtl_core hs (by decide)) ha) hb) (by decide)

theorem ctlStall_core {s t : State} (hs : s.CoreInv) (h : ctlStall s = .ok t) : t.CoreInv := by
  obtain ⟨a, ha, h⟩ := bind_ok.1 (inDispatch_ok.1 h).2
  obtain ⟨b, hb, h⟩ := bind_ok.1 h
  obtain ⟨c, hc, h⟩ := bind_ok.1 h
  obtain ⟨d, hd, h⟩ := bind_ok.1 h
  obtain ⟨e, he, h⟩ := bind_ok.1 h
  cases h
  exact setCtl_core (rearmOut_core (epStall_core (epStall_core (epCancel_core (epCancel_core hs ha) hb) hc) hd) he)
    (by decide)

theorem usbReinit_core {s t : State} (hs : s.CoreInv) (h : usbReinit s = .ok t) : t.CoreInv := by
  obtain ⟨a, ha, h⟩ := bind_ok.1 h
  obtain ⟨b, hb, h⟩ := bind_ok.1 h
  refine epArm_core (epInit_core (epInit_core ?_ ha) hb) h
  obtain ⟨h1, h2, h3, -, h5, -, -, h8⟩ := hs
  exact ⟨h1, h2, h3, fun d e => by rw [ep_clearAll]; exact off_inv _, h5, by simp, (by decide : csIdle ∈ ctlStates), h8⟩

theorem bridgeCopy_core {len : BitVec 16} {src : Addr} {s t : State} (hs : s.CoreInv)
    (h : bridgeCopy len src s = .ok t) : t.CoreInv := by
  unfold bridgeCopy at h
  split at h
  · cases h
  split at h
  · cases h
  split at h
  · cases h
  obtain ⟨bytes, -, h⟩ := bind_ok.1 h
  obtain ⟨u, hu, h⟩ := bind_ok.1 h
  obtain ⟨hr, rfl⟩ := memWrite_ok.1 hu
  obtain ⟨m, -, rfl⟩ := map_ok.1 h
  have hc := setRamBytes_core (a := s.par.ep0InBuf.toNat) (vs := bytes) hs hr
  refine core_of_same hc (by simp) ?_ (fun d e => ?_) (by simp) (by simp) (by simp) (by simpa using hs.2.2.2.2.2.2.2.symm)
  · have : ∀ (l : List Byte) (u v : State) (a : Nat), u.ram = v.ram → (u.setRamBytes a l).ram = (v.setRamBytes a l).ram := by
      intro l
      induction l with
      | nil => exact fun _ _ _ h => h
      | cons x l ih => exact fun u v a h => ih _ _ _ (by simp [h])
    exact this bytes _ _ _ rfl
  · have h1 : ∀ u : State, State.ep { u with nvmcmd := m, hSavedMode := none } d e = u.ep d e := fun u => by
      cases d <;> rfl
    rw [h1]
    simp

theorem bufCopy_core {len : BitVec 16} {src : Addr} {s t : State} (hs : s.CoreInv) (h : bufCopy len src s = .ok t) :
    t.CoreInv := by
  unfold bufCopy at h
  split at h
  · cases h
  split at h
  · cases h
  split at h
  · cases h
  obtain ⟨bytes, -, h⟩ := bind_ok.1 h
  exact memWrite_core hs h

theorem newRequest_core {s t : State} (hs : s.CoreInv) (h : newRequest s = .ok t) : t.CoreInv := by
  obtain ⟨bytes, -, h⟩ := bind_ok.1 h
  cases h
  exact core_of_same (setCtl_core hs (c := csSetup) (by decide)) rfl rfl (fun d e => by cases d <;> rfl) rfl rfl rfl rfl

theorem evCtloutDone_core {s t : State} (hs : s.CoreInv) (h : evCtloutDone s = .ok t) : t.CoreInv := by
  obtain ⟨n, -, h⟩ := bind_ok.1 h
  have hs' : (s.emit (.ctlOut n)).CoreInv := core_of_same hs rfl rfl (fun d e => by cases d <;> rfl) rfl rfl rfl rfl
  simp only at h
  split at h
  · obtain ⟨a, ha, h⟩ := bind_ok.1 h
    obtain ⟨b, hb, h⟩ := bind_ok.1 h
    cases h
    exact setCtl_core (rearmOut_core (epArm_core hs' ha) hb) (by decide)
  split at h
  · obtain ⟨a, ha, h⟩ := bind_ok.1 h
    obtain ⟨b, hb, h⟩ := bind_ok.1 h
    cases h
    exact setCtl_core (rearmOut_core (epCancel_core hs' ha) hb) (by decide)
  split at h
  · obtain ⟨a, ha, h⟩ := bind_ok.1 h
    cases h
    exact setCtl_core (rearmOut_core hs' ha) (by decide)
  · exact rearmOut_core hs' h

theorem evCtlinDone_core {stale : Bool} {s : State} (hs : s.CoreInv) : (evCtlinDone stale s).CoreInv := by
  have hs' : (s.emit (.ctlIn stale)).CoreInv := core_of_same hs rfl rfl (fun d e => by cases d <;> rfl) rfl rfl rfl rfl
  unfold evCtlinDone
  simp only
  split
  · exact hs'
  split
  · exact setCtl_core hs' (by decide)
  split
  · exact setCtl_core hs' (by decide)
  · exact hs'

end Sys2Proof.Machine
end

