-- ==== Sys2Proof/Laws/Kept.lean ====
section
/-! SUPPORT. What the operations that arm, cancel, halt and copy keep, said once: launch values, hidden state, the
records of the trace, and every global register but `CTLSTATE`; which of them keep `STALL` too; and what each leaves
`CTLSTATE` at. -/
namespace Sys2Proof.Machine

/-- Launch values, hidden state, the records of the trace so far, and the global registers but `CTLSTATE`. -/
def kept (s t : State) : Prop :=
  t.par = s.par ∧ t.pmem = s.pmem ∧ (∃ l, t.trace = s.trace ++ l) ∧
  t.gctrl = s.gctrl ∧ t.addr = s.addr ∧ t.intflagsa = s.intflagsa ∧ t.intflagsb = s.intflagsb ∧
  t.setuprec = s.setuprec ∧ t.nvmcmd = s.nvmcmd ∧
  t.hRun = s.hRun ∧ t.hStep = s.hStep ∧ t.hSo = s.hSo ∧ t.hSi = s.hSi ∧ t.hOutk = s.hOutk ∧ t.hInk = s.hInk ∧
  t.hFa = s.hFa ∧ t.disp = s.disp

/-- Every halt condition (R204). -/
def stallKept (s t : State) : Prop := ∀ d e, (t.ep d e).stall = (s.ep d e).stall

/-! ## Writes -/

theorem kept_refl (s : State) : kept s s := by simp [kept]

theorem kept.trans {a b c : State} (h : kept a b) (g : kept b c) : kept a c := by
  obtain ⟨h1, h2, ⟨l, h3⟩, h4⟩ := h
  obtain ⟨g1, g2, ⟨m, g3⟩, g4⟩ := g
  refine ⟨g1.trans h1, g2.trans h2, ⟨l ++ m, by rw [g3, h3, List.append_assoc]⟩, ?_⟩
  simp [h4, g4]

theorem stallKept.trans {a b c : State} (h : stallKept a b) (g : stallKept b c) : stallKept a c :=
  fun d e => (g d e).trans (h d e)

theorem kept_setEp (s : State) (d : Dir) (e : BitVec 4) (x : EpRegs) : kept s (s.setEp d e x) := by simp [kept]

theorem kept_setCtl (s : State) (c : Byte) : kept s (s.setCtl c) := by simp [kept]

theorem kept_emit (s : State) (n : Note) : kept s (s.emit n) := by simp [kept]

theorem kept_give (s : State) (o : Output) : kept s (s.give o) := by simp [kept]

theorem kept_setRamBytes (s : State) (a : Nat) (vs : List Byte) : kept s (s.setRamBytes a vs) := by simp [kept]

/-- A group written with the halt condition it had. -/
theorem stallKept_setEp {s : State} {d : Dir} {e : BitVec 4} {x : EpRegs} (h : x.ctrl = (s.ep d e).ctrl) :
    stallKept s (s.setEp d e x) := by
  intro d' e'
  by_cases hh : d' = d ∧ e' = e
  · obtain ⟨rfl, rfl⟩ := hh
    simp [EpRegs.stall, h]
  · rw [ep_setEp_other _ _ _ _ _ _ hh]

/-! ## Operations -/

theorem epArm_kept {e : BitVec 4} {d : Dir} {b : Bank} {size : BitVec 16} {buf : Addr} {s t : State}
    (h : epArm e d b size buf s = .ok t) : kept s t ∧ stallKept s t ∧ t.ctlstate = s.ctlstate := by
  obtain ⟨-, -, -, -, -, -, -, -, rfl⟩ := epArm_ok.1 h
  exact ⟨kept_setEp .., stallKept_setEp (ctrl_arm ..), by simp⟩

theorem epCancel_kept {e : BitVec 4} {d : Dir} {s t : State} (h : epCancel e d s = .ok t) :
    kept s t ∧ stallKept s t ∧ t.ctlstate = s.ctlstate := by
  obtain ⟨-, -, rfl⟩ := epCancel_ok.1 h
  exact ⟨kept_setEp .., stallKept_setEp rfl, by simp⟩

theorem epStall_kept {e : BitVec 4} {d : Dir} {s t : State} (h : epStall e d s = .ok t) :
    kept s t ∧ t.ctlstate = s.ctlstate := by
  obtain ⟨-, -, rfl⟩ := epStall_ok.1 h
  exact ⟨kept_setEp .., by simp⟩

theorem epInit_kept {e : BitVec 4} {d : Dir} {type bufsize : BitVec 2} {pingpong : Bool} {s t : State}
    (h : epInit e d type bufsize pingpong s = .ok t) : kept s t ∧ t.ctlstate = s.ctlstate := by
  obtain ⟨-, -, -, rfl⟩ := epInit_ok.1 h
  exact ⟨kept_setEp .., by simp⟩

/-- After `RearmOut` EP0 OUT is armed (R205). -/
theorem rearmOut_kept {s t : State} (h : rearmOut s = .ok t) :
    kept s t ∧ stallKept s t ∧ t.ctlstate = s.ctlstate ∧ (t.ep .OUT 0).nack .b0 = false := by
  obtain ⟨x, rfl, h1, h2⟩ := rearmOut_armed h
  exact ⟨kept_setEp .., stallKept_setEp h2, by simp, by simpa using h1⟩

theorem memWrite_kept {s t : State} {a : Nat} {vs : List Byte} (h : memWrite s a vs = .ok t) :
    kept s t ∧ stallKept s t ∧ t.ctlstate = s.ctlstate := by
  obtain ⟨-, rfl⟩ := memWrite_ok.1 h
  exact ⟨kept_setRamBytes .., fun d e => by simp, by simp⟩

/-- `CTL_IN` (R200). -/
theorem ctlIn_kept {size : BitVec 16} {s t : State} (h : ctlIn size s = .ok t) :
    kept s t ∧ stallKept s t ∧ t.ctlstate = csDataIn ∧ (t.ep .OUT 0).nack .b0 = false := by
  have h := (inDispatch_ok.1 h).2
  split at h
  · cases h
  obtain ⟨a, ha, h⟩ := bind_ok.1 h
  obtain ⟨b, hb, h⟩ := bind_ok.1 h
  cases h
  have ha := epArm_kept ha
  have hb := rearmOut_kept hb
  exact ⟨(ha.1.trans hb.1).trans (kept_setCtl ..), ha.2.1.trans hb.2.1, rfl, hb.2.2.2⟩

/-- `CTL_OUT` (R201). -/
theorem ctlOut_kept {s t : State} (h : ctlOut s = .ok t) :
    kept s t ∧ stallKept s t ∧ t.ctlstate = csDataOut ∧ (t.ep .OUT 0).nack .b0 = false := by
  obtain ⟨a, ha, h⟩ := bind_ok.1 (inDispatch_ok.1 h).2
  cases h
  have ha := rearmOut_kept ha
  exact ⟨ha.1.trans (kept_setCtl ..), ha.2.1, rfl, ha.2.2.2⟩

/-- `CTL_ACK` (R202). -/
theorem ctlAck_kept {s t : State} (h : ctlAck s = .ok t) :
    kept s t ∧ stallKept s t ∧ t.ctlstate = csStatusIn ∧ (t.ep .OUT 0).nack .b0 = false := by
  obtain ⟨a, ha, h⟩ := bind_ok.1 (inDispatch_ok.1 h).2
  obtain ⟨b, hb, h⟩ := bind_ok.1 h
  cases h
  have ha := epArm_kept ha
  have hb := rearmOut_kept hb
  exact ⟨(((kept_setCtl ..).trans ha.1).trans hb.1).trans (kept_setCtl ..), ha.2.1.trans hb.2.1, rfl, hb.2.2.2⟩

/-- `CTL_STALL` (R203): it sets the halt condition of EP0, and keeps every other. -/
theorem ctlStall_kept {s t : State} (h : ctlStall s = .ok t) :
    kept s t ∧ t.ctlstate = csIdle ∧ (t.ep .OUT 0).nack .b0 = false ∧
    ∀ d e, (t.ep d e).stall = (s.ep d e).stall ∨ (e = 0 ∧ (t.ep d e).stall = true) := by
  obtain ⟨a, ha, h⟩ := bind_ok.1 (inDispatch_ok.1 h).2
  obtain ⟨b, hb, h⟩ := bind_ok.1 h
  obtain ⟨c, hc, h⟩ := bind_ok.1 h
  obtain ⟨d, hd, h⟩ := bind_ok.1 h
  obtain ⟨u, hu, h⟩ := bind_ok.1 h
  cases h
  have ha := epCancel_kept ha
  have hb := epCancel_kept hb
  have hu := rearmOut_kept hu
  refine ⟨((((ha.1.trans hb.1).trans (epStall_kept hc).1).trans (epStall_kept hd).1).trans hu.1).trans
    (kept_setCtl ..), rfl, hu.2.2.2, fun d' e' => ?_⟩
  obtain ⟨-, -, rfl⟩ := epStall_ok.1 hc
  obtain ⟨-, -, rfl⟩ := epStall_ok.1 hd
  by_cases hz : e' = 0
  · subst hz
    refine .inr ⟨rfl, (hu.2.1 d' 0).trans ?_⟩
    cases d' <;> simp [EpRegs.setStall, EpRegs.stall]
  · refine .inl ((hu.2.1 d' e').trans ?_)
    rw [ep_setEp_other _ _ _ _ _ _ (fun h => hz h.2), ep_setEp_other _ _ _ _ _ _ (fun h => hz h.2)]
    exact (ha.2.1.trans hb.2.1) d' e'

/-- `USB_REINIT` keeps what it does not name (R132, R283). -/
theorem usbReinit_kept {s t : State} (h : usbReinit s = .ok t) : kept (clearAll s) t ∧ t.ctlstate = csIdle := by
  obtain ⟨a, ha, h⟩ := bind_ok.1 h
  obtain ⟨b, hb, h⟩ := bind_ok.1 h
  have ha := epInit_kept ha
  have hb := epInit_kept hb
  have h := epArm_kept h
  exact ⟨(ha.1.trans hb.1).trans h.1, by rw [h.2.2, hb.2, ha.2]; rfl⟩

/-- `BRIDGE_COPY` (R231, R234): `NVMCMD` is after it what it was before. -/
theorem bridgeCopy_kept {len : BitVec 16} {src : Addr} {s t : State} (h : bridgeCopy len src s = .ok t) :
    kept s t ∧ stallKept s t ∧ t.ctlstate = s.ctlstate := by
  unfold bridgeCopy at h
  split at h
  · cases h
  split at h
  · cases h
  split at h
  · cases h
  obtain ⟨bytes, -, h⟩ := bind_ok.1 h
  obtain ⟨u, hu, h⟩ := bind_ok.1 h
  obtain ⟨-, rfl⟩ := memWrite_ok.1 hu
  obtain ⟨m, hm, rfl⟩ := map_ok.1 h
  have := valueOf_ok.1 hm
  simp only [setRamBytes_fields, saveMode_fields, Option.some.injEq] at this
  subst this
  exact ⟨by simp [kept], fun d e => by cases d <;> simp [State.ep], by simp⟩

/-- `BUF_COPY` (R232). -/
theorem bufCopy_kept {len : BitVec 16} {src : Addr} {s t : State} (h : bufCopy len src s = .ok t) :
    kept s t ∧ stallKept s t ∧ t.ctlstate = s.ctlstate := by
  unfold bufCopy at h
  split at h
  · cases h
  split at h
  · cases h
  split at h
  · cases h
  obtain ⟨bytes, -, h⟩ := bind_ok.1 h
  exact memWrite_kept h

/-- N1 of `EV_NEWREQUEST` (R191). -/
theorem newRequest_ok {s t : State} :
    newRequest s = .ok t ↔ ∃ bytes, s.par.ep0OutBuf.toNat + 8 ≤ ramSize s.par ∧
      s.ramBytes s.par.ep0OutBuf.toNat 8 = some bytes ∧
      t = ((s.record (setupWord bytes)).setCtl csSetup).emit (.newReq (setupWord bytes)) := by
  unfold newRequest
  rw [bind_ok]
  constructor
  · rintro ⟨bytes, hb, h⟩
    obtain ⟨h1, h2⟩ := memRead_ok.1 hb
    exact ⟨bytes, by omega, h2, (Except.ok.inj h).symm⟩
  · rintro ⟨bytes, h1, h2, rfl⟩
    exact ⟨bytes, memRead_ok.2 ⟨by omega, h2⟩, rfl⟩

/-- `EV_CTLOUT_DONE` (R196). -/
theorem evCtloutDone_kept {s t : State} (h : evCtloutDone s = .ok t) :
    kept s t ∧ stallKept s t ∧ (t.ctlstate = s.ctlstate ∨ t.ctlstate ≠ csSetup) ∧
    (t.ep .OUT 0).nack .b0 = false := by
  obtain ⟨n, -, h⟩ := bind_ok.1 h
  simp only at h
  have h0 := kept_emit s (.ctlOut n)
  split at h
  · obtain ⟨a, ha, h⟩ := bind_ok.1 h
    obtain ⟨b, hb, h⟩ := bind_ok.1 h
    cases h
    have ha := epArm_kept ha
    have hb := rearmOut_kept hb
    exact ⟨((h0.trans ha.1).trans hb.1).trans (kept_setCtl ..), ha.2.1.trans hb.2.1,
      .inr (by decide : csStatusIn ≠ csSetup), hb.2.2.2⟩
  split at h
  · obtain ⟨a, ha, h⟩ := bind_ok.1 h
    obtain ⟨b, hb, h⟩ := bind_ok.1 h
    cases h
    have ha := epCancel_kept ha
    have hb := rearmOut_kept hb
    exact ⟨((h0.trans ha.1).trans hb.1).trans (kept_setCtl ..), ha.2.1.trans hb.2.1,
      .inr (by decide : csIdle ≠ csSetup), hb.2.2.2⟩
  split at h
  · obtain ⟨a, ha, h⟩ := bind_ok.1 h
    cases h
    have ha := rearmOut_kept ha
    exact ⟨(h0.trans ha.1).trans (kept_setCtl ..), ha.2.1, .inr (by decide : csIdle ≠ csSetup), ha.2.2.2⟩
  · have h := rearmOut_kept h
    exact ⟨h0.trans h.1, h.2.1, .inl h.2.2.1, h.2.2.2⟩

/-- `EV_CTLIN_DONE` (R197). -/
theorem evCtlinDone_kept (stale : Bool) (s : State) :
    kept s (evCtlinDone stale s) ∧ stallKept s (evCtlinDone stale s) ∧
    ((evCtlinDone stale s).ctlstate = s.ctlstate ∨ (evCtlinDone stale s).ctlstate ≠ csSetup) := by
  unfold evCtlinDone
  have h0 := kept_emit s (.ctlIn stale)
  simp only
  split
  · exact ⟨h0, fun _ _ => rfl, .inl rfl⟩
  split
  · exact ⟨h0.trans (kept_setCtl ..), fun _ _ => rfl, .inr (by decide : csStatusOut ≠ csSetup)⟩
  split
  · exact ⟨h0.trans (kept_setCtl ..), fun _ _ => rfl, .inr (by decide : csIdle ≠ csSetup)⟩
  · exact ⟨h0, fun _ _ => rfl, .inl rfl⟩

end Sys2Proof.Machine
end

