-- ==== Sys2Proof/Laws/PerInstr.lean ====
section
/-! SUPPORT. The family `Encoding` of statements about every instruction as syntax: the word the encoder writes is one
of the opcode map, its row reads the instruction back, and the word asks for the payload the encoder sends. -/
namespace Sys2Proof.Laws

/-- The encoder's word is legal and stands for the instruction (R90, R91, R95). -/
def Encoding.Statement (i : Instr) : Prop :=
  (∃ r ∈ rows, r.matches (encodeWord i) = true ∧ r.build (encodeWord i) (encodePayload i) = i) ∧
  (i.wf = true → payloadLen (encodeWord i) = (encodePayload i).length)

theorem Encoding.epInit (ep : BitVec 4) (dir : Dir) (type : BitVec 2) (bufsize : BitVec 2) (pingpong : Bool) :
    Encoding.Statement (.epInit ep dir type bufsize pingpong) := by
  refine ⟨⟨rowsEndpoint[0], by simp [rows, rowsEndpoint], ?_, ?_⟩, fun h => ?_⟩
  · simp [rowsEndpoint, Row.matches, encodeWord, formatC_and, operand_init]
    rfl
  · simp only [rowsEndpoint, encodeWord, List.getElem_cons_zero, List.cons_append,
      extract_in_a _ 0 2 (by decide), extract_in_a _ 2 2 (by decide), bit_in_a _ 4 (by decide), ep_formatC,
      dir_formatC, a_formatC, operand_init pingpong bufsize type]
  · simp [payloadLen, encodeWord, encodePayload]

theorem Encoding.epCancel (ep : BitVec 4) (dir : Dir) :
    Encoding.Statement (.epCancel ep dir) := by
  refine ⟨⟨rowsEndpoint[1], by simp [rows, rowsEndpoint], ?_, ?_⟩, fun h => ?_⟩
  · simp [rowsEndpoint, Row.matches, encodeWord, formatC_and]
    rfl
  · simp [rowsEndpoint, encodeWord, encodePayload]
  · simp [payloadLen, encodeWord, encodePayload]

theorem Encoding.epArm (ep : BitVec 4) (dir : Dir) (bank : Bank) (size : BitVec 16) (buf : Addr) :
    Encoding.Statement (.epArm ep dir bank size buf) := by
  refine ⟨⟨rowsEndpoint[2], by simp [rows, rowsEndpoint], ?_, ?_⟩, fun h => ?_⟩
  · simp [rowsEndpoint, Row.matches, encodeWord, formatC_and]
    rfl
  · simp [rowsEndpoint, encodeWord, encodePayload]
  · simp [payloadLen, encodeWord, encodePayload]

theorem Encoding.epIsdone (ep : BitVec 4) (dir : Dir) (bank : Bank) (any : Bool) :
    Encoding.Statement (.epIsdone ep dir bank any) := by
  refine ⟨⟨rowsEndpoint[3], by simp [rows, rowsEndpoint], ?_, ?_⟩, fun h => ?_⟩
  · simp [rowsEndpoint, Row.matches, encodeWord, formatC_and, operand_flag]
    rfl
  · simp only [rowsEndpoint, encodeWord, List.getElem_cons_zero, List.getElem_cons_succ, List.cons_append,
      bit_in_a _ 0 (by decide), ep_formatC, dir_formatC, bank_formatC, a_formatC, operand_flag any]
  · simp [payloadLen, encodeWord, encodePayload]

theorem Encoding.epClrdone (ep : BitVec 4) (dir : Dir) :
    Encoding.Statement (.epClrdone ep dir) := by
  refine ⟨⟨rowsEndpoint[4], by simp [rows, rowsEndpoint], ?_, ?_⟩, fun h => ?_⟩
  · simp [rowsEndpoint, Row.matches, encodeWord, formatC_and]
    rfl
  · simp [rowsEndpoint, encodeWord, encodePayload]
  · simp [payloadLen, encodeWord, encodePayload]

theorem Encoding.epIsready (ep : BitVec 4) (dir : Dir) :
    Encoding.Statement (.epIsready ep dir) := by
  refine ⟨⟨rowsEndpoint[5], by simp [rows, rowsEndpoint], ?_, ?_⟩, fun h => ?_⟩
  · simp [rowsEndpoint, Row.matches, encodeWord, formatC_and]
    rfl
  · simp [rowsEndpoint, encodeWord, encodePayload]
  · simp [payloadLen, encodeWord, encodePayload]

theorem Encoding.epIsempty (ep : BitVec 4) (dir : Dir) :
    Encoding.Statement (.epIsempty ep dir) := by
  refine ⟨⟨rowsEndpoint[6], by simp [rows, rowsEndpoint], ?_, ?_⟩, fun h => ?_⟩
  · simp [rowsEndpoint, Row.matches, encodeWord, formatC_and]
    rfl
  · simp [rowsEndpoint, encodeWord, encodePayload]
  · simp [payloadLen, encodeWord, encodePayload]

theorem Encoding.epNextbank (ep : BitVec 4) (dir : Dir) :
    Encoding.Statement (.epNextbank ep dir) := by
  refine ⟨⟨rowsEndpoint[7], by simp [rows, rowsEndpoint], ?_, ?_⟩, fun h => ?_⟩
  · simp [rowsEndpoint, Row.matches, encodeWord, formatC_and]
    rfl
  · simp [rowsEndpoint, encodeWord, encodePayload]
  · simp [payloadLen, encodeWord, encodePayload]

theorem Encoding.epStall (ep : BitVec 4) (dir : Dir) :
    Encoding.Statement (.epStall ep dir) := by
  refine ⟨⟨rowsEndpoint[8], by simp [rows, rowsEndpoint], ?_, ?_⟩, fun h => ?_⟩
  · simp [rowsEndpoint, Row.matches, encodeWord, formatC_and]
    rfl
  · simp [rowsEndpoint, encodeWord, encodePayload]
  · simp [payloadLen, encodeWord, encodePayload]

theorem Encoding.epRdstatus (ep : BitVec 4) (dir : Dir) (mask : Byte) :
    Encoding.Statement (.epRdstatus ep dir mask) := by
  refine ⟨⟨rowsEndpoint[9], by simp [rows, rowsEndpoint], ?_, ?_⟩, fun h => ?_⟩
  · simp [rowsEndpoint, Row.matches, encodeWord, formatC_and, operand_byte]
    rfl
  · simp [rowsEndpoint, encodeWord, encodePayload]
  · simp [payloadLen, encodeWord, encodePayload]

theorem Encoding.epTac (ep : BitVec 4) (dir : Dir) (mask : Byte) :
    Encoding.Statement (.epTac ep dir mask) := by
  refine ⟨⟨rowsEndpoint[10], by simp [rows, rowsEndpoint], ?_, ?_⟩, fun h => ?_⟩
  · simp [rowsEndpoint, Row.matches, encodeWord, formatC_and, operand_byte]
    rfl
  · simp [rowsEndpoint, encodeWord, encodePayload]
  · simp [payloadLen, encodeWord, encodePayload]

theorem Encoding.epTas (ep : BitVec 4) (dir : Dir) (mask : Byte) :
    Encoding.Statement (.epTas ep dir mask) := by
  refine ⟨⟨rowsEndpoint[11], by simp [rows, rowsEndpoint], ?_, ?_⟩, fun h => ?_⟩
  · simp [rowsEndpoint, Row.matches, encodeWord, formatC_and, operand_byte]
    rfl
  · simp [rowsEndpoint, encodeWord, encodePayload]
  · simp [payloadLen, encodeWord, encodePayload]

theorem Encoding.epRdcnt (ep : BitVec 4) (dir : Dir) (bank : Bank) :
    Encoding.Statement (.epRdcnt ep dir bank) := by
  refine ⟨⟨rowsEndpoint[12], by simp [rows, rowsEndpoint], ?_, ?_⟩, fun h => ?_⟩
  · simp [rowsEndpoint, Row.matches, encodeWord, formatC_and]
    rfl
  · simp [rowsEndpoint, encodeWord, encodePayload]
  · simp [payloadLen, encodeWord, encodePayload]

theorem Encoding.epRdctrl (ep : BitVec 4) (dir : Dir) :
    Encoding.Statement (.epRdctrl ep dir) := by
  refine ⟨⟨rowsEndpoint[13], by simp [rows, rowsEndpoint], ?_, ?_⟩, fun h => ?_⟩
  · simp [rowsEndpoint, Row.matches, encodeWord, formatC_and]
    rfl
  · simp [rowsEndpoint, encodeWord, encodePayload]
  · simp [payloadLen, encodeWord, encodePayload]

theorem Encoding.gRd (reg : BitVec 4) :
    Encoding.Statement (.gRd reg) := by
  refine ⟨⟨rowsGlobal[0], by simp [rows, rowsGlobal], ?_, ?_⟩, fun h => ?_⟩
  · simp [rowsGlobal, Row.matches, encodeWord, formatC_and, operand_reg]
    rfl
  · simp only [rowsGlobal, encodeWord, List.getElem_cons_zero,
      extract_in_a _ 0 4 (by decide), a_formatC, operand_reg reg]
  · simp [payloadLen, encodeWord, encodePayload]

theorem Encoding.ifaClr (mask : Byte) :
    Encoding.Statement (.ifaClr mask) := by
  refine ⟨⟨rowsGlobal[1], by simp [rows, rowsGlobal], ?_, ?_⟩, fun h => ?_⟩
  · simp [rowsGlobal, Row.matches, encodeWord, formatC_and, operand_byte]
    rfl
  · simp [rowsGlobal, encodeWord, encodePayload]
  · simp [payloadLen, encodeWord, encodePayload]

theorem Encoding.ifbClr (mask : Byte) :
    Encoding.Statement (.ifbClr mask) := by
  refine ⟨⟨rowsGlobal[2], by simp [rows, rowsGlobal], ?_, ?_⟩, fun h => ?_⟩
  · simp [rowsGlobal, Row.matches, encodeWord, formatC_and, operand_byte]
    rfl
  · simp [rowsGlobal, encodeWord, encodePayload]
  · simp [payloadLen, encodeWord, encodePayload]

theorem Encoding.setAddr (addr : BitVec 7) :
    Encoding.Statement (.setAddr addr) := by
  refine ⟨⟨rowsGlobal[3], by simp [rows, rowsGlobal], ?_, ?_⟩, fun h => ?_⟩
  · simp [rowsGlobal, Row.matches, encodeWord, formatC_and, operand_addr]
    rfl
  · simp only [rowsGlobal, encodeWord, List.getElem_cons_zero, List.getElem_cons_succ,
      extract_in_a _ 0 7 (by decide), a_formatC, operand_addr addr]
  · simp [payloadLen, encodeWord, encodePayload]

theorem Encoding.attach :
    Encoding.Statement .attach := by
  exact ⟨⟨rowsGlobal[4], by simp [rows, rowsGlobal], by decide, by decide⟩, by decide⟩

theorem Encoding.detach :
    Encoding.Statement .detach := by
  exact ⟨⟨rowsGlobal[5], by simp [rows, rowsGlobal], by decide, by decide⟩, by decide⟩

theorem Encoding.intEnable (busevie : Bool) (trnie : Bool) :
    Encoding.Statement (.intEnable busevie trnie) := by
  refine ⟨⟨rowsGlobal[6], by simp [rows, rowsGlobal], ?_, ?_⟩, fun h => ?_⟩
  · simp [rowsGlobal, Row.matches, encodeWord, formatC_and, operand_enables]
    rfl
  · simp only [rowsGlobal, encodeWord, List.getElem_cons_zero, List.getElem_cons_succ,
      bit_in_a _ 0 (by decide), bit_in_a _ 1 (by decide), a_formatC, operand_enables busevie trnie]
  · simp [payloadLen, encodeWord, encodePayload]

theorem Encoding.usbReinit :
    Encoding.Statement .usbReinit := by
  exact ⟨⟨rowsGlobal[7], by simp [rows, rowsGlobal], by decide, by decide⟩, by decide⟩

theorem Encoding.ctlIn (size : BitVec 16) :
    Encoding.Statement (.ctlIn size) := by
  refine ⟨⟨rowsEngine[0], by simp [rows, rowsEngine], ?_, ?_⟩, fun h => ?_⟩
  · simp [rowsEngine, Row.matches, encodeWord, formatC_and]
    rfl
  · simp [rowsEngine, encodeWord, encodePayload]
  · simp [payloadLen, encodeWord, encodePayload]

theorem Encoding.ctlOut :
    Encoding.Statement .ctlOut := by
  exact ⟨⟨rowsEngine[1], by simp [rows, rowsEngine], by decide, by decide⟩, by decide⟩

theorem Encoding.ctlAck :
    Encoding.Statement .ctlAck := by
  exact ⟨⟨rowsEngine[2], by simp [rows, rowsEngine], by decide, by decide⟩, by decide⟩

theorem Encoding.ctlStall :
    Encoding.Statement .ctlStall := by
  exact ⟨⟨rowsEngine[3], by simp [rows, rowsEngine], by decide, by decide⟩, by decide⟩

theorem Encoding.bridgeCopy (len : BitVec 16) (src : Addr) :
    Encoding.Statement (.bridgeCopy len src) := by
  refine ⟨⟨rowsEngine[4], by simp [rows, rowsEngine], ?_, ?_⟩, fun h => ?_⟩
  · simp [rowsEngine, Row.matches, encodeWord, formatC_and]
    rfl
  · simp [rowsEngine, encodeWord, encodePayload]
  · simp [payloadLen, encodeWord, encodePayload]

theorem Encoding.bufCopy (len : BitVec 16) (src : Addr) :
    Encoding.Statement (.bufCopy len src) := by
  refine ⟨⟨rowsEngine[5], by simp [rows, rowsEngine], ?_, ?_⟩, fun h => ?_⟩
  · simp [rowsEngine, Row.matches, encodeWord, formatC_and]
    rfl
  · simp [rowsEngine, encodeWord, encodePayload]
  · simp [payloadLen, encodeWord, encodePayload]

theorem Encoding.ramWr (data : Byte) (addr : Addr) :
    Encoding.Statement (.ramWr data addr) := by
  refine ⟨⟨rowsEngine[6], by simp [rows, rowsEngine], ?_, ?_⟩, fun h => ?_⟩
  · simp [rowsEngine, Row.matches, encodeWord, formatC_and, operand_byte]
    rfl
  · simp [rowsEngine, encodeWord, encodePayload]
  · simp [payloadLen, encodeWord, encodePayload]

theorem Encoding.ramRd (addr : Addr) :
    Encoding.Statement (.ramRd addr) := by
  refine ⟨⟨rowsEngine[7], by simp [rows, rowsEngine], ?_, ?_⟩, fun h => ?_⟩
  · simp [rowsEngine, Row.matches, encodeWord, formatC_and]
    rfl
  · simp [rowsEngine, encodeWord, encodePayload]
  · simp [payloadLen, encodeWord, encodePayload]

theorem Encoding.nvmcmdWr (value : Byte) :
    Encoding.Statement (.nvmcmdWr value) := by
  refine ⟨⟨rowsEngine[8], by simp [rows, rowsEngine], ?_, ?_⟩, fun h => ?_⟩
  · simp [rowsEngine, Row.matches, encodeWord, formatC_and, operand_byte]
    rfl
  · simp [rowsEngine, encodeWord, encodePayload]
  · simp [payloadLen, encodeWord, encodePayload]

theorem Encoding.busSetup (ep : BitVec 4) (devaddr : BitVec 7) (payload : List Byte) :
    Encoding.Statement (.busSetup ep devaddr payload) := by
  refine ⟨⟨rowsBus[0], by simp [rows, rowsBus], ?_, ?_⟩, fun h => ?_⟩
  · simp [rowsBus, Row.matches, encodeWord, formatE_and]
    rfl
  · simp [rowsBus, encodeWord, encodePayload]
  · have hp : payload.length < 2 ^ 16 := by simpa [Instr.wf, payloadFits] using h
    simp [payloadLen, encodeWord, encodePayload, Nat.mod_eq_of_lt hp] <;> omega

theorem Encoding.busOut (ep : BitVec 4) (devaddr : BitVec 7) (payload : List Byte) :
    Encoding.Statement (.busOut ep devaddr payload) := by
  refine ⟨⟨rowsBus[1], by simp [rows, rowsBus], ?_, ?_⟩, fun h => ?_⟩
  · simp [rowsBus, Row.matches, encodeWord, formatE_and]
    rfl
  · simp [rowsBus, encodeWord, encodePayload]
  · have hp : payload.length < 2 ^ 16 := by simpa [Instr.wf, payloadFits] using h
    simp [payloadLen, encodeWord, encodePayload, Nat.mod_eq_of_lt hp] <;> omega

theorem Encoding.busIn (ep : BitVec 4) (hack : Bool) (devaddr : BitVec 7) :
    Encoding.Statement (.busIn ep hack devaddr) := by
  refine ⟨⟨rowsBus[2], by simp [rows, rowsBus], ?_, ?_⟩, fun h => ?_⟩
  · simp [rowsBus, Row.matches, encodeWord, formatE_and]
    rfl
  · cases hack <;> simp [rowsBus, encodeWord, -BitVec.getLsbD_eq_getElem, formatE_hack]
  · simp [payloadLen, encodeWord, encodePayload]

theorem Encoding.busSof :
    Encoding.Statement .busSof := by
  exact ⟨⟨rowsBus[3], by simp [rows, rowsBus], by decide, by decide⟩, by decide⟩

theorem Encoding.busReset :
    Encoding.Statement .busReset := by
  exact ⟨⟨rowsBus[4], by simp [rows, rowsBus], by decide, by decide⟩, by decide⟩

theorem Encoding.busSuspend :
    Encoding.Statement .busSuspend := by
  exact ⟨⟨rowsBus[5], by simp [rows, rowsBus], by decide, by decide⟩, by decide⟩

theorem Encoding.busResume :
    Encoding.Statement .busResume := by
  exact ⟨⟨rowsBus[6], by simp [rows, rowsBus], by decide, by decide⟩, by decide⟩

theorem Encoding.busCrcerr :
    Encoding.Statement .busCrcerr := by
  exact ⟨⟨rowsBus[7], by simp [rows, rowsBus], by decide, by decide⟩, by decide⟩

theorem Encoding.svcBusevent :
    Encoding.Statement .svcBusevent := by
  exact ⟨⟨rowsService[0], by simp [rows, rowsService], by decide, by decide⟩, by decide⟩

theorem Encoding.svcTrncompl :
    Encoding.Statement .svcTrncompl := by
  exact ⟨⟨rowsService[1], by simp [rows, rowsService], by decide, by decide⟩, by decide⟩

theorem Encoding.evNewrequest :
    Encoding.Statement .evNewrequest := by
  exact ⟨⟨rowsService[2], by simp [rows, rowsService], by decide, by decide⟩, by decide⟩

theorem Encoding.evCtloutDone :
    Encoding.Statement .evCtloutDone := by
  exact ⟨⟨rowsService[3], by simp [rows, rowsService], by decide, by decide⟩, by decide⟩

theorem Encoding.evCtlinDone (stale : Bool) :
    Encoding.Statement (.evCtlinDone stale) := by
  cases stale <;> exact ⟨⟨rowsService[4], by simp [rows, rowsService], by decide, by decide⟩, by decide⟩

end Sys2Proof.Laws
end

