-- ==== Sys2Proof/Laws/Step.lean ====
section
/-! SUPPORT. Everything a step can do. -/
namespace Sys2Proof.Machine

/-- The state a step starts from, with the bytes a port still holds. -/
def State.withPorts (s : State) (cmd bus : List Byte) : State := { s.tookTurn with cmd := cmd, bus := bus }

/-- Everything a step can do (R72, R170): let a turn pass, execute one word of a port, take a micro-step, or start a
handler. -/
theorem step_cases {s t : State} (h : step s = .next t) :
    t = s.tookTurn ∨
    (∃ i cmd bus, exec i (s.withPorts cmd bus) = .next t) ∨
    microStep s.tookTurn = .ok t ∨
    (∃ r, r ≠ .none ∧ s.busy = false ∧ t = s.tookTurn.startHandler r) := by
  have cmdWord : ∀ {u}, runCommandWord s.tookTurn = .next u →
      u = s.tookTurn ∨ ∃ i cmd bus, exec i (s.withPorts cmd bus) = .next u := by
    intro u h
    unfold runCommandWord at h
    split at h
    · rename_i i rest _
      exact .inr ⟨i, rest, s.bus, h⟩
    · cases h
    · cases h
    · cases h
      exact .inl rfl
  unfold step runTurn at h
  split at h
  · exact (cmdWord h).imp id .inl
  · unfold runAgent at h
    split at h
    · unfold runBusWord at h
      split at h
      · split at h
        · rename_i i rest _ _
          exact .inr (.inl ⟨i, s.cmd, rest, h⟩)
        · cases h
      · cases h
      · cases h
      · cases h
        exact .inl rfl
    · split at h
      · cases h
        exact .inl rfl
      · exact (cmdWord h).imp id .inl
    · exact .inr (.inr (.inl (outcomeOf_next.1 h)))
    · injection h with h
      split at h
      · rename_i hc
        refine .inr (.inr (.inr ⟨.hbus, by decide, ?_, h.symm⟩))
        simp only [Bool.and_eq_true, Bool.not_eq_true'] at hc
        exact hc.2
      · exact .inl h.symm
    · injection h with h
      split at h
      · rename_i hc
        refine .inr (.inr (.inr ⟨.htrn, by decide, ?_, h.symm⟩))
        simp only [Bool.and_eq_true, Bool.not_eq_true'] at hc
        exact hc.2
      · exact .inl h.symm

end Sys2Proof.Machine
end

