-- ==== Sys2Proof/Tests/Slice0.lean ====
section
/-! SUPPORT. Tests. Expected values come from the spec: the letters and numbers in the comments name the test vectors
of 95_test_vectors and 96_test_vectors_continued; the opcode words are those of R90 and R91. The second half holds, for
every obligation with hypotheses, a witness that meets them, clause by clause at the boundary of its range. -/
namespace Sys2Proof.Tests
open Sys2Proof.Machine

/-! ## Helpers -/

/-- The outcome is a next state with the property. -/
def nextIs (r : Host.Outcome State Fault Refusal) (p : State → Bool) : Bool :=
  match r with
  | .next t => p t
  | .fault _ => false
  | .refused _ => false

/-- The outcome is this fault. -/
def faultIs (r : Host.Outcome State Fault Refusal) (f : Fault) : Bool :=
  match r with
  | .next _ => false
  | .fault g => g == f
  | .refused _ => false

/-- A micro-step answers a state with the property. -/
def microIs (r : Except Fault State) (p : State → Bool) : Bool :=
  match r with
  | .ok t => p t
  | .error _ => false

/-- A micro-step stops with this fault. -/
def microFault (r : Except Fault State) (f : Fault) : Bool :=
  match r with
  | .ok _ => false
  | .error g => g == f

/-- EP0 OUT of BOOTED. -/
def bootOut : EpRegs := ⟨0x0D, 0x02, some 64, none, some 0x0000, none⟩

/-- EP0 IN of BOOTED. -/
def bootIn : EpRegs := ⟨0x0D, 0x03, none, none, none, none⟩

/-- BOOTED, as the conventions of the test vectors give it. -/
def booted : State := { (State.reset.setEp .OUT 0 bootOut).setEp .IN 0 bootIn with gctrl := 0x07 }

/-- BOOTED with another status of EP0 OUT and IN, and another engine state. -/
def engine (o i c : Byte) : State :=
  { (booted.setEp .OUT 0 { bootOut with status := o }).setEp .IN 0 { bootIn with status := i } with ctlstate := c }

/-- BOOTED with EP0 IN armed on its buffer and another engine state. -/
def engineIn (n : BitVec 7) (o c : Byte) : State :=
  (engine o 0x03 c).setEp .IN 0 ⟨0x0D, 0x02, some n, none, some 0x0040, none⟩

/-- `EP[2][OUT]` of the vectors: 64 bytes at 0x0300 and 0x0340. -/
def pair (ctrl status : Byte) : EpRegs := ⟨ctrl, status, some 64, some 64, some 0x0300, some 0x0340⟩

/-- `EP[1][IN]` of the vectors: class 0, 8 bytes at 0x0200. -/
def single (ctrl status : Byte) : EpRegs := ⟨ctrl, status, some 8, none, some 0x0200, none⟩

/-- BOOTED with `EP[2][OUT]`. -/
def with2 (ctrl status : Byte) : State := booted.setEp .OUT 2 (pair ctrl status)

/-- BOOTED with `EP[1][IN]`. -/
def with1 (status : Byte) : State := booted.setEp .IN 1 (single 0x02 status)

/-- The registers of `EP[e][d]` are these. -/
def epIs (d : Dir) (e : BitVec 4) (x : EpRegs) (t : State) : Bool := t.ep d e == x

/-- `CTRL` and `STATUS` of `EP[e][d]` are these. -/
def epFlags (d : Dir) (e : BitVec 4) (ctrl status : Byte) (t : State) : Bool :=
  (t.ep d e).ctrl == ctrl && (t.ep d e).status == status

/-- The result is this. -/
def gives (v : Word) (t : State) : Bool := t.out == .value v

/-- The bytes stored from an address up. -/
def ramIs (a : Nat) (l : List Byte) (t : State) : Bool := t.ramBytes a l.length == some l

/-- Bytes as cells from an address up. -/
def cells (a : Nat) : List Byte → List Host.Cell
  | [] => []
  | v :: l => (a, v) :: cells (a + 1) l

/-- The standard SETUP of D1: GET_DESCRIPTOR DEVICE, `wLength` 64. -/
def setupD1 : List Byte := [0x80, 0x06, 0x00, 0x01, 0x00, 0x00, 0x40, 0x00]

/-! ## Well-formedness -/

/-- The one check: a payload longer than `LEN` can say (R95). -/
theorem test_wf_refuses_long_payloads (n : Nat) (h : 65536 ≤ n) :
    (Instr.busSetup 0 0 (List.replicate n 0)).wf = false ∧ (Instr.busOut 0 0 (List.replicate n 0)).wf = false := by
  constructor <;> simp only [Instr.wf, payloadFits, List.length_replicate, decide_eq_false_iff_not] <;> omega

theorem test_wf_accepts_payloads (n : Nat) (h : n ≤ 65535) :
    (Instr.busSetup 0 0 (List.replicate n 0)).wf = true ∧ (Instr.busOut 0 0 (List.replicate n 0)).wf = true := by
  constructor <;> simp only [Instr.wf, payloadFits, List.length_replicate, decide_eq_true_eq] <;> omega

/-! ## Decoding: every constructor by a word (E1 to E52) -/

/-- E1 to E7. -/
theorem test_decode_endpoint_a :
    decodeTableWord 64 0x0120001E00000000 = some (.epInit 2 .OUT 2 3 true) ∧
    decodeTableWord 64 0x01F8000900000000 = some (.epInit 15 .IN 1 2 false) ∧
    decodeTableWord 64 0x0218000000000000 = some (.epCancel 1 .IN) ∧
    decodeTableWord 64 0x0318000800000200 = some (.epArm 1 .IN .b0 8 0x0200) ∧
    decodeTableWord 64 0x0324004000000340 = some (.epArm 2 .OUT .b1 64 0x0340) ∧
    decodeTableWord 64 0x0418000100000000 = some (.epIsdone 1 .IN .b0 true) ∧
    decodeTableWord 64 0x0424000000000000 = some (.epIsdone 2 .OUT .b1 false) := by decide

/-- E8 to E12. -/
theorem test_decode_endpoint_b :
    decodeTableWord 64 0x0518000000000000 = some (.epClrdone 1 .IN) ∧
    decodeTableWord 64 0x0620000000000000 = some (.epIsready 2 .OUT) ∧
    decodeTableWord 64 0x0720000000000000 = some (.epIsempty 2 .OUT) ∧
    decodeTableWord 64 0x0820000000000000 = some (.epNextbank 2 .OUT) ∧
    decodeTableWord 64 0x0918000000000000 = some (.epStall 1 .IN) := by decide

/-- E13 to E18. -/
theorem test_decode_endpoint_c :
    decodeTableWord 64 0x0A00001400000000 = some (.epRdstatus 0 .OUT 0x14) ∧
    decodeTableWord 64 0x0B00001400000000 = some (.epTac 0 .OUT 0x14) ∧
    decodeTableWord 64 0x0B08000400000000 = some (.epTac 0 .IN 0x04) ∧
    decodeTableWord 64 0x0C08000400000000 = some (.epTas 0 .IN 0x04) ∧
    decodeTableWord 64 0x0D24000000000000 = some (.epRdcnt 2 .OUT .b1) ∧
    decodeTableWord 64 0x0E08000000000000 = some (.epRdctrl 0 .IN) := by decide

/-- E19 to E27. -/
theorem test_decode_global :
    decodeTableWord 64 0x1000000500000000 = some (.gRd 5) ∧
    decodeTableWord 64 0x110000E000000000 = some (.ifaClr 0xE0) ∧
    decodeTableWord 64 0x1200000300000000 = some (.ifbClr 0x03) ∧
    decodeTableWord 64 0x1300007F00000000 = some (.setAddr 127) ∧
    decodeTableWord 64 0x1400000000000000 = some .attach ∧
    decodeTableWord 64 0x1500000000000000 = some .detach ∧
    decodeTableWord 64 0x1600000100000000 = some (.intEnable true false) ∧
    decodeTableWord 64 0x1600000200000000 = some (.intEnable false true) ∧
    decodeTableWord 64 0x1700000000000000 = some .usbReinit := by decide

/-- E28 to E36. -/
theorem test_decode_engine :
    decodeTableWord 64 0x2000001200000000 = some (.ctlIn 18) ∧
    decodeTableWord 64 0x2100000000000000 = some .ctlOut ∧
    decodeTableWord 64 0x2200000000000000 = some .ctlAck ∧
    decodeTableWord 64 0x2300000000000000 = some .ctlStall ∧
    decodeTableWord 64 0x2400001200001000 = some (.bridgeCopy 18 0x1000) ∧
    decodeTableWord 64 0x2500000800000100 = some (.bufCopy 8 0x0100) ∧
    decodeTableWord 64 0x300000AB00000200 = some (.ramWr 0xAB 0x0200) ∧
    decodeTableWord 64 0x310000000000FFFF = some (.ramRd 0xFFFF) ∧
    decodeTableWord 64 0x3200002300000000 = some (.nvmcmdWr 0x23) := by decide

/-- E37 to E46: the payload follows the word. -/
theorem test_decode_bus :
    decode [0x80, 0x00, 0x00, 0x08, 0x00, 0x00, 0x00, 0x05, 0x00, 0x09, 0x01, 0x00, 0x00, 0x00, 0x00, 0x00] =
      .ok (.busSetup 0 5 [0x00, 0x09, 0x01, 0x00, 0x00, 0x00, 0x00, 0x00]) [] ∧
    decode [0x81, 0x20, 0x00, 0x03, 0x00, 0x00, 0x00, 0x00, 0x11, 0x22, 0x33, 0xEE] =
      .ok (.busOut 2 0 [0x11, 0x22, 0x33]) [0xEE] ∧
    decodeTableWord 64 0x8211000000000000 = some (.busIn 1 true 0) ∧
    decodeTableWord 64 0x820000000000007F = some (.busIn 0 false 127) ∧
    decodeTableWord 64 0x8300000000000000 = some .busSof ∧
    decodeTableWord 64 0x8400000000000000 = some .busReset ∧
    decodeTableWord 64 0x8500000000000000 = some .busSuspend ∧
    decodeTableWord 64 0x8600000000000000 = some .busResume ∧
    decodeTableWord 64 0x8700000000000000 = some .busCrcerr := by decide

/-- E47 to E52. -/
theorem test_decode_service :
    decodeTableWord 64 0xC000000000000000 = some .svcBusevent ∧
    decodeTableWord 64 0xC100000000000000 = some .svcTrncompl ∧
    decodeTableWord 64 0xC200000000000000 = some .evNewrequest ∧
    decodeTableWord 64 0xC300000000000000 = some .evCtloutDone ∧
    decodeTableWord 64 0xC400000000000000 = some (.evCtlinDone false) ∧
    decodeTableWord 64 0xC400000000000001 = some (.evCtlinDone true) := by decide

/-- K1, K4, K9, K12: extreme field values decode. -/
theorem test_decode_extremes :
    decodeTableWord 64 0x03FCFFFFFFFFFFFF = some (.epArm 15 .IN .b1 0xFFFF 0xFFFFFFFF) ∧
    decodeTableWord 64 0x04FC000100000000 = some (.epIsdone 15 .IN .b1 true) ∧
    decodeTableWord 64 0x24000040FFFFFFFF = some (.bridgeCopy 0x40 0xFFFFFFFF) ∧
    decodeTableWord 64 0x82F100000000007F = some (.busIn 15 true 127) := by decide

/-- The decoder finds no instruction in the word, and names it a command. -/
def noCommand (w : Word) : Bool := decode (wordBytes w) == .illegalCommand

/-- The decoder refuses the word as an event. -/
def noEvent (w : Word) : Bool := decode (wordBytes w) == .illegalEvent

/-- X2, X7, X13 to X20: undecodable words of format C and of the reserved space. -/
theorem test_decode_refuses_commands :
    [0x0F00000000000000, 0x4000000000000000, 0x0204000000000000, 0x0101000200000000, 0x0100002200000000].all
      noCommand = true ∧
    [0x1400000000000001, 0x1010000400000000, 0x1600000400000000, 0x1300008000000000, 0x2200000100000000].all
      noCommand = true := by decide

/-- X9 to X12, X21 to X24: undecodable words of formats E and S. -/
theorem test_decode_refuses_events :
    [0x8800000000000000, 0xBF00000000000000, 0xC500000000000000, 0xFF00000000000000].all noEvent = true ∧
    [0x8200000100000000, 0x8308000000000000, 0xC200000000000001, 0x8000000800000080].all noEvent = true := by decide

/-- A word of which a byte is still missing, and one of which a payload byte is. -/
theorem test_decode_waits :
    decode [0x14, 0, 0, 0, 0, 0, 0] = .incomplete ∧ decode [0x81, 0, 0, 1, 0, 0, 0, 0] = .incomplete := by decide

/-! ## Endpoint commands -/

/-- A2: an armed, halted direction is initialised afresh. -/
theorem test_epInit_resets_flags : nextIs (exec (.epInit 2 .OUT 2 3 true) (with2 0x3E 0x2C))
    (epIs .OUT 2 ⟨0x1E, 0x03, none, none, none, none⟩) = true := by decide

/-- A4, A5: a reserved type, and ping-pong on a control direction. -/
theorem test_epInit_reserved : faultIs (exec (.epInit 1 .OUT 3 0 false) State.reset) .cvReserved = true ∧
    faultIs (exec (.epInit 0 .OUT 1 3 true) State.reset) .cvReserved = true := by decide

/-- A10. -/
theorem test_epCancel_sets_nacks :
    nextIs (exec (.epCancel 2 .OUT) (with2 0x1E 0x2C)) (epIs .OUT 2 (pair 0x1E 0x2F)) = true := by decide

/-- A17: a range that ends at the top of `RAM`; `DONE0` is cleared with the arm. -/
theorem test_epArm_top_of_ram : nextIs (exec (.epArm 1 .IN .b0 8 0xFFF8) (with1 0x07))
    (epIs .IN 1 ⟨0x02, 0x02, some 8, none, some 0xFFF8, none⟩) = true := by decide

/-- A28: arming bank 0 leaves `DONE1`. -/
theorem test_epArm_leaves_other_bank : nextIs (exec (.epArm 2 .OUT .b0 64 0x0300) (with2 0x1E 0x0B))
    (epIs .OUT 2 (pair 0x1E 0x0A)) = true := by decide

/-- Q1, Q3 to Q5. -/
theorem test_epIsdone : nextIs (exec (.epIsdone 1 .IN .b0 true) (with1 0x07)) (gives 1) = true ∧
    nextIs (exec (.epIsdone 2 .OUT .b0 false) (with2 0x1E 0x0B)) (gives 0) = true ∧
    nextIs (exec (.epIsdone 2 .OUT .b1 false) (with2 0x1E 0x0B)) (gives 1) = true ∧
    nextIs (exec (.epIsdone 2 .OUT .b0 true) (with2 0x1E 0x0B)) (gives 1) = true := by decide

/-- Q10: `SETUP` and the `NACK` flags are kept. -/
theorem test_epClrdone : nextIs (exec (.epClrdone 2 .OUT) (with2 0x0D 0x1F)) (epFlags .OUT 2 0x0D 0x13) = true := by
  decide

/-- Q17, Q25: bank 1 counts with ping-pong only. -/
theorem test_epIsready : nextIs (exec (.epIsready 2 .OUT) (with2 0x0E 0x02)) (gives 0) = true ∧
    nextIs (exec (.epIsready 2 .OUT) (with2 0x1E 0x02)) (gives 1) = true := by decide

/-- Q16, Q24. -/
theorem test_epIsempty : nextIs (exec (.epIsempty 2 .OUT) (with2 0x0E 0x01)) (gives 1) = true ∧
    nextIs (exec (.epIsempty 2 .OUT) (with2 0x1E 0x01)) (gives 0) = true := by decide

/-- Q31, Q32, and `BANK` set by `EP_TAS` on a direction with one bank (R118, log entry 26). -/
theorem test_epNextbank : nextIs (exec (.epNextbank 2 .OUT) (with2 0x1E 0x25)) (gives 1) = true ∧
    nextIs (exec (.epNextbank 2 .OUT) (with2 0x1E 0x0F)) (gives 0) = true ∧
    nextIs (exec (.epNextbank 2 .OUT) (with2 0x0E 0x23)) (gives 0) = true := by decide

/-- Q35: the bank stays armed. -/
theorem test_epStall : nextIs (exec (.epStall 2 .OUT) (with2 0x0E 0x02)) (epIs .OUT 2 (pair 0x2E 0x02)) = true := by
  decide

/-- Q38, Q42: also on a disabled direction. -/
theorem test_epRdstatus : nextIs (exec (.epRdstatus 0 .OUT 0x14) (engine 0x17 0x03 0x00)) (gives 0x14) = true ∧
    nextIs (exec (.epRdstatus 7 .IN 0xFF) State.reset) (gives 0x03) = true := by decide

/-- Q44, Q46: the old value; mask bits 7 and 6 are ignored. -/
theorem test_epTac :
    nextIs (exec (.epTac 0 .OUT 0x14) (engine 0x13 0x03 0x00)) (fun t => gives 0x13 t && epFlags .OUT 0 0x0D 0x03 t) =
      true ∧
    nextIs (exec (.epTac 0 .OUT 0xFF) (engine 0x3F 0x03 0x00)) (fun t => gives 0x3F t && epFlags .OUT 0 0x0D 0x00 t) =
      true := by decide

/-- Q49, Q50. -/
theorem test_epTas :
    nextIs (exec (.epTas 0 .OUT 0x10) (engine 0x02 0x03 0x00)) (fun t => gives 0x02 t && epFlags .OUT 0 0x0D 0x12 t) =
      true ∧
    nextIs (exec (.epTas 0 .OUT 0xFF) (engine 0x00 0x03 0x00)) (fun t => gives 0x00 t && epFlags .OUT 0 0x0D 0x3F t) =
      true := by decide

/-- Q53 and Q55. -/
theorem test_epRdcnt :
    nextIs (exec (.epRdcnt 2 .OUT .b1) (booted.setEp .OUT 2 ⟨0x1E, 0x0F, some 3, some 2, some 0x300, some 0x340⟩))
      (gives 2) = true ∧
    faultIs (exec (.epRdcnt 2 .OUT .b0) (booted.setEp .OUT 2 ⟨0x0E, 0x03, none, none, none, none⟩)) .cvNovalue =
      true := by decide

/-- Q56, Q57. -/
theorem test_epRdctrl : nextIs (exec (.epRdctrl 3 .OUT) State.reset) (gives 0x00) = true ∧
    nextIs (exec (.epRdctrl 0 .OUT) booted) (gives 0x0D) = true := by decide

/-! ## Global and harness commands -/

/-- G1, G9. -/
theorem test_gRd : nextIs (exec (.gRd 0) booted) (gives 0x07) = true ∧
    nextIs (exec (.gRd 5) { booted with setuprec := some (setupWord setupD1) }) (gives 0x0040000001000680) = true := by
  decide

/-- G10. -/
theorem test_ifaClr : nextIs (exec (.ifaClr 0x0E) { booted with intflagsa := 0x9B }) (fun t => t.intflagsa == 0x91) =
    true := by decide

/-- G15, G16: mask bits 7 to 2 are ignored. -/
theorem test_ifbClr :
    nextIs (exec (.ifbClr 0x01) { booted with intflagsb := 0x03 }) (fun t => t.intflagsb == 0x02) = true ∧
    nextIs (exec (.ifbClr 0xFC) { booted with intflagsb := 0x03 }) (fun t => t.intflagsb == 0x03) = true := by decide

/-- G19. -/
theorem test_setAddr : nextIs (exec (.setAddr 127) booted) (fun t => t.addr == 127 && t.gctrl == 0x07) = true := by
  decide

/-- G21, G23. -/
theorem test_attach_detach : nextIs (exec .attach { booted with gctrl := 0x06 }) (fun t => t.gctrl == 0x07) = true ∧
    nextIs (exec .detach booted) (fun t => t.gctrl == 0x06) = true := by decide

/-- G25, G26. -/
theorem test_intEnable : nextIs (exec (.intEnable true false) booted) (fun t => t.gctrl == 0x03) = true ∧
    nextIs (exec (.intEnable false true) booted) (fun t => t.gctrl == 0x05) = true := by decide

/-- The start of G28. -/
def beforeReinit : State :=
  { ((((State.reset.setEp .OUT 0 { bootOut with ctrl := 0x2D, status := 0x13 }).setEp .IN 0
      { bootIn with ctrl := 0x2D, status := 0x06 }).setEp .IN 1 (single 0x02 0x03)).setEp .OUT 2 (pair 0x1E 0x02)) with
    gctrl := 0x07, addr := 5, intflagsa := 0x91, intflagsb := 0x03, ctlstate := 0x0D, nvmcmd := 0x23,
    ram := [(0x0200, 0xAB)] }

/-- G28: the register groups. -/
theorem test_usbReinit_groups : nextIs (exec .usbReinit beforeReinit) (fun t =>
    epIs .OUT 0 bootOut t && epIs .IN 0 bootIn t && epIs .IN 1 EpRegs.off t && epIs .OUT 2 EpRegs.off t) = true := by
  decide

/-- G28: what is cleared and what survives. -/
theorem test_usbReinit_globals : nextIs (exec .usbReinit beforeReinit) (fun t =>
    t.gctrl == 0x07 && t.addr == 0 && t.intflagsa == 0x91 && t.intflagsb == 0x00 && t.ctlstate == 0x00 &&
    t.nvmcmd == 0x23 && t.ramByte 0x0200 == some 0xAB) = true := by decide

/-- G32, G34. -/
theorem test_ramWr : faultIs (exec (.ramWr 0x01 0x003F) booted) .cvOwnership = true ∧
    nextIs (exec (.ramWr 0xFF 0xFFFF) booted) (ramIs 0xFFFF [0xFF]) = true := by decide

/-- G37, G38: ownership is checked before the value. -/
theorem test_ramRd : nextIs (exec (.ramRd 0x0200) { booted with ram := [(0x0200, 0xAB)] }) (gives 0xAB) = true ∧
    faultIs (exec (.ramRd 0x0010) booted) .cvOwnership = true := by decide

/-- Y17. -/
theorem test_nvmcmdWr : nextIs (exec (.nvmcmdWr 0x23) booted) (fun t => t.nvmcmd == 0x23) = true := by decide

/-! ## The bridge -/

/-- BOOTED with the first bytes of the placeholder device descriptor in `PMEM`. -/
def withPmem : State := { booted with pmem := cells 0x1000 [0x12, 0x01, 0x00, 0x02], nvmcmd := 0x23 }

/-- Y3, of four bytes: the mode is restored. -/
theorem test_bridgeCopy : nextIs (exec (.bridgeCopy 4 0x1000) withPmem) (fun t =>
    ramIs 0x0040 [0x12, 0x01, 0x00, 0x02] t && t.nvmcmd == 0x23 && t.hSavedMode == none) = true := by decide

/-- Y12: source and destination overlap. -/
theorem test_bufCopy_overlap :
    nextIs (exec (.bufCopy 6 0x0042) { booted with ram := cells 0x0042 [1, 2, 3, 4, 5, 6] })
      (ramIs 0x0040 [1, 2, 3, 4, 5, 6, 5, 6]) = true := by decide

/-- Y14: ownership is checked before the value. -/
theorem test_bufCopy_ownership : faultIs (exec (.bufCopy 4 0x0010) booted) .cvOwnership = true := by decide

/-! ## Terminal commands and engine events -/

/-- N19. -/
theorem test_ctlIn : nextIs (exec (.ctlIn 64) (engine 0x03 0x03 0x01)) (fun t =>
    epIs .OUT 0 bootOut t && epIs .IN 0 ⟨0x0D, 0x02, some 64, none, some 0x0040, none⟩ t && t.ctlstate == 0x02) =
    true := by decide

/-- N30: the dispatch is checked before the size. -/
theorem test_ctlIn_outside : faultIs (exec (.ctlIn 65) (engine 0x03 0x03 0x00)) .cvDispatch = true := by decide

/-- N22. -/
theorem test_ctlOut : nextIs (exec .ctlOut (engine 0x03 0x03 0x01)) (fun t =>
    epIs .OUT 0 bootOut t && epIs .IN 0 bootIn t && t.ctlstate == 0x03) = true := by decide

/-- N23, N31. -/
theorem test_ctlAck : nextIs (exec .ctlAck (engine 0x03 0x03 0x01)) (fun t =>
      epIs .OUT 0 bootOut t && epIs .IN 0 ⟨0x0D, 0x02, some 0, none, some 0x0040, none⟩ t && t.ctlstate == 0x0D) =
      true ∧
    faultIs (exec .ctlAck (engineIn 0 0x03 0x01)) .cvDoublearm = true := by decide

/-- N32: it cancels first. -/
theorem test_ctlStall : nextIs (exec .ctlStall (engineIn 8 0x03 0x01)) (fun t =>
    epFlags .OUT 0 0x2D 0x02 t && epFlags .IN 0 0x2D 0x03 t && t.ctlstate == 0x00) = true := by decide

/-- The state of W5 with the setup packet of D1 in the OUT buffer. -/
def setupArrived : State := { engine 0x13 0x03 0x00 with ram := cells 0x0000 setupD1 }

/-- N1 of R191, and the context the rest of the dispatch runs in (log entry 9). -/
theorem test_evNewrequest : nextIs (exec .evNewrequest setupArrived) (fun t =>
    t.setuprec == some 0x0040000001000680 && t.ctlstate == 0x01 && t.trace == [.newReq 0x0040000001000680] &&
    t.hRun == .htrn && t.disp == [.call]) = true ∧
    faultIs (exec .evNewrequest (engine 0x03 0x03 0x00)) .cvNovalue = true := by decide

/-- N4, N7. -/
theorem test_evCtloutDone : nextIs (exec .evCtloutDone (engine 0x03 0x03 0x03)) (fun t =>
      epFlags .OUT 0 0x0D 0x02 t && epFlags .IN 0 0x0D 0x02 t && t.ctlstate == 0x0D && t.trace == [.ctlOut 64]) =
      true ∧
    nextIs (exec .evCtloutDone (engineIn 8 0x03 0x02)) (fun t =>
      epFlags .OUT 0 0x0D 0x02 t && epFlags .IN 0 0x0D 0x03 t && t.ctlstate == 0x00) = true := by decide

/-- N12, N17. -/
theorem test_evCtlinDone :
    nextIs (exec (.evCtlinDone false) (engine 0x03 0x03 0x02)) (fun t => t.ctlstate == 0x05) = true ∧
    nextIs (exec (.evCtlinDone true) (engine 0x03 0x03 0x0D)) (fun t => t.ctlstate == 0x0D && t.trace == [.ctlIn true]) =
      true := by decide

/-! ## Bus events -/

/-- H11: an accepted SETUP clears both halts and withdraws the armed IN. -/
theorem test_busSetup_accepted :
    nextIs (exec (.busSetup 0 0 setupD1) ((engineIn 0 0x02 0x00).setEp .OUT 0 { bootOut with ctrl := 0x2D }))
      (fun t => t.out == .response .ack && epIs .OUT 0 ⟨0x0D, 0x13, some 8, none, some 0, none⟩ t &&
        epFlags .IN 0 0x0D 0x03 t && t.intflagsa == 0x00 && t.intflagsb == 0x02 && ramIs 0 setupD1 t) = true := by
  decide

/-- H12: a refused SETUP does not clear the halt. -/
theorem test_busSetup_refused :
    nextIs (exec (.busSetup 0 0 setupD1) (booted.setEp .OUT 0 { bootOut with ctrl := 0x2D, status := 0x03 }))
      (fun t => t.out == .response .nak && epFlags .OUT 0 0x2D 0x03 t && t.intflagsa == 0x08) = true := by decide

/-- J2: served from bank 1, and `BANK` flips back. -/
theorem test_busOut_bank1 :
    nextIs (exec (.busOut 2 0 [0x44, 0x55]) (booted.setEp .OUT 2 { pair 0x1E 0x25 with cnt0 := some 3 }))
      (fun t => t.out == .response .ack && epIs .OUT 2 ⟨0x1E, 0x0F, some 3, some 2, some 0x300, some 0x340⟩ t &&
        t.intflagsb == 0x01 && ramIs 0x0340 [0x44, 0x55] t) = true := by decide

/-- J4: strict alternation. -/
theorem test_busOut_alternates : nextIs (exec (.busOut 2 0 [0x66]) (with2 0x1E 0x01))
    (fun t => t.out == .response .nak && epFlags .OUT 2 0x1E 0x01 t && t.intflagsa == 0x08) = true := by decide

/-- `EP[1][IN]` armed over its eight bytes (L1). -/
def inArmed : State := { with1 0x02 with ram := cells 0x0200 [0xA0, 0xA1, 0xA2, 0xA3, 0xA4, 0xA5, 0xA6, 0xA7] }

/-- L1. -/
theorem test_busIn_acknowledged : nextIs (exec (.busIn 1 true 0) inArmed) (fun t =>
    t.out == .response (.data [0xA0, 0xA1, 0xA2, 0xA3, 0xA4, 0xA5, 0xA6, 0xA7]) && epFlags .IN 1 0x02 0x07 t &&
    t.intflagsb == 0x01) = true := by decide

/-- L2: the handshake is lost. -/
theorem test_busIn_lost : nextIs (exec (.busIn 1 false 0) inArmed) (fun t =>
    t.out == .response (.data [0xA0, 0xA1, 0xA2, 0xA3, 0xA4, 0xA5, 0xA6, 0xA7]) && epFlags .IN 1 0x02 0x02 t &&
    t.intflagsb == 0x00) = true := by decide

/-- M1 to M5. -/
theorem test_bus_conditions : nextIs (exec .busSof booted) (fun t => t.intflagsa == 0x01) = true ∧
    nextIs (exec .busCrcerr booted) (fun t => t.intflagsa == 0x02) = true ∧
    nextIs (exec .busSuspend booted) (fun t => t.intflagsa == 0x20) = true ∧
    nextIs (exec .busResume booted) (fun t => t.intflagsa == 0x40) = true ∧
    nextIs (exec .busReset booted) (fun t => t.intflagsa == 0x80) = true := by decide

/-- R89: the codes of the five responses, as bus events leave them. -/
theorem test_response_codes :
    nextIs (exec .busSof booted) (fun t => t.out.coded == some (0, [])) = true ∧
    nextIs (exec (.busOut 0 0 []) booted) (fun t => t.out.coded == some (1, [])) = true ∧
    nextIs (exec (.busSetup 0 0 setupD1) (engine 0x13 0x03 0x00)) (fun t => t.out.coded == some (2, [])) = true ∧
    nextIs (exec (.busOut 1 0 [1]) (booted.setEp .OUT 1 (single 0x22 0x03))) (fun t => t.out.coded == some (3, [])) =
      true ∧
    nextIs (exec (.busIn 1 true 0) inArmed)
      (fun t => t.out.coded == some (4, [0xA0, 0xA1, 0xA2, 0xA3, 0xA4, 0xA5, 0xA6, 0xA7])) = true := by decide

/-! ## Handlers -/

/-- A handler starts at its first micro-step. -/
theorem test_svc_starts : nextIs (exec .svcBusevent booted) (fun t => t.hRun == .hbus && t.hStep == some 0) = true ∧
    nextIs (exec .svcTrncompl booted) (fun t => t.hRun == .htrn && t.hStep == some 0) = true := by decide

/-- S15: an unserved group stays pending. -/
theorem test_busEvent_group :
    microIs (microStep { booted with hRun := .hbus, hStep := some 1, hFa := some 0x90, intflagsa := 0x90 })
      (fun t => t.intflagsa == 0x80 && t.trace == [.stallSent] && t.hRun == .none) = true := by decide

/-- W7, T3: a stale `DONE0` is discarded with the SETUP. -/
theorem test_transaction_classifies :
    microIs (microStep { engine 0x17 0x03 0x00 with hRun := .htrn, hStep := some 2, hSo := some 0x14 })
      (fun t => t.hOutk == some .newRequest && epFlags .OUT 0 0x0D 0x03 t && t.hStep == some 3) = true := by decide

/-- The dispatch of an injected `EV_NEWREQUEST` over, its context ends, and nothing of the handler runs. -/
theorem test_injected_dispatch_ends :
    microIs (microStep { booted with hRun := .htrn, hStep := some 7 })
      (fun t => t.hRun == .none && t.hStep == none && t.trace == []) = true := by decide

/-- D2: the clamp. -/
theorem test_dispatch_clamps :
    microIs (microStep { booted with
        ctlstate := 0x01, disp := [.call], setuprec := some (setupWord [0x80, 0x06, 0x00, 0x01, 0, 0, 8, 0]),
        env := { Env.empty with descriptors := [((1, 0), .found .PMEM 0x1000 18)] } })
      (fun t => t.disp == [.bridgeCopy 8 0x1000, .ctlIn 8, .n3] &&
        t.trace == [.call (.resolveDescriptor 1 0 (.found .PMEM 0x1000 18))]) = true := by decide

/-! ## Witnesses: the invariant -/

/-- The groups of BOOTED meet the invariant. -/
theorem booted_core : booted.CoreInv := by
  have h0 : State.reset.CoreInv :=
    ⟨by decide, reset_memoryWf, by simp [State.reset], fun d e => by
      have : State.reset.ep d e = EpRegs.off := by cases d <;> simp [State.ep, State.reset]
      rw [this]
      exact off_inv _, by decide, by decide, by decide, rfl⟩
  have ho : EpRegs.Inv State.reset.par bootOut := by
    refine ⟨by decide, by decide, by decide, by decide, fun b => by cases b <;> rfl, fun b n a hn ha => ?_, by decide⟩
    cases b
    · cases hn
      cases ha
      decide
    · cases hn
  have hi : EpRegs.Inv State.reset.par bootIn :=
    ⟨by decide, by decide, by decide, by decide, fun b => by cases b <;> rfl,
      fun b n a hn _ => (by cases b <;> cases hn), by decide⟩
  obtain ⟨h1, h2, h3, h4, -, h6, h7, h8⟩ := setEp_core (setEp_core h0 (d := .OUT) (e := 0) ho) (d := .IN) (e := 0) hi
  exact ⟨h1, h2, h3, fun d e => (by have := h4 d e; cases d <;> exact this), by decide, h6, h7, h8⟩

/-- BOOTED with a bus-event handler about to serve a reset, and the handler's turn. -/
def servingReset : State :=
  { booted with hRun := .hbus, hStep := some 1, hFa := some 0x80, intflagsa := 0x80, turns := [.agent .handler] }

/-- BOOTED with a transaction-complete handler past its reading of EP0 OUT. -/
def classifying : State :=
  { booted with hRun := .htrn, hStep := some 2, hSo := some 0x14, turns := [.agent .handler] }

/-- BOOTED inside an injected dispatch. -/
def dispatching : State :=
  { booted with
    disp := [.call], ctlstate := 0x01, setuprec := some 0x0040000001000680, hRun := .htrn, hStep := some 7,
    turns := [.agent .handler] }

/-- BOOTED with a transaction-complete handler at T5. -/
def atT5 (k : OutKind) : State :=
  { booted with hRun := .htrn, hStep := some 5, hSo := some 0x14, hOutk := some k, hSi := some 0, hInk := some false }

theorem servingReset_inv : servingReset.Inv := by
  obtain ⟨h1, h2, h3, h4, h5, h6, h7, h8⟩ := booted_core
  exact ⟨h1, h2, h3, fun d e => (by have := h4 d e; cases d <;> exact this), h5, h6, h7, h8,
    ⟨1, rfl, by decide, fun _ h => nomatch h⟩, .inl rfl, fun h => absurd h (by decide), fun h => absurd rfl h⟩

theorem classifying_inv : classifying.Inv := by
  obtain ⟨h1, h2, h3, h4, h5, h6, h7, h8⟩ := booted_core
  exact ⟨h1, h2, h3, fun d e => (by have := h4 d e; cases d <;> exact this), h5, h6, h7, h8,
    ⟨2, rfl, by decide, fun _ => ⟨fun _ h => (nomatch h), by decide, by decide, by decide⟩⟩, .inl rfl,
    fun h => absurd h (by decide), fun h => absurd rfl h⟩

theorem dispatching_inv : dispatching.Inv := by
  obtain ⟨h1, h2, h3, h4, h5, h6, h7, h8⟩ := booted_core
  exact ⟨h1, h2, h3, fun d e => (by have := h4 d e; cases d <;> exact this), h5, h6, by decide, h8,
    ⟨7, rfl, by decide, fun h => absurd h (by decide)⟩, .inr (.inl rfl), (fun _ h => nomatch h),
    fun _ => ⟨rfl, .inr rfl⟩⟩

theorem atT5_inv (k : OutKind) : (atT5 k).Inv := by
  obtain ⟨h1, h2, h3, h4, h5, h6, h7, h8⟩ := booted_core
  exact ⟨h1, h2, h3, fun d e => (by have := h4 d e; cases d <;> exact this), h5, h6, h7, h8,
    ⟨5, rfl, by decide, fun _ =>
      ⟨fun _ h => (nomatch h), fun _ h => (nomatch h), fun _ h => (nomatch h), fun _ h => (nomatch h)⟩⟩, .inl rfl,
    (fun h => absurd (show csIdle = csSetup from h) (by decide)), fun h => absurd rfl h⟩

/-- A step of a handler and the first of an injected dispatch. -/
theorem test_witness_StepKeepsInv : servingReset.Inv ∧
    nextIs (step servingReset) (fun t => t.trace == [.pwr 0x80] && t.hStep == some 2) = true ∧ dispatching.Inv ∧
    nextIs (step { dispatching with setuprec := some (setupWord setupD1), env :=
      { Env.empty with descriptors := [((1, 0), .found .PMEM 0x1000 18)] } })
      (fun t => t.hRun == .htrn && t.disp == [.bridgeCopy 18 0x1000, .ctlIn 18, .n3]) = true :=
  ⟨servingReset_inv, by decide, dispatching_inv, by decide⟩

/-- Micro-steps of both handlers; T5 with nothing to dispatch, and with a dispatch that can go on and one that stops. -/
theorem test_witness_HandlersTotal : servingReset.Inv ∧ servingReset.disp = [] ∧
    ¬(servingReset.hRun = .htrn) ∧ classifying.Inv ∧ classifying.disp = [] ∧ classifying.hStep ≠ some 5 ∧
    (atT5 .none).Inv ∧ (atT5 .none).hOutk = some .none ∧ (atT5 .newRequest).Inv ∧ (atT5 .newRequest).disp = [] ∧
    microFault (microStep (atT5 .newRequest)) .cvNovalue = true ∧
    microIs (microStep { atT5 .newRequest with ram := cells 0x0000 setupD1 }) (fun t => t.disp == [.call]) = true :=
  ⟨servingReset_inv, rfl, by decide, classifying_inv, rfl, by decide, atT5_inv _, rfl, atT5_inv _, rfl, by decide,
    by decide⟩

/-! ## Witnesses: encoding and steps -/

theorem test_witness_DecodeEncode : (Instr.busOut 2 0 [0x11, 0x22, 0x33]).wf = true ∧ Instr.attach.wf = true := by
  decide

theorem test_witness_EncodeDecode : decode [0x14, 0, 0, 0, 0, 0, 0, 0, 0xEE] = .ok .attach [0xEE] := by decide

/-- BOOTED with one word on the command port, to be injected. -/
def injected (w : Word) : State := { booted with turns := [.inject], cmd := wordBytes w }

/-- BOOTED with one word on the SIE port, and the host's turn. -/
def sent (w : Word) : State := { booted with turns := [.agent .host], bus := wordBytes w }

/-- The step ends in `CV_RESERVED`, and the word is what is recorded. -/
def reservedWord (s : State) (w : Word) : Bool :=
  faultIs (step s) .cvReserved && (faultRecord s == some (1, some w))

/-- The reserved opcodes at the ends of their ranges. -/
theorem test_witness_ReservedOpcodes :
    (injected 0).turns = [.inject] ∧ (injected 0).cmd = wordBytes 0 ++ [] ∧
    [0x00, 0x0F, 0x18, 0x1F, 0x26, 0x2F, 0x33, 0x7F, 0x88, 0xBF, 0xC5, 0xFF].all
      (fun o : Byte => reservedWord (injected (o ++ 0#56 : BitVec 64)) (o ++ 0#56 : BitVec 64)) = true := by decide

/-- X16, X22, X23: a legal opcode of each format with a bit set that must be zero; on the SIE port such a word, a
reserved opcode, and a command. -/
theorem test_witness_ReservedOpcodes_mustBeZero :
    [0x1400000000000001, 0x8308000000000000, 0xC200000000000001].all
      (fun w : Word => reservedWord (injected w) w) = true ∧
    [0x8308000000000000, 0x8800000000000000, 0x1400000000000000, 0xC000000000000000].all
      (fun w : Word => reservedWord (sent w) w) = true := by decide

/-- No instruction is encoded by the first of these words: the hypothesis of the clause on must-be-zero bits is met, on
both ports. -/
theorem test_witness_ReservedOpcodes_noEncoding : ∀ i : Instr, encodeWord i ≠ 0x1400000000000001 := by
  intro i he
  have h56 := congrArg (·.extractLsb' 56 8) he
  cases i with
  | attach | busSof | busReset | busSuspend | busResume | busCrcerr | svcBusevent | svcTrncompl | evNewrequest
  | evCtloutDone => exact absurd he (by decide)
  | evCtlinDone stale => cases stale <;> exact absurd he (by decide)
  | _ => simp [encodeWord] at h56

/-- A word on the command port and one on the SIE port, in BOOTED, at the turn of an agent. -/
def atTurn (t : Turn) : State :=
  { booted with turns := [t], cmd := encode .detach, bus := encode .busSof }

theorem test_witness_StepRunsDecoded : Instr.detach.wf = true ∧ Instr.busSof.wf = true ∧
    isBusEvent .busSof = true ∧ (atTurn .inject).busy = false ∧
    decode (atTurn .inject).cmd = .ok .detach [] ∧ decode (atTurn .inject).bus = .ok .busSof [] ∧
    nextIs (step (atTurn .inject)) (fun t => t.gctrl == 0x06 && t.cmd == []) = true ∧
    nextIs (step (atTurn (.agent .fg))) (fun t => t.gctrl == 0x06 && t.cmd == []) = true ∧
    nextIs (step (atTurn (.agent .host))) (fun t => t.intflagsa == 0x01 && t.bus == []) = true ∧
    nextIs (step (atTurn (.agent .handler))) (fun t => t.turns == [] && t.tick == 1) = true ∧
    nextIs (step { atTurn (.agent .fg) with hRun := .hbus, hStep := some 0 })
      (fun t => t.gctrl == 0x07 && t.cmd == encode .detach) = true := by decide

/-- Both handlers, with the request line true, and with each of its two halves missing. -/
theorem test_witness_HandlersStart :
    nextIs (step { booted with turns := [.agent .startBus], intflagsa := 0x10 }) (fun t => t.hRun == .hbus) = true ∧
    nextIs (step { booted with turns := [.agent .startTrn], intflagsb := 0x01 }) (fun t => t.hRun == .htrn) = true ∧
    nextIs (step { booted with turns := [.agent .startBus] }) (fun t => t.hRun == .none) = true ∧
    nextIs (step { booted with turns := [.agent .startTrn], intflagsb := 0x01, gctrl := 0x03 })
      (fun t => t.hRun == .none) = true ∧
    nextIs (step { booted with turns := [.agent .startTrn], intflagsb := 0x01, hRun := .hbus, hStep := some 0 })
      (fun t => t.hRun == .hbus) = true := by decide

/-- While an injected dispatch lasts its context is the running one: no handler starts, and FG waits. -/
theorem test_witness_HandlersStart_dispatching : dispatching.hRun ≠ .none ∧ dispatching.busy = true ∧
    nextIs (step { dispatching with turns := [.agent .startBus], intflagsa := 0x10 })
      (fun t => t.hRun == .htrn && t.hStep == some 7 && t.disp == [.call]) = true ∧
    nextIs (step { dispatching with turns := [.agent .fg], cmd := encode .detach })
      (fun t => t.gctrl == 0x07 && t.cmd == encode .detach) = true := by decide

theorem test_witness_ContextFault : isBusEvent .attach = false ∧ servingReset.hRun ≠ .none ∧
    dispatching.hRun ≠ .none ∧
    faultIs (exec .attach servingReset) .cvContext = true ∧
    faultIs (exec (.epInit 15 .OUT 3 0 false) dispatching) .cvContext = true := by decide

/-- BOOTED with four endpoints. -/
def four : State := { booted with par := { Params.default with nEp := 4 } }

theorem test_witness_BadEndpoint : four.busy = false ∧ commandEp (.epRdctrl 4 .IN) = some 4 ∧
    four.par.nEp ≤ (4 : BitVec 4).toNat ∧ faultIs (exec (.epRdctrl 4 .IN) four) .cvBadep = true ∧
    faultIs (exec (.epStall 15 .IN) four) .cvBadep = true := by decide

theorem test_witness_UninitFault : booted.busy = false ∧ needsInit (.epStall 15 .IN) = some (15, .IN) ∧
    (15 : BitVec 4).toNat < booted.par.nEp ∧ (booted.ep .IN 15).type = typeDisabled ∧
    faultIs (exec (.epStall 15 .IN) booted) .cvUninit = true := by decide

/-! ## Witnesses: endpoint commands -/

theorem test_witness_EpInit : booted.busy = false ∧ (15 : BitVec 4).toNat < booted.par.nEp ∧
    faultIs (exec (.epInit 15 .IN 3 3 false) booted) .cvReserved = true ∧
    faultIs (exec (.epInit 15 .IN 1 3 true) booted) .cvReserved = true ∧
    nextIs (exec (.epInit 15 .IN 1 3 false) booted) (epFlags .IN 15 0x0D 0x03) = true ∧
    nextIs (exec (.epInit 15 .IN 0 0 true) booted) (epFlags .IN 15 0x10 0x03) = true := by decide

/-- The hypotheses shared by the commands on an initialised direction. -/
theorem test_witness_endpoint_commands : (with2 0x1E 0x2C).busy = false ∧
    (2 : BitVec 4).toNat < (with2 0x1E 0x2C).par.nEp ∧ ((with2 0x1E 0x2C).ep .OUT 2).type ≠ typeDisabled := by decide

/-- A18 to A27: each check of `EP_ARM` at its boundary, and the arm that passes next to it. -/
theorem test_witness_EpArm : (with1 0x07).busy = false ∧ (1 : BitVec 4).toNat < (with1 0x07).par.nEp ∧
    faultIs (exec (.epArm 1 .OUT .b0 8 0x0200) (with1 0x07)) .cvUninit = true ∧
    faultIs (exec (.epArm 1 .IN .b1 8 0x0200) (with1 0x07)) .cvBadbank = true ∧
    faultIs (exec (.epArm 1 .IN .b0 9 0x0200) (with1 0x07)) .cvSize = true ∧
    faultIs (exec (.epArm 1 .IN .b0 8 0xFFF9) (with1 0x07)) .cvRange = true ∧
    faultIs (exec (.epArm 1 .IN .b0 0 0x10000) (with1 0x07)) .cvRange = true ∧
    faultIs (exec (.epArm 1 .IN .b0 8 0x0200) (with1 0x02)) .cvDoublearm = true ∧
    faultIs (exec (.epArm 1 .IN .b0 1 0x003F) (with1 0x07)) .cvOwnership = true ∧
    nextIs (exec (.epArm 1 .IN .b0 8 0x0040) (with1 0x07)) (epFlags .IN 1 0x02 0x02) = true := by decide

/-- The two sides of the ownership clause of `EP_ARM`. -/
theorem test_witness_EpArm_ownership : hardwareOwns (with1 0x07) 0x003F 1 ∧ ¬hardwareOwns (with1 0x07) 0x0040 8 :=
  ⟨hwOwns_iff_hardwareOwns.1 (by decide), fun h => absurd (hwOwns_iff_hardwareOwns.2 h) (by decide)⟩

/-- Q6, Q7, Q4. -/
theorem test_witness_EpIsdone : faultIs (exec (.epIsdone 2 .OUT .b1 false) (with2 0x0E 0x07)) .cvBadbank = true ∧
    faultIs (exec (.epIsdone 2 .OUT .b1 true) (with2 0x1E 0x0F)) .cvReserved = true ∧
    nextIs (exec (.epIsdone 2 .OUT .b1 false) (with2 0x1E 0x0B)) (gives 1) = true := by decide

/-- Q53 to Q55. -/
theorem test_witness_EpRdcnt : faultIs (exec (.epRdcnt 2 .OUT .b1) (with2 0x0E 0x07)) .cvBadbank = true ∧
    faultIs (exec (.epRdcnt 0 .IN .b0) booted) .cvNovalue = true ∧
    nextIs (exec (.epRdcnt 2 .OUT .b1) (with2 0x1E 0x0F)) (gives 64) = true := by decide

/-! ## Witnesses: global and harness commands -/

/-- G1 to G9, each register number and both sides of the two boundaries. -/
theorem test_witness_GlobalRead : booted.busy = false ∧
    [0, 1, 2, 3, 4, 6].all (fun n => nextIs (exec (.gRd n) booted) fun t => t.out != .none) = true ∧
    faultIs (exec (.gRd 5) booted) .cvNovalue = true ∧
    nextIs (exec (.gRd 5) { booted with setuprec := some 7 }) (gives 7) = true ∧
    faultIs (exec (.gRd 7) booted) .cvReserved = true ∧ faultIs (exec (.gRd 15) booted) .cvReserved = true := by decide

/-- The hypotheses of `FlagClears`, `GlobalWrites`, `UsbReinit`, `CtlInDone` and `CtlTable`. -/
theorem test_witness_UsbReinit : beforeReinit.busy = false ∧ paramsLegal beforeReinit.par := by decide

/-- G35, G31, G33 and G36: the clauses of `RAM_WR` and `RAM_RD`. -/
theorem test_witness_RamAccess : booted.busy = false ∧
    faultIs (exec (.ramWr 0 0x10000) booted) .cvRange = true ∧ faultIs (exec (.ramRd 0x10000) booted) .cvRange = true ∧
    faultIs (exec (.ramRd 0x003F) booted) .cvOwnership = true ∧
    nextIs (exec (.ramWr 0x01 0x0040) booted) (ramIs 0x0040 [0x01]) = true ∧
    faultIs (exec (.ramRd 0x0040) booted) .cvNovalue = true ∧
    nextIs (exec (.ramRd 0x0040) { booted with ram := [(0x0040, 0x01)] }) (gives 1) = true := by decide

theorem test_witness_RamAccess_ownership : hardwareOwns booted 0x003F 1 ∧ ¬hardwareOwns booted 0x0040 1 :=
  ⟨hwOwns_iff_hardwareOwns.1 (by decide), fun h => absurd (hwOwns_iff_hardwareOwns.2 h) (by decide)⟩

/-- BOOTED with `EP[1][IN]` armed through `EP_TAC` without count or reference: it owns nothing (log entry 19). -/
def armedRaw : State := booted.setEp .IN 1 { EpRegs.off with ctrl := 0x02, status := 0x02 }

/-- With such a bank firmware's access, an arm and both copies complete. -/
theorem test_armed_raw_owns_nothing :
    nextIs (exec (.epTac 1 .IN 0x01) (booted.setEp .IN 1 { EpRegs.off with ctrl := 0x02 }))
      (fun t => t.ep .IN 1 == armedRaw.ep .IN 1) = true ∧
    nextIs (exec (.ramWr 0x01 0x0200) armedRaw) (ramIs 0x0200 [0x01]) = true ∧
    nextIs (exec (.epArm 0 .IN .b0 8 0x0200) armedRaw) (epFlags .IN 0 0x0D 0x02) = true ∧
    nextIs (exec (.bufCopy 1 0x0200) { armedRaw with ram := [(0x0200, 0x01)] }) (ramIs 0x0040 [0x01]) = true ∧
    nextIs (exec (.bridgeCopy 1 0x1000)
        { booted.setEp .IN 0 { bootIn with status := 0x02 } with pmem := [(0x1000, 0x12)] }) (ramIs 0x0040 [0x12]) =
      true := by decide

/-! ## Witnesses: the bridge -/

/-- Y5 to Y9. -/
theorem test_witness_BridgeCopy : withPmem.busy = false ∧ paramsLegal withPmem.par ∧ withPmem.hSavedMode = none ∧
    faultIs (exec (.bridgeCopy 65 0x1000) withPmem) .cvOverrun = true ∧
    faultIs (exec (.bridgeCopy 2 0xFFFFFF) withPmem) .cvRange = true ∧
    faultIs (exec (.bridgeCopy 0 0x1000000) withPmem) .cvRange = true ∧
    faultIs (exec (.bridgeCopy 2 0x1000) (engineIn 18 0x02 0x00)) .cvOwnership = true ∧
    nextIs (exec (.bridgeCopy 2 0x1000) { engineIn 0 0x02 0x00 with pmem := cells 0x1000 [0x12, 0x01] })
      (ramIs 0x0040 [0x12, 0x01]) = true := by decide

/-- Both sides of the ownership clause of `BRIDGE_COPY`. -/
theorem test_witness_BridgeCopy_ownership : bankOwns (engineIn 18 0x02 0x00) .IN 0 .b0 0x0041 ∧
    ¬∃ x, (0x0040 ≤ x ∧ x < 0x0042) ∧ bankOwns withPmem .IN 0 .b0 x :=
  ⟨⟨by decide, by decide, 0x0040, 18, by decide, by decide, by decide, by decide⟩,
    fun ⟨_, _, _, hn, _⟩ => absurd hn (by decide)⟩

/-- BOOTED with the string descriptor's first bytes in `RAM`. -/
def withString : State := { booted with ram := cells 0x0100 [0x08, 0x03, 0x41, 0x00] }

/-- Y13 to Y16, Y11. -/
theorem test_witness_BufCopy : withString.busy = false ∧ paramsLegal withString.par ∧
    faultIs (exec (.bufCopy 65 0x0100) withString) .cvOverrun = true ∧
    faultIs (exec (.bufCopy 4 0xFFFE) withString) .cvRange = true ∧
    faultIs (exec (.bufCopy 4 0x003F) withString) .cvOwnership = true ∧
    faultIs (exec (.bufCopy 5 0x0100) withString) .cvNovalue = true ∧
    nextIs (exec (.bufCopy 4 0x0100) withString) (ramIs 0x0040 [0x08, 0x03, 0x41, 0x00]) = true := by decide

theorem test_witness_BufCopy_ownership : hardwareOwns withString 0x003F 4 ∧
    ¬(hardwareOwns withString 0x0100 4 ∨ hardwareOwns withString withString.par.ep0InBuf.toNat 4) :=
  ⟨hwOwns_iff_hardwareOwns.1 (by decide), fun h => h.elim
    (fun h => absurd (hwOwns_iff_hardwareOwns.2 h) (by decide))
    (fun h => absurd (hwOwns_iff_hardwareOwns.2 h) (by decide))⟩

/-! ## Witnesses: terminal commands and events -/

theorem engine_usable (o i c : Byte) : ep0Usable (engine o i c) := by
  intro d
  cases d <;> simp [engine, booted, EpRegs.type, EpRegs.bufsize, bootOut, bootIn, State.reset, State.setEp, State.ep] <;>
    decide

/-- A dispatch with EP0 OUT idle and its buffer free, and with EP0 IN idle or armed. -/
theorem test_witness_terminal_commands : (engine 0x03 0x03 0x01).busy = false ∧
    paramsLegal (engine 0x03 0x03 0x01).par ∧ ep0Usable (engine 0x03 0x03 0x01) ∧ outBufFree (engine 0x03 0x03 0x01) ∧
    ((engine 0x03 0x03 0x01).ep .IN 0).nack .b0 = true ∧ ¬hardwareOwns (engine 0x03 0x03 0x01) 0x0040 64 ∧
    ((engineIn 8 0x03 0x01).ep .IN 0).nack .b0 = false :=
  ⟨by decide, by decide, engine_usable 0x03 0x03 0x01, fun _ h => absurd (hwOwns_iff_hardwareOwns.2 h) (by decide), by decide,
    fun h => absurd (hwOwns_iff_hardwareOwns.2 h) (by decide), by decide⟩

/-- A dispatch in which a bank of another endpoint owns the last byte of the EP0 OUT buffer. -/
def outOwned (c : Byte) : State := (engine 0x03 0x03 c).setEp .IN 1 ⟨0x02, 0x02, some 1, none, some 0x003F, none⟩

/-- `RearmOut` is turned down in each terminal command and in each row of R196, as an inner `EP_ARM` is (R113, R205); and
an `EV_CTLOUT_DONE` in `DataInStage` has cancelled the EP0 IN bank that owned the buffer before it arms. -/
theorem test_witness_rearm_owned : bankOwns (outOwned 0x01) .IN 1 .b0 0x003F ∧
    paramsLegal (outOwned 0x01).par ∧ ((outOwned 0x01).ep .IN 0).nack .b0 = true ∧
    [.ctlIn 0, .ctlOut, .ctlAck, .ctlStall].all
      (fun i => faultIs (exec i (outOwned 0x01)) .cvOwnership) = true ∧
    [0x00, 0x02, 0x03, 0x05].all (fun c => faultIs (exec .evCtloutDone (outOwned c)) .cvOwnership) = true ∧
    nextIs (exec .evCtloutDone ((engine 0x03 0x03 0x02).setEp .IN 0 ⟨0x0D, 0x02, some 1, none, some 0x003F, none⟩))
      (fun t => t.ctlstate == 0x00) = true :=
  ⟨⟨by decide, by decide, 0x003F, 1, by decide, by decide, by decide, by decide⟩, by decide, by decide, by decide,
    by decide, by decide⟩

/-- N25, N21, N31 and N19, and a bank of another direction over the EP0 IN buffer. -/
theorem test_witness_CtlIn : faultIs (exec (.ctlIn 0) (engine 0x03 0x03 0x00)) .cvDispatch = true ∧
    faultIs (exec (.ctlIn 0) (engine 0x03 0x03 0x09)) .cvDispatch = true ∧
    faultIs (exec (.ctlIn 65) (engine 0x03 0x03 0x01)) .cvSize = true ∧
    faultIs (exec (.ctlIn 64) (engineIn 8 0x03 0x01)) .cvDoublearm = true ∧
    faultIs (exec (.ctlIn 64) ((engine 0x03 0x03 0x01).setEp .IN 1 ⟨0x02, 0x02, some 1, none, some 0x007F, none⟩))
      .cvOwnership = true ∧
    nextIs (exec (.ctlIn 63) ((engine 0x03 0x03 0x01).setEp .IN 1 ⟨0x02, 0x02, some 1, none, some 0x007F, none⟩))
      (fun t => t.ctlstate == 0x02) = true := by decide

/-- N26, N27, N31, N22 and N23. -/
theorem test_witness_CtlOutAck : faultIs (exec .ctlOut (engine 0x03 0x03 0x00)) .cvDispatch = true ∧
    faultIs (exec .ctlAck (engine 0x03 0x03 0x0D)) .cvDispatch = true ∧
    faultIs (exec .ctlAck (engineIn 0 0x03 0x01)) .cvDoublearm = true ∧
    nextIs (exec .ctlOut (engine 0x02 0x03 0x01)) (fun t => t.ctlstate == 0x03) = true ∧
    nextIs (exec .ctlAck (engine 0x02 0x03 0x01)) (fun t => t.ctlstate == 0x0D) = true := by decide

/-- In a dispatch only EP0 is armed, so that no other endpoint keeps `CTL_STALL` from arming the OUT buffer; the other
side of the case is in `test_witness_rearm_owned`. -/
theorem test_witness_CtlStall : ∀ d e b x, bankOwns (engine 0x03 0x03 0x01) d e b x → e = 0 := by
  rintro d e b x ⟨-, hn, -⟩
  apply Decidable.byContradiction
  intro he
  have hz : ∀ d' : Dir, ¬(d = d' ∧ e = 0) := fun _ h => he h.2
  have hr : State.reset.ep d e = EpRegs.off := by cases d <;> simp [State.ep, State.reset]
  have : (engine 0x03 0x03 0x01).ep d e = EpRegs.off := by
    have h1 : (engine 0x03 0x03 0x01).ep d e = booted.ep d e := by
      have : (engine 0x03 0x03 0x01).ep d e = ((booted.setEp .OUT 0 { bootOut with status := 0x03 }).setEp .IN 0
          { bootIn with status := 0x03 }).ep d e := by cases d <;> rfl
      rw [this, ep_setEp_other _ _ _ _ _ _ (hz _), ep_setEp_other _ _ _ _ _ _ (hz _)]
    have h2 : booted.ep d e = ((State.reset.setEp .OUT 0 bootOut).setEp .IN 0 bootIn).ep d e := by cases d <;> rfl
    rw [h1, h2, ep_setEp_other _ _ _ _ _ _ (hz _), ep_setEp_other _ _ _ _ _ _ (hz _), hr]
  rw [this] at hn
  simp at hn

/-- N33 with the last byte alone missing, and all eight there. -/
theorem test_witness_NewRequest :
    faultIs (exec .evNewrequest { booted with ram := cells 0x0000 [0x80, 0x06, 0x00, 0x01, 0x00, 0x00, 0x40] })
      .cvNovalue = true ∧
    booted.ramByte (booted.par.ep0OutBuf.toNat + 7) = none ∧ setupArrived.busy = false ∧ paramsLegal setupArrived.par ∧
    (∀ k, k < 8 → setupArrived.ramByte (setupArrived.par.ep0OutBuf.toNat + k) ≠ none) := by decide

/-- N1, N2, N3, N4, N5, N6 and N8: each row of the table of R196, and the two stops. -/
theorem test_witness_CtlOutDone :
    faultIs (exec .evCtloutDone (booted.setEp .OUT 0 bootIn)) .cvNovalue = true ∧
    faultIs (exec .evCtloutDone (engineIn 8 0x03 0x03)) .cvDoublearm = true ∧
    nextIs (exec .evCtloutDone (engine 0x03 0x03 0x03)) (fun t => t.ctlstate == 0x0D) = true ∧
    nextIs (exec .evCtloutDone (engine 0x03 0x03 0x02)) (fun t => t.ctlstate == 0x00) = true ∧
    nextIs (exec .evCtloutDone (engine 0x03 0x03 0x05)) (fun t => t.ctlstate == 0x00) = true ∧
    nextIs (exec .evCtloutDone (engine 0x03 0x03 0x01)) (fun t => t.ctlstate == 0x01) = true := by decide

/-- The table of R208: every event and terminal command completes somewhere. -/
theorem test_witness_CtlTable : nextIs (exec .evNewrequest setupArrived) (fun t => t.ctlstate == 0x01) = true ∧
    nextIs (exec (.ctlIn 0) (engine 0x03 0x03 0x01)) (fun t => t.ctlstate == 0x02) = true ∧
    nextIs (exec .ctlStall (engine 0x03 0x03 0x01)) (fun t => t.ctlstate == 0x00) = true ∧
    nextIs (exec .usbReinit (engine 0x03 0x03 0x05)) (fun t => t.ctlstate == 0x00) = true := by decide

/-! ## Witnesses: bus events -/

/-- H4, H5, H6, J13, L8, M8, and an endpoint number at `N_EP`. -/
theorem test_witness_TokenFilter : ({ booted with gctrl := 0x06 } : State).gctrl.getLsbD 0 = false ∧
    (5 : BitVec 7) ≠ booted.addr ∧ four.par.nEp ≤ (4 : BitVec 4).toNat ∧ (booted.ep .OUT 3).type = typeDisabled ∧
    nextIs (exec (.busSetup 4 0 setupD1) four) (fun t => t.out == .response .none && t.intflagsa == 0) = true ∧
    nextIs (exec (.busSetup 0 5 setupD1) booted) (fun t => t.out == .response .none && t.intflagsa == 0) = true ∧
    nextIs (exec (.busIn 1 true 0) booted) (fun t => t.out == .response .none && t.intflagsa == 0) = true := by decide

/-- M8 and M1 to M5: the unaddressed events detached, and attached. -/
theorem test_witness_TokenFilter_unaddressed : booted.gctrl.getLsbD 0 = true ∧
    [.busSof, .busReset, .busSuspend, .busResume, .busCrcerr].all
      (fun i => nextIs (exec i { booted with gctrl := 0x06 }) (fun t => t.intflagsa == 0) &&
        nextIs (exec i booted) fun t => t.intflagsa != 0) = true := by decide

/-- `BANK` set by `EP_TAS` on a direction with one bank: bank 0 is the one served (R21, R141; log entry 26). -/
theorem test_witness_BusOut_singleBank :
    nextIs (exec (.epTas 1 .OUT 0x20) (booted.setEp .OUT 1 (single 0x02 0x02))) (epFlags .OUT 1 0x02 0x22) = true ∧
    nextIs (exec (.busOut 1 0 setupD1) (booted.setEp .OUT 1 (single 0x02 0x22)))
      (fun t => t.out == .response .ack && epFlags .OUT 1 0x02 0x27 t && ramIs 0x0200 setupD1 t) = true ∧
    nextIs (exec (.busIn 1 true 0) (booted.setEp .IN 1 { single 0x02 0x22 with cnt0 := some 0 }))
      (fun t => t.out == .response (.data []) && epFlags .IN 1 0x02 0x27 t) = true := by decide

/-- H1, H7, H8, H9, H2 and H10: the tests of `BUS_SETUP` in their order. -/
theorem test_witness_BusSetup : booted.gctrl.getLsbD 0 = true ∧ (0 : BitVec 4).toNat < booted.par.nEp ∧
    (booted.ep .OUT 0).type ≠ typeDisabled ∧
    nextIs (exec (.busSetup 2 0 setupD1) (with2 0x0E 0x02)) (fun t => t.out == .response .none && t.intflagsa == 0) =
      true ∧
    nextIs (exec (.busSetup 0 0 (setupD1.take 7)) booted) (fun t => t.out == .response .none && t.intflagsa == 0) =
      true ∧
    nextIs (exec (.busSetup 0 0 (setupD1 ++ [0])) booted) (fun t => t.out == .response .none && t.intflagsa == 0) =
      true ∧
    nextIs (exec (.busSetup 0 0 setupD1) (engine 0x13 0x03 0x00))
      (fun t => t.out == .response .nak && t.intflagsa == 0x08) = true ∧
    nextIs (exec (.busSetup 0 0 setupD1) (booted.setEp .OUT 0 { bootOut with cnt0 := some 7 }))
      (fun t => t.out == .response .none && t.intflagsa == 0x08) = true ∧
    nextIs (exec (.busSetup 0 0 setupD1) (booted.setEp .OUT 0 { bootOut with cnt0 := some 8, ptr0 := some 0xFFF8 }))
      (fun t => t.out == .response .ack && ramIs 0xFFF8 setupD1 t) = true := by decide

/-- The stops of `BUS_SETUP`: a bank armed through `EP_TAC` has no count, or no reference. -/
theorem test_witness_BusSetup_novalue :
    faultIs (exec (.busSetup 0 0 setupD1) (booted.setEp .OUT 0 { bootIn with status := 0x02 })) .cvNovalue = true ∧
    faultIs (exec (.busSetup 0 0 setupD1) (booted.setEp .OUT 0 { bootOut with ptr0 := none })) .cvNovalue = true := by
  decide

/-- J10, J3, J7, J6 and J5: the tests of `BUS_OUT` in their order. -/
theorem test_witness_BusOut : (booted.setEp .OUT 1 (single 0x02 0x02)).gctrl.getLsbD 0 = true ∧
    ((booted.setEp .OUT 1 (single 0x02 0x02)).ep .OUT 1).type ≠ typeDisabled ∧
    nextIs (exec (.busOut 1 0 [1]) (booted.setEp .OUT 1 (single 0x22 0x03)))
      (fun t => t.out == .response .stall && t.intflagsa == 0x10) = true ∧
    nextIs (exec (.busOut 1 0 [1]) (booted.setEp .OUT 1 (single 0x02 0x03)))
      (fun t => t.out == .response .nak && t.intflagsa == 0x08) = true ∧
    nextIs (exec (.busOut 1 0 (setupD1 ++ [9])) (booted.setEp .OUT 1 (single 0x02 0x02)))
      (fun t => t.out == .response .none && t.intflagsa == 0x08) = true ∧
    nextIs (exec (.busOut 1 0 setupD1) (booted.setEp .OUT 1 (single 0x02 0x02)))
      (fun t => t.out == .response .ack && epFlags .OUT 1 0x02 0x07 t && ramIs 0x0200 setupD1 t) = true ∧
    faultIs (exec (.busOut 1 0 []) (booted.setEp .OUT 1 { EpRegs.off with ctrl := 0x02, status := 0x02 })) .cvNovalue =
      true ∧
    faultIs (exec (.busOut 1 0 []) (booted.setEp .OUT 1 { single 0x02 0x02 with ptr0 := none })) .cvNovalue = true := by
  decide

/-- L5, L3, L4 and L6: the tests of `BUS_IN` in their order. -/
theorem test_witness_BusIn : inArmed.gctrl.getLsbD 0 = true ∧ (inArmed.ep .IN 1).type ≠ typeDisabled ∧
    nextIs (exec (.busIn 1 true 0) (booted.setEp .IN 1 (single 0x22 0x02)))
      (fun t => t.out == .response .stall && t.intflagsa == 0x10) = true ∧
    nextIs (exec (.busIn 1 true 0) (with1 0x07)) (fun t => t.out == .response .nak && t.intflagsa == 0x04) = true ∧
    faultIs (exec (.busIn 1 true 0) (with1 0x02)) .cvNovalue = true ∧
    faultIs (exec (.busIn 1 true 0) (booted.setEp .IN 1 { single 0x02 0x02 with cnt0 := none })) .cvNovalue = true ∧
    nextIs (exec (.busIn 1 true 0) (booted.setEp .IN 1 { single 0x02 0x02 with cnt0 := some 0 }))
      (fun t => t.out == .response (.data []) && epFlags .IN 1 0x02 0x07 t) = true := by decide

/-- The hypotheses of `BusConditions`, `HardwareNever` and `OneFlagAnEvent`. -/
theorem test_witness_bus_events : booted.gctrl.getLsbD 0 = true ∧ isBusEvent .busReset = true ∧
    nextIs (exec .busReset booted) (fun t => t.intflagsa == 0x80) = true ∧ isBusEvent (.busOut 0 0 [7]) = true ∧
    nextIs (exec (.busOut 0 0 [7]) booted) (fun t => ramIs 0 [7] t && t.intflagsa == 0x00) = true := by decide

/-! ## Witnesses: handlers -/

theorem test_witness_ServiceStarts : booted.busy = false ∧
    nextIs (exec .svcTrncompl booted) (fun t => t.hRun == .htrn && t.intflagsb == 0x00) = true := by decide

/-- B2 with this reading. -/
def serving (fa : Byte) : State :=
  { booted with hRun := .hbus, hStep := some 1, hFa := some fa, intflagsa := 0xFF, addr := 5 }

/-- S1 to S16: a reading at each end of each group. -/
theorem test_witness_BusEventHandler :
    microIs (microStep { booted with hRun := .hbus, hStep := some 0, intflagsa := 0x91 })
      (fun t => t.hFa == some 0x91 && t.hStep == some 1) = true ∧
    microIs (microStep (serving 0xFF)) (fun t => t.trace == [.sof] && t.intflagsa == 0xFE) = true ∧
    microIs (microStep (serving 0x02)) (fun t => t.trace == [.busErr 0x02] && t.intflagsa == 0xFD) = true ∧
    microIs (microStep (serving 0xFE)) (fun t => t.trace == [.busErr 0x0E] && t.intflagsa == 0xF1) = true ∧
    microIs (microStep (serving 0xF0)) (fun t => t.trace == [.stallSent] && t.intflagsa == 0xEF) = true ∧
    microIs (microStep (serving 0x60)) (fun t => t.trace == [.pwr 0x60] && t.hRun == .none) = true ∧
    microIs (microStep (serving 0x80)) (fun t => t.trace == [.pwr 0x80] && t.hStep == some 2) = true ∧
    microIs (microStep (serving 0x00)) (fun t => t.trace == [] && t.hRun == .none && t.intflagsa == 0xFF) = true := by
  decide

/-- S10: the last micro-step. -/
theorem test_witness_BusResetServed : paramsLegal (serving 0x80).par ∧
    microIs (microStep { serving 0x80 with hStep := some 2 })
      (fun t => t.addr == 0 && t.trace == [.reinit] && t.hRun == .none && epIs .OUT 0 bootOut t) = true := by decide

/-- A transaction-complete handler at a micro-step. -/
def completing (n : Nat) (s : State) : State := { s with hRun := .htrn, hStep := some n }

/-- T1, T2 and T4. -/
theorem test_witness_TransactionReads : 0 < booted.par.nEp ∧
    microIs (microStep (completing 0 { booted with intflagsb := 0x03 }))
      (fun t => t.intflagsb == 0x00 && t.hStep == some 1) = true ∧
    microIs (microStep (completing 1 (engine 0x17 0x03 0x00))) (fun t => t.hSo == some 0x14) = true ∧
    microIs (microStep (completing 3 (engine 0x17 0x07 0x00))) (fun t => t.hSi == some 0x04) = true := by decide

/-- T3 and T4: `SETUP` alone, `DONE0` alone, neither; and both readings of EP0 IN. -/
theorem test_witness_TransactionClassifies :
    microIs (microStep { completing 2 (engine 0x17 0x03 0x00) with hSo := some 0x10 })
      (fun t => t.hOutk == some .newRequest && epFlags .OUT 0 0x0D 0x03 t) = true ∧
    microIs (microStep { completing 2 (engine 0x17 0x03 0x00) with hSo := some 0x04 })
      (fun t => t.hOutk == some .ctlOut && epFlags .OUT 0 0x0D 0x13 t) = true ∧
    microIs (microStep { completing 2 (engine 0x17 0x03 0x00) with hSo := some 0x00 })
      (fun t => t.hOutk == some .none && epFlags .OUT 0 0x0D 0x17 t) = true ∧
    microIs (microStep { completing 4 (engine 0x17 0x07 0x00) with hSi := some 0x04 })
      (fun t => t.hInk == some true && epFlags .IN 0 0x0D 0x03 t) = true ∧
    microIs (microStep { completing 4 (engine 0x17 0x07 0x00) with hSi := some 0x00 })
      (fun t => t.hInk == some false && epFlags .IN 0 0x0D 0x07 t) = true := by decide

/-- T5 for each kind, and T6 with and without the IN completion (W4, W6). -/
theorem test_witness_TransactionDispatches :
    nextIs (exec .evNewrequest setupArrived) (fun t => t.disp == [.call]) = true ∧
    microIs (microStep { completing 5 setupArrived with hOutk := some .newRequest })
      (fun t => t.disp == [.call] && t.hStep == some 6) = true ∧
    nextIs (exec .evCtloutDone (engine 0x03 0x03 0x03)) (fun t => t.ctlstate == 0x0D) = true ∧
    microIs (microStep { completing 5 (engine 0x03 0x03 0x03) with hOutk := some .ctlOut })
      (fun t => t.ctlstate == 0x0D && t.hStep == some 6) = true ∧
    microIs (microStep { completing 5 booted with hOutk := some .none }) (fun t => t.hStep == some 6) = true ∧
    microIs (microStep { completing 6 (engine 0x02 0x03 0x0D) with hOutk := some .newRequest, hInk := some true })
      (fun t => t.ctlstate == 0x0D && t.trace == [.ctlIn true] && t.hRun == .none) = true ∧
    microIs (microStep { completing 6 (engine 0x02 0x03 0x0D) with hOutk := some .none, hInk := some false })
      (fun t => t.trace == [] && t.hRun == .none) = true := by decide

/-! ## Witnesses: the dispatch -/

/-- A dispatch of these setup bytes, with the reference collaborator's tables and one answer of each hook. -/
def calling (setup : List Byte) (a : Bool) (x : SetupOutcome) : State :=
  { booted with
    disp := [.call], ctlstate := 0x01, setuprec := some (setupWord setup)
    env := ⟨[((1, 0), .found .PMEM 0x1000 18), ((3, 1), .found .RAM 0x0100 8), ((2, 0), .found .PMEM 0x1100 0),
             ((0x22, 0), .found .PMEM 0x1200 100), ((3, 5), .notFound)],
            [(4, .found .PMEM 0x1300 40)], [a], [a], [x]⟩ }

/-- The rest of the dispatch is this. -/
def plans (l : List DispStep) (r : Except Fault State) : Bool := microIs r fun t => t.disp == l

/-- D1, D3, D5 to D9 and D13. -/
theorem test_witness_DispatchDescriptor :
    plans [.bridgeCopy 18 0x1000, .ctlIn 18, .n3] (microStep (calling setupD1 true .ack)) = true ∧
    plans [.bufCopy 8 0x0100, .ctlIn 8, .n3] (microStep (calling [0x80, 6, 1, 3, 9, 4, 0xFF, 0] true .ack)) = true ∧
    plans [.ctlAck, .n3] (microStep (calling [0x80, 6, 0, 1, 0, 0, 0, 0] true .ack)) = true ∧
    plans [.ctlStall, .n3] (microStep (calling [0x80, 6, 0, 2, 0, 0, 9, 0] true .ack)) = true ∧
    plans [.ctlStall, .n3] (microStep (calling [0x80, 6, 5, 3, 0, 0, 0xFF, 0] true .ack)) = true ∧
    plans [.bridgeCopy 64 0x1200, .ctlIn 64, .n3] (microStep (calling [0x80, 6, 0, 0x22, 0, 0, 64, 0] true .ack)) =
      true ∧
    plans [.overrun, .n3] (microStep (calling [0x80, 6, 0, 0x22, 0, 0, 65, 0] true .ack)) = true ∧
    plans [.bridgeCopy 40 0x1300, .ctlIn 40, .n3] (microStep (calling [0xC0, 0x20, 0, 0, 4, 0, 40, 0] true .ack)) =
      true := by decide

/-- D10, D12. -/
theorem test_witness_DispatchHook :
    microIs (microStep (calling [0, 9, 1, 0, 0, 0, 0, 0] true .ack)) (fun t => t.disp == [.ctlAck, .n3] &&
      t.trace == [.call (.onSetConfiguration 1 true)] && t.env.cfgAnswers == []) = true ∧
    microIs (microStep (calling [1, 11, 0, 0, 1, 0, 0, 0] false .ack)) (fun t => t.disp == [.ctlStall, .n3] &&
      t.trace == [.call (.onSetInterface 1 0 false)] && t.env.ifAnswers == []) = true := by decide

/-- With no answer queued the hook's is free, and the dispatch goes on whatever it is. -/
theorem test_witness_DispatchHook_free :
    let s := { calling [0, 9, 1, 0, 0, 0, 0, 0] true .ack with env := Env.empty }
    ∃ a, microStep s = .ok ((s.emit (.call (.onSetConfiguration 1 a))).plan (serveHook a)) := ⟨_, rfl⟩

/-- The class request of O1 to O7. -/
def asking (x : SetupOutcome) : State := calling [0x21, 9, 0, 2, 0, 0, 2, 0] true x

/-- O1 to O7. -/
theorem test_witness_DispatchExternal : paramsLegal (asking .ack).par ∧
    microIs (microStep (asking (.dataIn [0xDE, 0xAD]))) (fun t => t.disp == [.ctlIn 2, .n3] &&
      ramIs 0x0040 [0xDE, 0xAD] t) = true ∧
    microIs (microStep (asking (.dataIn [1, 2, 3]))) (fun t => t.disp == [.overrun, .n3] && t.ram == []) = true ∧
    plans [.ctlIn 0, .n3] (microStep (asking (.dataIn []))) = true ∧
    plans [.ctlOut, .n3] (microStep (asking .dataOut)) = true ∧
    plans [.ctlAck, .n3] (microStep (asking .ack)) = true ∧
    plans [.ctlAck, .poll, .detach, .n3] (microStep (asking .ackDetach)) = true ∧
    plans [.ctlStall, .n3] (microStep (asking .stall)) = true ∧ plans [.n3] (microStep (asking .none)) = true := by
  decide

/-- O2, O7, and both sides of the poll. -/
theorem test_witness_DispatchEnds :
    microFault (microStep { booted with disp := [.overrun] }) .cvOverrun = true ∧
    microFault (microStep { booted with disp := [.n3], ctlstate := 0x01 }) .cvDispatch = true ∧
    microFault (microStep { booted with disp := [.n3], ctlstate := 0x09 }) .cvDispatch = true ∧
    plans [] (microStep { booted with disp := [.n3], ctlstate := 0x05 }) = true ∧
    plans [] (microStep { booted with disp := [.n3] }) = true ∧
    plans [.poll, .detach, .n3] (microStep { engine 0x02 0x02 0x0D with disp := [.poll, .detach, .n3] }) = true ∧
    plans [.detach, .n3] (microStep { engine 0x02 0x07 0x0D with disp := [.poll, .detach, .n3] }) = true ∧
    microIs (microStep { booted with disp := [.detach, .n3] }) (fun t => t.gctrl == 0x06 && t.disp == [.n3]) = true := by
  decide

/-- Each step that is a command, next to the command itself. -/
theorem test_witness_DispatchIssuesCommands :
    nextIs (exec (.ctlIn 18) (engine 0x03 0x03 0x01)) (fun t => t.ctlstate == 0x02) = true ∧
    microIs (microStep { engine 0x03 0x03 0x01 with disp := [.ctlIn 18, .n3], hRun := .htrn })
      (fun t => t.ctlstate == 0x02 && t.disp == [.n3] && t.hRun == .htrn) = true ∧
    microIs (microStep { engine 0x03 0x03 0x01 with disp := [.ctlStall, .n3] }) (fun t => t.ctlstate == 0x00) = true ∧
    microIs (microStep { withPmem with disp := [.bridgeCopy 4 0x1000, .ctlIn 4, .n3] })
      (fun t => ramIs 0x0040 [0x12, 0x01, 0x00, 0x02] t && t.disp == [.ctlIn 4, .n3]) = true := by decide

/-! ## Witnesses: rules of the whole machine -/

/-- The machine after reset with nothing placed on its ports: every turn passes, and the run is one the spec admits
(R11, R170). -/
theorem test_reset_run_fair : FairRun fun n => { State.reset with tick := n } := by
  refine ⟨fun n => ?_, fun h n hr _ => ?_, fun n => .inl ⟨n, Nat.le_refl n, rfl⟩⟩
  · have hs : ∀ t, runTurn t { State.reset with tick := n + 1 } = .next { State.reset with tick := n + 1 } := by
      rintro (_ | _ | _ | _ | _ | _)
      all_goals first
        | rfl
        | simp [runTurn, runAgent, State.irqBusev, State.irqTrn, State.reset]
    exact hs _
  · cases h with
    | none => exact (hr n (Nat.le_refl n)).elim
    | hbus => exact absurd (hr n (Nat.le_refl n)) (by simp [requests, State.irqBusev, State.reset])
    | htrn => exact absurd (hr n (Nat.le_refl n)) (by simp [requests, State.irqTrn, State.reset])

/-- The hypotheses of `LaunchFixed`, `TraceGrows` and `SetupRecordWrittenAtN1`: a step that writes the record. -/
theorem test_witness_SetupRecordWrittenAtN1 :
    nextIs (step { setupArrived with turns := [.inject], cmd := encode .evNewrequest })
      (fun t => t.setuprec != setupArrived.setuprec && t.trace == [.newReq 0x0040000001000680]) = true := by decide

/-- Every register has an instruction that changes it. -/
theorem test_witness_GlobalWriters :
    nextIs (exec (.setAddr 5) booted) (fun t => t.addr != booted.addr) = true ∧
    nextIs (exec .detach booted) (fun t => t.gctrl != booted.gctrl) = true ∧
    nextIs (exec .busSof booted) (fun t => t.intflagsa != booted.intflagsa) = true ∧
    nextIs (exec (.busOut 0 0 []) booted) (fun t => t.intflagsb != booted.intflagsb) = true ∧
    nextIs (exec .evNewrequest setupArrived) (fun t => t.ctlstate != 0x00 && t.setuprec != none) = true ∧
    nextIs (exec (.nvmcmdWr 0x23) booted) (fun t => t.nvmcmd != booted.nvmcmd) = true := by decide

/-- The halt condition cleared by a SETUP and set by `EP_STALL`. -/
theorem test_witness_StallIsLevel :
    ((booted.setEp .OUT 0 { bootOut with ctrl := 0x2D }).ep .OUT 0).stall = true ∧
    nextIs (exec (.busSetup 0 0 setupD1) (booted.setEp .OUT 0 { bootOut with ctrl := 0x2D }))
      (fun t => !(t.ep .OUT 0).stall) = true ∧
    (booted.ep .IN 0).stall = false ∧ nextIs (exec (.epStall 0 .IN) booted) (fun t => (t.ep .IN 0).stall) = true := by
  decide

/-- One of the five commands and events that end with EP0 OUT armed. -/
theorem test_witness_OutRearmedAtEveryBranch :
    nextIs (exec .evCtloutDone (engine 0x03 0x03 0x00)) (fun t => !(t.ep .OUT 0).nack .b0) = true := by decide

end Sys2Proof.Tests
end

section
/-! SUPPORT. What instructions and micro-steps leave alone, said once: one inversion lemma each for the instructions,
the steps of a dispatch and the micro-steps of the two handlers. The statements about every step rest on these. -/
namespace Sys2Proof.Machine

/-! ## Relations -/

/-- `H.RUN` and the dispatch stay, the trace grows, the core of the invariant is kept, and `SetupReceived` is not
entered. -/
structure Steady (s t : State) : Prop where
  trace : ∃ l, t.trace = s.trace ++ l
  run : t.hRun = s.hRun
  disp : t.disp = s.disp
  core : s.CoreInv → t.CoreInv
  ctl : t.ctlstate = s.ctlstate ∨ t.ctlstate ≠ csSetup

/-- Steady, with `H.STEP` and the handlers' latches left alone and no global register changed but those listed. -/
structure Calm (l : List Nat) (s t : State) : Prop extends Steady s t where
  step : t.hStep = s.hStep
  so : t.hSo = s.hSo
  si : t.hSi = s.hSi
  outk : t.hOutk = s.hOutk
  ink : t.hInk = s.hInk
  fa : t.hFa = s.hFa
  globals : sameGlobalsBut s t l

theorem Steady.trans {a b c : State} (h : Steady a b) (g : Steady b c) : Steady a c where
  trace := by
    obtain ⟨l, hl⟩ := h.trace
    obtain ⟨m, hm⟩ := g.trace
    exact ⟨l ++ m, by rw [hm, hl, List.append_assoc]⟩
  run := g.run.trans h.run
  disp := g.disp.trans h.disp
  core := fun ha => g.core (h.core ha)
  ctl := by
    rcases g.ctl with hg | hg
    · rw [hg]
      exact h.ctl
    · exact .inr hg

theorem sameGlobalsBut.trans {a b c : State} {l m : List Nat} (h : sameGlobalsBut a b l) (g : sameGlobalsBut b c m) :
    sameGlobalsBut a c (l ++ m) := by
  obtain ⟨h0, h1, h2, h3, h4, h5, h6⟩ := h
  obtain ⟨g0, g1, g2, g3, g4, g5, g6⟩ := g
  simp only [sameGlobalsBut, List.mem_append, not_or]
  exact ⟨fun k => (g0 k.2).trans (h0 k.1), fun k => (g1 k.2).trans (h1 k.1), fun k => (g2 k.2).trans (h2 k.1),
    fun k => (g3 k.2).trans (h3 k.1), fun k => (g4 k.2).trans (h4 k.1), fun k => (g5 k.2).trans (h5 k.1),
    fun k => (g6 k.2).trans (h6 k.1)⟩

theorem Calm.trans {a b c : State} {l m : List Nat} (h : Calm l a b) (g : Calm m b c) : Calm (l ++ m) a c where
  toSteady := h.toSteady.trans g.toSteady
  step := g.step.trans h.step
  so := g.so.trans h.so
  si := g.si.trans h.si
  outk := g.outk.trans h.outk
  ink := g.ink.trans h.ink
  fa := g.fa.trans h.fa
  globals := h.globals.trans g.globals

theorem Calm.mono {s t : State} {l m : List Nat} (h : Calm l s t) (hl : l ⊆ m) : Calm m s t := by
  obtain ⟨g0, g1, g2, g3, g4, g5, g6⟩ := h.globals
  exact { h with
    globals := ⟨fun k => g0 fun n => k (hl n), fun k => g1 fun n => k (hl n), fun k => g2 fun n => k (hl n),
      fun k => g3 fun n => k (hl n), fun k => g4 fun n => k (hl n), fun k => g5 fun n => k (hl n),
      fun k => g6 fun n => k (hl n)⟩ }

/-- What keeps everything but the register file, `RAM` and some global registers is calm. -/
theorem calm_of_sameRest {l : List Nat} {s t : State} (hr : sameRest s t) (hg : sameGlobalsBut s t l)
    (hc : t.ctlstate = s.ctlstate) (core : s.CoreInv → t.CoreInv) : Calm l s t := by
  obtain ⟨-, ⟨run, step, disp, so, si, outk, ink, fa, -⟩, trace, -⟩ := hr
  exact ⟨⟨⟨[], by rw [trace, List.append_nil]⟩, run, disp, core, .inl hc⟩, step, so, si, outk, ink, fa, hg⟩

/-- An operation that keeps every global register but `CTLSTATE`. -/
theorem kept.calm_ctl {s t : State} (h : kept s t) (core : s.CoreInv → t.CoreInv)
    (hc : t.ctlstate = s.ctlstate ∨ t.ctlstate ≠ csSetup) : Calm [4] s t := by
  obtain ⟨-, -, trace, g0, g1, g2, g3, g5, g6, run, step, so, si, outk, ink, fa, disp⟩ := h
  exact ⟨⟨trace, run, disp, core, hc⟩, step, so, si, outk, ink, fa,
    by simp [sameGlobalsBut, g0, g1, g2, g3, g5, g6]⟩

/-- An operation that keeps every global register. -/
theorem kept.calm {s t : State} (h : kept s t) (core : s.CoreInv → t.CoreInv) (hc : t.ctlstate = s.ctlstate) :
    Calm [] s t := by
  have h4 := h.calm_ctl core (.inl hc)
  obtain ⟨g0, g1, g2, g3, -, g5, g6⟩ := h4.globals
  exact { h4 with globals := by simp_all [sameGlobalsBut] }

/-! ## Updates -/

theorem calm_refl (s : State) : Calm [] s s := (kept_refl s).calm id rfl

/-- The register file is the same when its two halves are (R20). -/
theorem sameEps_of_regs {s t : State} (ho : t.outs = s.outs) (hi : t.ins = s.ins) : sameEps s t := by
  intro d e
  cases d <;> simp only [State.ep, ho, hi]

/-- All that the core of the invariant looks at. -/
def State.corePart (s : State) :
    Params × List Host.Cell × Vector EpRegs 16 × Vector EpRegs 16 × Byte × Byte × Byte × Option Byte :=
  (s.par, s.ram, s.outs, s.ins, s.gctrl, s.intflagsb, s.ctlstate, s.hSavedMode)

/-- What the core of the invariant does not look at can be anything. -/
theorem core_of_corePart {s t : State} (h : t.corePart = s.corePart) (hs : s.CoreInv) : t.CoreInv := by
  simp only [State.corePart, Prod.mk.injEq] at h
  obtain ⟨par, ram, outs, ins, gctrl, intflagsb, ctl, saved⟩ := h
  exact core_of_same hs par ram (sameEps_of_regs outs ins) gctrl intflagsb ctl saved

/-- The core of the invariant through a write of the flag registers, whose reserved bits stay 0 (R30, R33). -/
theorem core_of_flags {s t : State} (hs : s.CoreInv) (par : t.par = s.par) (ram : t.ram = s.ram) (ep : sameEps s t)
    (gctrl : t.gctrl.extractLsb' 3 5 = 0#5) (intflagsb : t.intflagsb.extractLsb' 2 6 = 0#6)
    (ctl : t.ctlstate = s.ctlstate) (saved : t.hSavedMode = s.hSavedMode) : t.CoreInv := by
  obtain ⟨h1, h2, h3, h4, -, -, h7, h8⟩ := hs
  refine ⟨by rwa [par], by rwa [ram], by rwa [ram, par], fun d e => ?_, gctrl, intflagsb, by rwa [ctl], by rwa [saved]⟩
  rw [ep d e, par]
  exact h4 d e

/-- Every group of a state meets the invariant of groups. -/
theorem State.CoreInv.ep {s : State} (hs : s.CoreInv) (d : Dir) (e : BitVec 4) : (s.ep d e).Inv s.par := by
  obtain ⟨-, -, -, h, -⟩ := hs
  exact h d e

/-- The reserved bits of the flag registers. -/
theorem State.CoreInv.reserved {s : State} (hs : s.CoreInv) :
    s.gctrl.extractLsb' 3 5 = 0#5 ∧ s.intflagsb.extractLsb' 2 6 = 0#6 := by
  obtain ⟨-, -, -, -, h5, h6, -⟩ := hs
  exact ⟨h5, h6⟩

theorem give_calm (s : State) (o : Output) : Calm [] s (s.give o) :=
  (kept_give s o).calm (core_of_corePart rfl) rfl

theorem emit_calm (s : State) (n : Note) : Calm [] s (s.emit n) :=
  (kept_emit s n).calm (core_of_corePart rfl) rfl

/-- Other bytes on the ports, another turn. -/
theorem withPorts_calm (s : State) (cmd bus : List Byte) : Calm [] s (s.withPorts cmd bus) :=
  kept.calm (by simp [kept, State.withPorts]) (core_of_corePart rfl) rfl

theorem tookTurn_calm (s : State) : Calm [] s s.tookTurn := withPorts_calm s s.cmd s.bus

/-- A collaborator's answer is used up (R206). -/
theorem answered_calm (s : State) (v : Env) : Calm [] s { s with env := v } :=
  kept.calm (by simp [kept]) (core_of_corePart rfl) rfl

theorem ifaClr_calm (m : Byte) (s : State) : Calm [2] s (ifaClr m s) :=
  calm_of_sameRest (sameRest_refl s) (by simp [sameGlobalsBut]) rfl (core_of_corePart rfl)

theorem raiseA_calm (s : State) (m : Byte) : Calm [2] s (s.raiseA m) :=
  calm_of_sameRest (sameRest_refl s) (by simp [sameGlobalsBut]) rfl (core_of_corePart rfl)

theorem ifbClr_calm (m : Byte) (s : State) : Calm [3] s (ifbClr m s) :=
  calm_of_sameRest (sameRest_refl s) (by simp [sameGlobalsBut]) rfl
    fun hs => core_of_flags hs rfl rfl (fun _ _ => rfl) hs.reserved.1 (extract_and_zero _ _ _ _ hs.reserved.2) rfl rfl

/-- Hardware sets `TRNIF` or `SETUPIF` (R33). -/
theorem raiseB_calm (s : State) {m : Byte} (hm : m.extractLsb' 2 6 = 0) : Calm [3] s (s.raiseB m) :=
  calm_of_sameRest (sameRest_refl s) (by simp [sameGlobalsBut]) rfl
    fun hs => core_of_flags hs rfl rfl (fun _ _ => rfl) hs.reserved.1 ((extract_or _ _ _ _ hm).trans hs.reserved.2)
      rfl rfl

theorem setAddr_calm (a : BitVec 7) (s : State) : Calm [1] s { s with addr := a } :=
  calm_of_sameRest (sameRest_refl s) (by simp [sameGlobalsBut]) rfl (core_of_corePart rfl)

theorem nvmcmdWr_calm (v : Byte) (s : State) : Calm [6] s { s with nvmcmd := v } :=
  calm_of_sameRest (sameRest_refl s) (by simp [sameGlobalsBut]) rfl (core_of_corePart rfl)

/-- `GCTRL` is written, its reserved bits 0 as before (R30). -/
theorem gctrl_calm (s : State) (v : Byte) (hv : s.gctrl.extractLsb' 3 5 = 0#5 → v.extractLsb' 3 5 = 0#5) :
    Calm [0] s { s with gctrl := v } :=
  calm_of_sameRest (sameRest_refl s) (by simp [sameGlobalsBut]) rfl
    fun hs => core_of_flags hs rfl rfl (sameEps_of_regs rfl rfl) (hv hs.reserved.1) hs.reserved.2 rfl rfl

theorem detach_calm (s : State) : Calm [0] s (detach s) := gctrl_calm s _ (extract_and_zero _ _ _ _)

theorem attach_calm (s : State) : Calm [0] s { s with gctrl := s.gctrl ||| 0x01 } :=
  gctrl_calm s _ fun h => (extract_or _ _ _ _ (by decide)).trans h

theorem intEnable_calm (b t : Bool) (s : State) : Calm [0] s (intEnable b t s) :=
  gctrl_calm s _ fun h => by
    rw [extract_or _ _ _ _ (by cases t <;> decide), extract_or _ _ _ _ (by cases b <;> decide)]
    exact extract_and_zero _ _ _ _ h

/-! ## Operations -/

section
variable {e : BitVec 4} {d : Dir} {s t : State}

theorem epInit_calm {type bufsize : BitVec 2} {pingpong : Bool} (h : epInit e d type bufsize pingpong s = .ok t) :
    Calm [] s t := by
  obtain ⟨hk, hc⟩ := epInit_kept h
  exact hk.calm (epInit_core · h) hc

theorem epCancel_calm (h : epCancel e d s = .ok t) : Calm [] s t := by
  obtain ⟨hk, -, hc⟩ := epCancel_kept h
  exact hk.calm (epCancel_core · h) hc

theorem epArm_calm {b : Bank} {size : BitVec 16} {buf : Addr} (h : epArm e d b size buf s = .ok t) : Calm [] s t := by
  obtain ⟨hk, -, hc⟩ := epArm_kept h
  exact hk.calm (epArm_core · h) hc

theorem epStall_calm (h : epStall e d s = .ok t) : Calm [] s t := by
  obtain ⟨hk, hc⟩ := epStall_kept h
  exact hk.calm (epStall_core · h) hc

/-- A group is written that meets the invariant if the group there was did. -/
theorem setEp_calm {x : EpRegs} (hx : (s.ep d e).Inv s.par → x.Inv s.par) : Calm [] s (s.setEp d e x) :=
  (kept_setEp s d e x).calm (fun hs => setEp_core hs (hx (hs.ep d e))) (by simp)

theorem epClrdone_calm (h : epClrdone e d s = .ok t) : Calm [] s t := by
  obtain ⟨-, -, h⟩ := onInit_ok.1 h
  cases h
  exact setEp_calm clearStatus_inv

theorem epTac_calm {mask : Byte} {r : State × Byte} (h : epTac e d mask s = .ok r) : Calm [] s r.1 := by
  obtain ⟨-, rfl⟩ := epTac_ok.1 h
  exact setEp_calm clearStatus_inv

theorem epTas_calm {mask : Byte} {r : State × Byte} (h : epTas e d mask s = .ok r) : Calm [] s r.1 := by
  obtain ⟨-, h⟩ := onEp_ok.1 h
  cases h
  refine setEp_calm fun hx => orStatus_inv hx ?_
  rw [BitVec.extractLsb'_and]
  exact BitVec.and_zero

theorem memWrite_calm {a : Nat} {vs : List Byte} (h : memWrite s a vs = .ok t) : Calm [] s t := by
  obtain ⟨hk, -, hc⟩ := memWrite_kept h
  exact hk.calm (memWrite_core · h) hc

theorem ramWr_calm {v : Byte} {a : Addr} (h : ramWr v a s = .ok t) : Calm [] s t := by
  obtain ⟨_, hr, rfl⟩ := map_ok.1 h
  refine memWrite_calm (a := a.toNat) (vs := [v]) (memWrite_ok.2 ⟨.inr ?_, rfl⟩)
  unfold ramAccess at hr
  split at hr
  · cases hr
  · rw [List.length_singleton]
    omega

theorem bridgeCopy_calm {len : BitVec 16} {src : Addr} (h : bridgeCopy len src s = .ok t) : Calm [] s t := by
  obtain ⟨hk, -, hc⟩ := bridgeCopy_kept h
  exact hk.calm (bridgeCopy_core · h) hc

theorem bufCopy_calm {len : BitVec 16} {src : Addr} (h : bufCopy len src s = .ok t) : Calm [] s t := by
  obtain ⟨hk, -, hc⟩ := bufCopy_kept h
  exact hk.calm (bufCopy_core · h) hc

theorem ctlIn_calm {size : BitVec 16} (h : ctlIn size s = .ok t) : Calm [4] s t := by
  obtain ⟨hk, -, hc, -⟩ := ctlIn_kept h
  exact hk.calm_ctl (ctlIn_core · h) (.inr (by rw [hc]; decide))

theorem ctlOut_calm (h : ctlOut s = .ok t) : Calm [4] s t := by
  obtain ⟨hk, -, hc, -⟩ := ctlOut_kept h
  exact hk.calm_ctl (ctlOut_core · h) (.inr (by rw [hc]; decide))

theorem ctlAck_calm (h : ctlAck s = .ok t) : Calm [4] s t := by
  obtain ⟨hk, -, hc, -⟩ := ctlAck_kept h
  exact hk.calm_ctl (ctlAck_core · h) (.inr (by rw [hc]; decide))

theorem ctlStall_calm (h : ctlStall s = .ok t) : Calm [4] s t := by
  obtain ⟨hk, hc, -⟩ := ctlStall_kept h
  exact hk.calm_ctl (ctlStall_core · h) (.inr (by rw [hc]; decide))

theorem evCtloutDone_calm (h : evCtloutDone s = .ok t) : Calm [4] s t := by
  obtain ⟨hk, -, hc, -⟩ := evCtloutDone_kept h
  exact hk.calm_ctl (evCtloutDone_core · h) hc

theorem evCtlinDone_calm (stale : Bool) (s : State) : Calm [4] s (evCtlinDone stale s) := by
  obtain ⟨hk, -, hc⟩ := evCtlinDone_kept stale s
  exact hk.calm_ctl evCtlinDone_core hc

/-- `USB_REINIT` writes the address, the request flags and the engine's state (R132). -/
theorem usbReinit_calm (h : usbReinit s = .ok t) : Calm [1, 3, 4] s t := by
  have hc := (usbReinit_kept h).2
  obtain ⟨-, -, trace, g0, -, g2, -, g5, g6, run, step, so, si, outk, ink, fa, disp⟩ := (usbReinit_kept h).1
  exact ⟨⟨trace, run, disp, (usbReinit_core · h), .inr (by rw [hc]; decide)⟩, step, so, si, outk, ink, fa,
    by simp [sameGlobalsBut, g0, g2, g5, g6]⟩

end

/-! ## Bus events -/

/-- What a bank holds fits the packet size and `RAM` (R24, R25, R63). -/
theorem EpRegs.Inv.fits {p : Params} {x : EpRegs} {b : Bank} {n : BitVec 7} {a : Addr} (hx : x.Inv p)
    (hc : x.cnt b = some n) (ha : x.ptr b = some a) :
    n.toNat ≤ maxPkt x.bufsize ∧ a.toNat + n.toNat ≤ ramSize p := by
  obtain ⟨-, -, -, -, -, fits, -⟩ := hx
  exact fits b n a hc ha

/-- An accepted SETUP (R143) keeps the group: its eight bytes fit where the armed count did. -/
theorem setupAccepted_inv {p : Params} {x : EpRegs} {c : BitVec 7} {buf : Addr} (f : Bool) (hx : x.Inv p)
    (hc : x.cnt .b0 = some c) (h8 : 8 ≤ c.toNat) (hb : x.ptr .b0 = some buf) (hr : buf.toNat + 8 ≤ ramSize p) :
    (x.setupAccepted f).Inv p := by
  have hcnt : (x.setCnt .b0 8).Inv p := setCnt_inv hx hc fun a ha => by
    obtain rfl : a = buf := Option.some.inj (ha.symm.trans hb)
    exact ⟨Nat.le_trans h8 (hx.fits hc hb).1, hr⟩
  have hflags := clrStall_inv (orStatus_inv (orStatus_inv hcnt (m := 0x01) (by decide)) (m := 0x10) (by decide))
  unfold EpRegs.setupAccepted
  cases f
  · exact hflags
  · exact orStatus_inv hflags (by decide)

theorem setupWithdrawn_inv {p : Params} {x : EpRegs} (hx : x.Inv p) : x.setupWithdrawn.Inv p :=
  clrStall_inv (orStatus_inv hx (by decide))

/-- An accepted OUT transaction (R144) keeps the group: the bytes received fit where the armed count did. -/
theorem received_inv {p : Params} {x : EpRegs} {b : Bank} {c : BitVec 7} {n : Nat} (hx : x.Inv p)
    (hc : x.cnt b = some c) (hn : n ≤ c.toNat) : ((x.setCnt b (BitVec.ofNat 7 n)).completed b).Inv p := by
  have hcount : (BitVec.ofNat 7 n).toNat = n := by
    rw [BitVec.toNat_ofNat, Nat.mod_eq_of_lt (Nat.lt_of_le_of_lt hn c.isLt)]
  refine completed_inv b (setCnt_inv hx hc fun a ha => ?_)
  obtain ⟨hsize, hram⟩ := hx.fits hc ha
  rw [hcount]
  omega

theorem setupTaken_calm {s : State} {e : BitVec 4} {c : BitVec 7} {buf : Addr} {p : List Byte} (hl : p.length = 8)
    (hc : (s.ep .OUT e).cnt .b0 = some c) (h8 : 8 ≤ c.toNat) (hb : (s.ep .OUT e).ptr .b0 = some buf)
    (hr : buf.toNat + 8 ≤ ramSize s.par) : Calm [3] s (s.setupTaken e buf p) := by
  have stored : Calm [] s (((s.setRamBytes buf.toNat p).setEp .OUT e
      ((s.ep .OUT e).setupAccepted s.par.setupSetsDone0)).setEp .IN e (s.ep .IN e).setupWithdrawn) := by
    refine (((kept_setRamBytes ..).trans (kept_setEp ..)).trans (kept_setEp ..)).calm (fun hs => ?_) (by simp)
    refine setEp_core (setEp_core (setRamBytes_core hs (.inr (by omega))) ?_) ?_
    · simpa using setupAccepted_inv _ (hs.ep .OUT e) hc h8 hb hr
    · simpa using setupWithdrawn_inv (hs.ep .IN e)
  exact (stored.trans (raiseB_calm _ (by decide))).trans (give_calm _ _)

theorem outTaken_calm {s : State} {e : BitVec 4} {b : Bank} {c : BitVec 7} {buf : Addr} {p : List Byte}
    (hc : (s.ep .OUT e).cnt b = some c) (hl : p.length ≤ c.toNat)
    (hr : p = [] ∨ buf.toNat + p.length ≤ ramSize s.par) : Calm [3] s (s.outTaken e b buf p) := by
  have stored : Calm [] s ((s.setRamBytes buf.toNat p).setEp .OUT e
      (((s.ep .OUT e).setCnt b (BitVec.ofNat 7 p.length)).completed b)) := by
    refine ((kept_setRamBytes ..).trans (kept_setEp ..)).calm (fun hs => ?_) (by simp)
    refine setEp_core (setRamBytes_core hs hr) ?_
    simpa using received_inv (hs.ep .OUT e) hc hl
  exact (stored.trans (raiseB_calm _ (by decide))).trans (give_calm _ _)

theorem complete_calm (s : State) (d : Dir) (e : BitVec 4) (b : Bank) : Calm [3] s (s.complete d e b) :=
  (setEp_calm (completed_inv b)).trans (raiseB_calm _ (by decide))

/-- A bus event changes no hidden state, and of the global registers only the two of flags (R153, R267). -/
theorem busEvent_calm {i : Instr} {s t : State} (hi : isBusEvent i = true) (h : exec i s = .next t) :
    Calm [2, 3] s t := by
  rcases busEvent_cases hi h with ⟨r, rfl⟩ | ⟨m, r, -, -, rfl⟩ |
    ⟨e, a, p, c, buf, -, -, -, hl, -, hc, h8, hb, hr, rfl⟩ | ⟨e, a, p, b, c, buf, -, -, -, -, hc, hl, -, hr, rfl⟩ |
    ⟨e, a, b, bytes, -, -, -, -, rfl⟩
  · exact (give_calm s _).mono (by simp)
  · exact ((raiseA_calm s m).trans (give_calm _ _)).mono (by simp)
  · exact (setupTaken_calm hl hc h8 hb hr).mono (by simp)
  · exact (outTaken_calm hc hl hr).mono (by simp)
  · exact ((complete_calm s .IN e b).trans (give_calm _ _)).mono (by simp)

end Sys2Proof.Machine
end

section
/-! SUPPORT. Everything an instruction can do to hidden state and global registers. -/
namespace Sys2Proof.Machine

/-- The numbers of the global registers an instruction can change (R30 to R37, R234). -/
def mayWrite : Instr → List Nat
  | .attach | .detach | .intEnable _ _ => [0]
  | .setAddr _ => [1]
  | .ifaClr _ => [2]
  | .ifbClr _ => [3]
  | .busSetup _ _ _ | .busOut _ _ _ | .busIn _ _ _ | .busSof | .busReset | .busSuspend | .busResume
  | .busCrcerr => [2, 3]
  | .usbReinit => [1, 3, 4]
  | .ctlIn _ | .ctlOut | .ctlAck | .ctlStall | .evCtloutDone | .evCtlinDone _ => [4]
  | .evNewrequest => [4, 5]
  | .nvmcmdWr _ => [6]
  | .epInit _ _ _ _ _ | .epCancel _ _ | .epArm _ _ _ _ _ | .epIsdone _ _ _ _ | .epClrdone _ _ | .epIsready _ _
  | .epIsempty _ _ | .epNextbank _ _ | .epStall _ _ | .epRdstatus _ _ _ | .epTac _ _ _ | .epTas _ _ _
  | .epRdcnt _ _ _ | .epRdctrl _ _ | .gRd _ | .bridgeCopy _ _ | .bufCopy _ _ | .ramWr _ _ | .ramRd _
  | .svcBusevent | .svcTrncompl => []

theorem command_calm {l : List Nat} {s t : State} {r : Except Fault State} (h : command s r = .next t)
    (hr : ∀ {u}, r = .ok u → Calm l s u) : Calm l s t := by
  obtain ⟨-, u, hu, rfl⟩ := command_next.1 h
  simpa using (hr hu).trans (give_calm u .none)

/-- A command that cannot be turned down. -/
theorem command_calm_ok {l : List Nat} {s t u : State} (h : command s (.ok u) = .next t) (hu : Calm l s u) :
    Calm l s t := command_calm h fun e => Except.ok.inj e ▸ hu

theorem query_calm {s t : State} {r : Except Fault Word} (h : query s r = .next t) : Calm [] s t := by
  obtain ⟨-, v, -, rfl⟩ := query_next.1 h
  exact give_calm s _

/-- A command that answers a byte beside the state. -/
theorem returning_calm {s t : State} {r : Except Fault (State × Byte)}
    (h : returning s (r.map fun v => (v.1, v.2.setWidth 64)) = .next t) (hr : ∀ {v}, r = .ok v → Calm [] s v.1) :
    Calm [] s t := by
  obtain ⟨-, u, hu, rfl⟩ := returning_next.1 h
  obtain ⟨v, hv, rfl⟩ := map_ok.1 hu
  exact (hr hv).trans (give_calm _ _)

/-- Everything an instruction can do to hidden state: leave it alone, start a handler, or begin a dispatch (R110,
R170, R191). -/
theorem exec_cases {i : Instr} {s t : State} (h : exec i s = .next t) :
    Calm (mayWrite i) s t ∨
    (s.hRun = .none ∧ ∃ r, r ≠ .none ∧ t = (s.startHandler r).give .none) ∨
    (s.hRun = .none ∧ i = .evNewrequest ∧
      ∃ u, newRequest s = .ok u ∧ t = ((u.follow [.call]).dispatchContext).give .none) := by
  have start : ∀ {r}, r ≠ .none → command s (.ok (s.startHandler r)) = .next t →
      s.hRun = .none ∧ ∃ r, r ≠ .none ∧ t = (s.startHandler r).give .none := by
    intro r hr h
    obtain ⟨hb, u, hu, rfl⟩ := command_next.1 h
    cases hu
    exact ⟨busy_eq_false.1 hb, r, hr, rfl⟩
  cases i with
  | epInit => exact .inl (command_calm h epInit_calm)
  | epCancel => exact .inl (command_calm h epCancel_calm)
  | epArm => exact .inl (command_calm h epArm_calm)
  | epClrdone => exact .inl (command_calm h epClrdone_calm)
  | epStall => exact .inl (command_calm h epStall_calm)
  | epTac => exact .inl (returning_calm h epTac_calm)
  | epTas => exact .inl (returning_calm h epTas_calm)
  | ifaClr m => exact .inl (command_calm_ok h (ifaClr_calm m s))
  | ifbClr m => exact .inl (command_calm_ok h (ifbClr_calm m s))
  | setAddr a => exact .inl (command_calm_ok h (setAddr_calm a s))
  | attach => exact .inl (command_calm_ok h (attach_calm s))
  | detach => exact .inl (command_calm_ok h (detach_calm s))
  | intEnable b r => exact .inl (command_calm_ok h (intEnable_calm b r s))
  | nvmcmdWr v => exact .inl (command_calm_ok h (nvmcmdWr_calm v s))
  | usbReinit => exact .inl (command_calm h usbReinit_calm)
  | ctlIn => exact .inl (command_calm h ctlIn_calm)
  | ctlOut => exact .inl (command_calm h ctlOut_calm)
  | ctlAck => exact .inl (command_calm h ctlAck_calm)
  | ctlStall => exact .inl (command_calm h ctlStall_calm)
  | evCtloutDone => exact .inl (command_calm h evCtloutDone_calm)
  | evCtlinDone f => exact .inl (command_calm_ok h (evCtlinDone_calm f s))
  | bridgeCopy => exact .inl (command_calm h bridgeCopy_calm)
  | bufCopy => exact .inl (command_calm h bufCopy_calm)
  | ramWr => exact .inl (command_calm h ramWr_calm)
  | epIsdone | epIsready | epIsempty | epNextbank | epRdstatus | epRdcnt | epRdctrl | gRd | ramRd =>
    exact .inl (query_calm h)
  | busSetup | busOut | busIn | busSof | busReset | busSuspend | busResume | busCrcerr =>
    exact .inl (busEvent_calm rfl h)
  | svcBusevent => exact .inr (.inl (start (by decide) h))
  | svcTrncompl => exact .inr (.inl (start (by decide) h))
  | evNewrequest =>
    obtain ⟨hb, u, hu, rfl⟩ := command_next.1 h
    obtain ⟨v, hv, rfl⟩ := map_ok.1 hu
    obtain ⟨w, hw, rfl⟩ := map_ok.1 hv
    exact .inr (.inr ⟨busy_eq_false.1 hb, rfl, w, hw, rfl⟩)

/-- An instruction changes no global register but those it may write (R30 to R37, R234). -/
theorem exec_globals {i : Instr} {s t : State} (h : exec i s = .next t) : sameGlobalsBut s t (mayWrite i) := by
  rcases exec_cases h with hc | ⟨-, r, -, rfl⟩ | ⟨-, rfl, u, hu, rfl⟩
  · exact hc.globals
  · simp [sameGlobalsBut]
  · obtain ⟨bytes, -, -, rfl⟩ := newRequest_ok.1 hu
    simp [sameGlobalsBut, mayWrite]

/-- `mayWrite`, read the other way: the instructions that may write each register. -/
theorem mayWrite_writers (i : Instr) :
    (0 ∈ mayWrite i → i = .attach ∨ i = .detach ∨ ∃ b c, i = .intEnable b c) ∧
    (1 ∈ mayWrite i → i = .usbReinit ∨ ∃ a, i = .setAddr a) ∧
    (2 ∈ mayWrite i → isBusEvent i = true ∨ ∃ m, i = .ifaClr m) ∧
    (3 ∈ mayWrite i → isBusEvent i = true ∨ i = .usbReinit ∨ ∃ m, i = .ifbClr m) ∧
    (4 ∈ mayWrite i → i = .usbReinit ∨ (∃ n, i = .ctlIn n) ∨ i = .ctlOut ∨ i = .ctlAck ∨ i = .ctlStall ∨
      i = .evNewrequest ∨ i = .evCtloutDone ∨ ∃ f, i = .evCtlinDone f) ∧
    (5 ∈ mayWrite i → i = .evNewrequest) ∧
    (6 ∈ mayWrite i → ∃ v, i = .nvmcmdWr v) := by
  cases i <;> simp [mayWrite, isBusEvent]

/-- Settles O58: `exec_globals` frames each instruction by the registers it may write. -/
theorem globalWriters : Obligations.GlobalWriters := by
  intro i s t h
  obtain ⟨h0, h1, h2, h3, h4, h5, h6⟩ := exec_globals h
  obtain ⟨w0, w1, w2, w3, w4, w5, w6⟩ := mayWrite_writers i
  have listed : ∀ {k : Nat} {p : Prop}, (k ∉ mayWrite i → p) → ¬p → k ∈ mayWrite i := Decidable.not_imp_symm
  exact ⟨fun hn => w0 (listed h0 hn), fun hn => w1 (listed h1 hn), fun hn => w2 (listed h2 hn),
    fun hn => w3 (listed h3 hn), fun hn => w4 (listed h4 hn), fun hn => w5 (listed h5 hn),
    fun hn => w6 (listed h6 hn)⟩

end Sys2Proof.Machine
end

section
/-! SUPPORT. Everything a micro-step can do to hidden state: one inversion lemma for the steps of a dispatch, one for
each handler. -/
namespace Sys2Proof.Machine

/-! ## The dispatch -/

/-- The call of N2 asks, notes and stores, and lays out the rest of the dispatch (R192 to R195, R198, R199). -/
theorem callCollaborator_cases {s t : State} (h : callCollaborator s = .ok t) :
    ∃ l u plan, Calm l s u ∧ t = u.plan plan := by
  obtain ⟨r, -, h⟩ := bind_ok.1 h
  split at h
  · cases h
    exact ⟨_, _, _, emit_calm s _, rfl⟩
  · cases h
    exact ⟨_, _, _, (answered_calm s _).trans (emit_calm _ _), rfl⟩
  · cases h
    exact ⟨_, _, _, (answered_calm s _).trans (emit_calm _ _), rfl⟩
  · cases h
    exact ⟨_, _, _, emit_calm s _, rfl⟩
  · simp only at h
    split at h
    · cases h
      exact ⟨_, _, _, (answered_calm s _).trans (emit_calm _ _), rfl⟩
    · obtain ⟨u, hu, h⟩ := bind_ok.1 h
      cases h
      exact ⟨_, _, _, ((answered_calm s _).trans (emit_calm _ _)).trans (memWrite_calm hu), rfl⟩

/-- N3 passes only outside `SetupReceived` (R191). -/
theorem checkDispatched_ok {s t : State} (h : checkDispatched s = .ok t) : t = s ∧ s.ctlstate ≠ csSetup := by
  unfold checkDispatched at h
  split at h
  · cases h
  · rename_i hc
    cases h
    exact ⟨rfl, fun he => hc (by rw [he]; decide)⟩

/-- Everything a step of a dispatch can do (R191 to R199, R103): the call lays out the rest, a turn of the wait stays
where it was, and every other step is a command's operation or the check N3. -/
theorem runDispStep_cases {whole s t : State} {x : DispStep} (h : runDispStep whole s x = .ok t) :
    (x = .call ∧ ∃ l u plan, Calm l s u ∧ t = u.plan plan) ∨ (x = .poll ∧ t = whole) ∨
    (x ≠ .call ∧ (∃ l, Calm l s t) ∧ (x = .n3 → t.ctlstate ≠ csSetup)) := by
  cases x with
  | call => exact .inl ⟨rfl, callCollaborator_cases h⟩
  | overrun => cases h
  | bridgeCopy => exact .inr (.inr ⟨by simp, ⟨_, bridgeCopy_calm h⟩, by simp⟩)
  | bufCopy => exact .inr (.inr ⟨by simp, ⟨_, bufCopy_calm h⟩, by simp⟩)
  | ctlIn => exact .inr (.inr ⟨by simp, ⟨_, ctlIn_calm h⟩, by simp⟩)
  | ctlOut => exact .inr (.inr ⟨by simp, ⟨_, ctlOut_calm h⟩, by simp⟩)
  | ctlAck => exact .inr (.inr ⟨by simp, ⟨_, ctlAck_calm h⟩, by simp⟩)
  | ctlStall => exact .inr (.inr ⟨by simp, ⟨_, ctlStall_calm h⟩, by simp⟩)
  | poll =>
    obtain ⟨r, -, rfl⟩ := map_ok.1 h
    split
    · exact .inr (.inr ⟨by simp, ⟨_, calm_refl s⟩, by simp⟩)
    · exact .inr (.inl ⟨rfl, rfl⟩)
  | detach =>
    cases h
    exact .inr (.inr ⟨by simp, ⟨_, detach_calm s⟩, by simp⟩)
  | n3 =>
    obtain ⟨rfl, hc⟩ := checkDispatched_ok h
    exact .inr (.inr ⟨by simp, ⟨_, calm_refl t⟩, fun _ => hc⟩)

/-! ## The handlers -/

/-- `H.STEP` and the latches written. -/
def State.withLatches (s : State) (step : Option Nat) (so si : Option Byte) (outk : Option OutKind) (ink : Option Bool)
    (fa : Option Byte) : State :=
  { s with hStep := step, hSo := so, hSi := si, hOutk := outk, hInk := ink, hFa := fa }

/-- Writing `H.STEP` and the latches is steady (R40, R41, R43). -/
theorem withLatches_steady (s : State) (step : Option Nat) (so si : Option Byte) (outk : Option OutKind)
    (ink : Option Bool) (fa : Option Byte) : Steady s (s.withLatches step so si outk ink fa) :=
  ⟨⟨[], (List.append_nil _).symm⟩, rfl, rfl, core_of_corePart rfl, .inl rfl⟩

/-- Everything a micro-step of the bus-event handler can do (R171 to R175): end the handler, or go on with the reading
in its latch. -/
theorem busEventStep_cases {n : Nat} {s t : State} (h : busEventStep n s = .ok t) :
    (∃ l u, Calm l s u ∧ t = u.endHandler) ∨
    (Steady s t ∧ t.hFa ≠ none ∧ ∃ m, t.hStep = some m ∧ m ≤ 2) := by
  unfold busEventStep at h
  split at h
  · cases h
    exact .inr ⟨withLatches_steady s (some 1) s.hSo s.hSi s.hOutk s.hInk (some s.intflagsa), by simp [readFlags],
      1, rfl, by decide⟩
  · obtain ⟨fa, hf, rfl⟩ := map_ok.1 h
    have hf := valueOf_ok.1 hf
    unfold serveGroup
    split
    · exact .inl ⟨_, _, (ifaClr_calm _ s).trans (emit_calm _ _), rfl⟩
    · exact .inl ⟨_, _, (ifaClr_calm _ s).trans (emit_calm _ _), rfl⟩
    · exact .inl ⟨_, _, (ifaClr_calm _ s).trans (emit_calm _ _), rfl⟩
    · have hc := (ifaClr_calm (fa &&& 0xE0) s).trans (emit_calm _ (.pwr (fa &&& 0xE0)))
      simp only
      split
      · exact .inr ⟨hc.toSteady.trans (withLatches_steady _ (some 2) s.hSo s.hSi s.hOutk s.hInk s.hFa),
          by simp [hf], 2, rfl, by decide⟩
      · exact .inl ⟨_, _, hc, rfl⟩
    · exact .inl ⟨_, _, calm_refl s, rfl⟩
  · obtain ⟨u, hu, rfl⟩ := map_ok.1 h
    exact .inl ⟨_, _, (usbReinit_calm hu).trans (emit_calm _ _), rfl⟩

/-- The latch that micro-step `n` of the transaction-complete handler writes is live after it, and those that were live
still are (R40, R176). -/
def latched (n : Nat) (s t : State) : Prop :=
  (n = 1 ∨ s.hSo ≠ none → t.hSo ≠ none) ∧ (n = 2 ∨ s.hOutk ≠ none → t.hOutk ≠ none) ∧
  (n = 3 ∨ s.hSi ≠ none → t.hSi ≠ none) ∧ (n = 4 ∨ s.hInk ≠ none → t.hInk ≠ none)

/-- Everything a micro-step of the transaction-complete handler can do (R176 to R178): end the handler, begin a
dispatch, or go on with one more latch live. -/
theorem trncomplStep_cases {n : Nat} {s t : State} (h : trncomplStep n s = .ok t) :
    (∃ l u, Calm l s u ∧ t = u.endHandler) ∨
    (n = 5 ∧ ∃ u, newRequest s = .ok u ∧ t = (u.follow [.call]).atStep 6) ∨
    (n ≤ 5 ∧ Steady s t ∧ t.hStep = some (n + 1) ∧ latched n s t) := by
  have goesOn : ∀ {l : List Nat} {u : State} {so si outk ink}, n ≤ 5 → Calm l s u →
      t = u.withLatches (some (n + 1)) so si outk ink u.hFa → latched n s t →
      n ≤ 5 ∧ Steady s t ∧ t.hStep = some (n + 1) ∧ latched n s t := by
    rintro l u so si outk ink hn hc rfl hl
    exact ⟨hn, hc.toSteady.trans (withLatches_steady ..), rfl, hl⟩
  unfold trncomplStep at h
  split at h
  · cases h
    exact .inr (.inr (goesOn (by decide) (ifbClr_calm 0x03 s) rfl (by simp [latched, t1])))
  · obtain ⟨v, -, rfl⟩ := map_ok.1 h
    exact .inr (.inr (goesOn (by decide) (calm_refl s) rfl (by simp [latched])))
  · obtain ⟨so, hso, h⟩ := bind_ok.1 h
    split at h
    · obtain ⟨r, hr, rfl⟩ := map_ok.1 h
      have hc := epTac_calm hr
      exact .inr (.inr (goesOn (by decide) hc rfl (by simp [latched, hc.so, hc.si, hc.ink])))
    split at h
    · obtain ⟨r, hr, rfl⟩ := map_ok.1 h
      have hc := epTac_calm hr
      exact .inr (.inr (goesOn (by decide) hc rfl (by simp [latched, hc.so, hc.si, hc.ink])))
    · cases h
      exact .inr (.inr (goesOn (by decide) (calm_refl s) rfl (by simp [latched])))
  · obtain ⟨v, -, rfl⟩ := map_ok.1 h
    exact .inr (.inr (goesOn (by decide) (calm_refl s) rfl (by simp [latched])))
  · obtain ⟨si, hsi, h⟩ := bind_ok.1 h
    split at h
    · obtain ⟨r, hr, rfl⟩ := map_ok.1 h
      have hc := epTac_calm hr
      exact .inr (.inr (goesOn (by decide) hc rfl (by simp [latched, hc.so, hc.si, hc.outk])))
    · cases h
      exact .inr (.inr (goesOn (by decide) (calm_refl s) rfl (by simp [latched])))
  · obtain ⟨k, -, h⟩ := bind_ok.1 h
    split at h
    · obtain ⟨v, hv, rfl⟩ := map_ok.1 h
      obtain ⟨u, hu, rfl⟩ := map_ok.1 hv
      exact .inr (.inl ⟨rfl, u, hu, rfl⟩)
    · obtain ⟨u, hu, rfl⟩ := map_ok.1 h
      have hc := evCtloutDone_calm hu
      exact .inr (.inr (goesOn (by decide) hc rfl (by simp [latched, hc.so, hc.si, hc.outk, hc.ink])))
    · cases h
      exact .inr (.inr (goesOn (by decide) (calm_refl s) rfl (by simp [latched])))
  · obtain ⟨outk, -, h⟩ := bind_ok.1 h
    obtain ⟨ink, -, h⟩ := bind_ok.1 h
    cases h
    split
    · exact .inl ⟨_, _, evCtlinDone_calm _ s, rfl⟩
    · exact .inl ⟨_, _, calm_refl s, rfl⟩
  · cases h
    exact .inl ⟨_, _, calm_refl s, rfl⟩

/-- Which micro-step is taken: of the dispatch before the handler it runs in (R191, R176), and none with nothing in
progress. -/
theorem microStep_cases {s t : State} (h : microStep s = .ok t) :
    (∃ x rest, s.disp = x :: rest ∧ runDispStep s (s.follow rest) x = .ok t) ∨
    (s.disp = [] ∧ (t = s ∨ ∃ n, s.hStep = some n ∧
      ((s.hRun = .hbus ∧ busEventStep n s = .ok t) ∨ (s.hRun = .htrn ∧ trncomplStep n s = .ok t)))) := by
  unfold microStep at h
  split at h
  · rename_i x rest hd
    exact .inl ⟨x, rest, hd, h⟩
  · rename_i hd
    refine .inr ⟨hd, ?_⟩
    split at h
    · cases h
      exact .inl rfl
    · rename_i hr
      obtain ⟨n, hn, h⟩ := bind_ok.1 h
      exact .inr ⟨n, valueOf_ok.1 hn, .inl ⟨hr, h⟩⟩
    · rename_i hr
      obtain ⟨n, hn, h⟩ := bind_ok.1 h
      exact .inr ⟨n, valueOf_ok.1 hn, .inr ⟨hr, h⟩⟩

/-! ## The trace -/

/-- N1 notes the new request, and nothing else (R191). -/
theorem newRequest_trace {s u : State} (h : newRequest s = .ok u) : ∃ l, u.trace = s.trace ++ l := by
  obtain ⟨bytes, -, -, rfl⟩ := newRequest_ok.1 h
  exact ⟨_, rfl⟩

theorem exec_trace {i : Instr} {s t : State} (h : exec i s = .next t) : ∃ l, t.trace = s.trace ++ l := by
  rcases exec_cases h with hc | ⟨-, r, -, rfl⟩ | ⟨-, -, u, hu, rfl⟩
  · exact hc.trace
  · exact ⟨[], by simp⟩
  · simpa using newRequest_trace hu

theorem microStep_trace {s t : State} (h : microStep s = .ok t) : ∃ l, t.trace = s.trace ++ l := by
  rcases microStep_cases h with ⟨x, rest, -, h⟩ | ⟨-, rfl | ⟨n, -, ⟨-, h⟩ | ⟨-, h⟩⟩⟩
  · rcases runDispStep_cases h with ⟨-, l, u, plan, hc, rfl⟩ | ⟨-, rfl⟩ | ⟨-, ⟨l, hc⟩, -⟩
    · exact hc.trace
    · exact ⟨[], by simp⟩
    · exact hc.trace
  · exact ⟨[], by simp⟩
  · rcases busEventStep_cases h with ⟨l, u, hc, rfl⟩ | ⟨hc, -⟩
    · exact hc.trace
    · exact hc.trace
  · rcases trncomplStep_cases h with ⟨l, u, hc, rfl⟩ | ⟨-, u, hu, rfl⟩ | ⟨-, hc, -⟩
    · exact hc.trace
    · simpa using newRequest_trace hu
    · exact hc.trace

/-- Settles O56: of the four things a step can do, two leave the trace alone, and `exec` and the micro-steps only
append. -/
theorem traceGrows : Obligations.TraceGrows := by
  intro s t h
  rcases step_cases h with rfl | ⟨i, cmd, bus, h⟩ | h | ⟨r, -, -, rfl⟩
  · exact ⟨[], by simp⟩
  · simpa [State.withPorts] using exec_trace h
  · simpa using microStep_trace h
  · exact ⟨[], by simp⟩

end Sys2Proof.Machine
end

section
/-! SUPPORT. Every step keeps the invariant: the core is kept by what is steady, and the clauses on hidden state follow
from what the inversion lemmas say of `H.RUN`, `H.STEP`, the latches and the dispatch. -/
namespace Sys2Proof.Machine

/-! ## The clauses on hidden state -/

/-- The invariant is its core and the two clauses on hidden state. -/
theorem inv_iff {s : State} : s.Inv ↔ s.CoreInv ∧ handlerInv s ∧ dispatchInv s := by
  simp only [State.Inv, State.CoreInv, and_assoc]

/-- With no dispatch in progress the engine is outside `SetupReceived` (R190). -/
theorem dispatchInv_of_nil {s : State} (hd : s.disp = []) : dispatchInv s ↔ s.ctlstate ≠ csSetup := by
  simp [dispatchInv, hd]

/-- With no handler running no dispatch is in progress (R190, R191). -/
theorem disp_of_idle {s : State} (h : dispatchInv s) (hr : s.hRun = .none) : s.disp = [] := by
  obtain ⟨-, -, hc⟩ := h
  refine Decidable.byContradiction fun hd => ?_
  have htrn := (hc hd).1
  rw [hr] at htrn
  cases htrn

/-- The latches of the transaction-complete handler that are live at micro-step `n` (R40). -/
def trnLive (n : Nat) (s : State) : Prop :=
  n ≤ 6 → (2 ≤ n → s.hSo ≠ none) ∧ (3 ≤ n → s.hOutk ≠ none) ∧ (4 ≤ n → s.hSi ≠ none) ∧ (5 ≤ n → s.hInk ≠ none)

theorem handlerInv_hbus {s : State} (hr : s.hRun = .hbus) :
    handlerInv s ↔ ∃ n, s.hStep = some n ∧ n ≤ 2 ∧ (1 ≤ n → s.hFa ≠ none) := by
  simp only [handlerInv, hr]

theorem handlerInv_htrn {s : State} (hr : s.hRun = .htrn) :
    handlerInv s ↔ ∃ n, s.hStep = some n ∧ n ≤ 7 ∧ trnLive n s := by
  simp only [handlerInv, hr, trnLive]

/-- A micro-step that makes the next latch live keeps the live ones. -/
theorem trnLive_succ {n : Nat} {s t : State} (hn : n ≤ 5) (h : trnLive n s) (hl : latched n s t) :
    trnLive (n + 1) t := by
  obtain ⟨so, outk, si, ink⟩ := h (by omega)
  obtain ⟨lso, loutk, lsi, link⟩ := hl
  have later : ∀ {k : Nat} {p : Prop}, (k + 1 ≤ n → p) → k + 1 ≤ n + 1 → n = k ∨ p := fun hp hk =>
    (Nat.eq_or_lt_of_le (Nat.le_of_succ_le_succ hk)).imp Eq.symm hp
  exact fun _ => ⟨fun h => lso (later so h), fun h => loutk (later outk h), fun h => lsi (later si h),
    fun h => link (later ink h)⟩

theorem Calm.handlerInv {l : List Nat} {s t : State} (h : Calm l s t) (hs : handlerInv s) : handlerInv t := by
  unfold Sys2Proof.Machine.handlerInv at *
  simp only [h.run, h.step, h.so, h.si, h.outk, h.ink, h.fa]
  exact hs

/-! ## Progress -/

/-- What leaves hidden state alone keeps the invariant. -/
theorem Calm.inv {l : List Nat} {s t : State} (h : Calm l s t) (hs : s.Inv) : t.Inv := by
  obtain ⟨core, hh, hf, hc, hx⟩ := inv_iff.1 hs
  refine inv_iff.2 ⟨h.core core, h.handlerInv hh, ?_⟩
  unfold dispatchInv
  rw [h.disp, h.run, h.step]
  refine ⟨hf, fun ht => hc ?_, hx⟩
  rcases h.ctl with he | hn
  · exact he ▸ ht
  · exact absurd ht hn

/-- With no dispatch in progress, what is steady keeps the invariant if it keeps the handlers' clause. -/
theorem Steady.inv {s t : State} (h : Steady s t) (hs : s.Inv) (hd : s.disp = []) (hh : Machine.handlerInv t) :
    t.Inv := by
  obtain ⟨core, -, hx⟩ := inv_iff.1 hs
  have hc := (dispatchInv_of_nil hd).1 hx
  refine inv_iff.2 ⟨h.core core, hh, (dispatchInv_of_nil (h.disp.trans hd)).2 ?_⟩
  rcases h.ctl with he | hn
  · rwa [he]
  · exact hn

/-- The end of a handler (R260) with no dispatch in progress. -/
theorem endHandler_inv {s : State} (hs : s.Inv) (hd : s.disp = []) : s.endHandler.Inv := by
  obtain ⟨core, -, hx⟩ := inv_iff.1 hs
  exact inv_iff.2 ⟨core_of_corePart rfl core, by simp [handlerInv],
    (dispatchInv_of_nil (s := s.endHandler) hd).2 ((dispatchInv_of_nil hd).1 hx)⟩

/-- The start of a handler while none runs (R170, R259). -/
theorem startHandler_inv {s : State} {r : HRun} (hs : s.Inv) (hr : s.hRun = .none) (hn : r ≠ .none) :
    (s.startHandler r).Inv := by
  obtain ⟨core, -, hx⟩ := inv_iff.1 hs
  have hd := disp_of_idle hx hr
  refine inv_iff.2 ⟨core_of_corePart rfl core, ?_,
    (dispatchInv_of_nil (s := s.startHandler r) hd).2 ((dispatchInv_of_nil hd).1 hx)⟩
  cases r with
  | none => exact absurd rfl hn
  | hbus => exact ⟨0, rfl, by decide, fun h => absurd h (by decide)⟩
  | htrn => exact ⟨0, rfl, by decide, by simp⟩

/-- In the context of the transaction-complete handler, past its captures, a dispatch that ends with N3 or is about to
make its call keeps its clause whatever the engine's state (R190, R191). -/
theorem dispatching_inv {s : State} {n : Nat} (core : s.CoreInv) (hr : s.hRun = .htrn) (hn : s.hStep = some n)
    (h67 : n = 6 ∨ n = 7) (hl : trnLive n s) (hd : s.disp = [.call] ∨ s.disp.getLast? = some .n3) : s.Inv := by
  refine inv_iff.2 ⟨core, (handlerInv_htrn hr).2 ⟨n, hn, by omega, hl⟩, .inr hd, fun _ he => ?_, fun _ => ⟨hr, ?_⟩⟩
  · simp [he] at hd
  · rcases h67 with rfl | rfl
    · exact .inl hn
    · exact .inr hn

/-- N1 (R191) changes nothing hidden. -/
theorem newRequest_hidden {s u : State} (h : newRequest s = .ok u) :
    u.hRun = s.hRun ∧ u.hSo = s.hSo ∧ u.hOutk = s.hOutk ∧ u.hSi = s.hSi ∧ u.hInk = s.hInk := by
  obtain ⟨bytes, -, -, rfl⟩ := newRequest_ok.1 h
  exact ⟨rfl, rfl, rfl, rfl, rfl⟩

theorem exec_inv {i : Instr} {s t : State} (hs : s.Inv) (h : exec i s = .next t) : t.Inv := by
  rcases exec_cases h with hc | ⟨hr, r, hn, rfl⟩ | ⟨-, -, u, hu, rfl⟩
  · exact hc.inv hs
  · exact (give_calm _ _).inv (startHandler_inv hs hr hn)
  · have core : (u.follow [.call]).dispatchContext.CoreInv :=
      core_of_corePart (s := u) rfl (newRequest_core (inv_iff.1 hs).1 hu)
    exact (give_calm _ _).inv
      (dispatching_inv core rfl rfl (.inr rfl) (fun h => absurd h (by decide)) (.inl rfl))

/-- The core of the invariant does not look at the rest of a dispatch. -/
theorem follow_core {s : State} (p : List DispStep) (hs : s.CoreInv) : (s.follow p).CoreInv :=
  core_of_corePart rfl hs

/-- A dispatch in progress goes on, after an operation that leaves hidden state alone, with steps that end in N3. -/
theorem goesOn_inv {s u : State} {l : List Nat} {rest p : List DispStep} (hs : s.Inv) (hd : s.disp ≠ [])
    (hc : Calm l (s.follow rest) u) (hp : p.getLast? = some .n3) : (u.follow p).Inv := by
  obtain ⟨core, hh, -, -, hx⟩ := inv_iff.1 hs
  obtain ⟨hr, h67⟩ := hx hd
  obtain ⟨n, hn, -, hl⟩ := (handlerInv_htrn hr).1 hh
  refine dispatching_inv (n := n) (follow_core p (hc.core (follow_core rest core))) (hc.run.trans hr)
    (hc.step.trans hn) (by simpa [hn] using h67) ?_ (.inr hp)
  simpa [trnLive, hc.so, hc.outk, hc.si, hc.ink] using hl

/-- A step of a dispatch: one that is not the call was not the last, but for N3, which passes only outside
`SetupReceived`. -/
theorem dispStep_inv {s t : State} {x : DispStep} {rest : List DispStep} (hs : s.Inv) (hd : s.disp = x :: rest)
    (h : runDispStep s (s.follow rest) x = .ok t) : t.Inv := by
  have hne : s.disp ≠ [] := by simp [hd]
  obtain ⟨core, hh, hf, -⟩ := inv_iff.1 hs
  rcases runDispStep_cases h with ⟨-, l, u, plan, hc, rfl⟩ | ⟨-, rfl⟩ | ⟨hx, ⟨l, hc⟩, hn3⟩
  · exact goesOn_inv hs hne hc (by simp)
  · exact hs
  · have ht : t.disp = rest := hc.disp
    cases rest with
    | nil =>
      have hx3 : x = .n3 := by simpa [hd, hx] using hf
      exact inv_iff.2 ⟨hc.core (follow_core [] core), hc.handlerInv hh, (dispatchInv_of_nil ht).2 (hn3 hx3)⟩
    | cons y rest =>
      have hlast : (y :: rest).getLast? = some .n3 := by simpa [hd] using hf
      have hself : t = t.follow (y :: rest) := by
        rw [← ht]
        rfl
      exact hself ▸ goesOn_inv hs hne hc hlast

theorem busEventStep_inv {n : Nat} {s t : State} (hs : s.Inv) (hd : s.disp = []) (hr : s.hRun = .hbus)
    (h : busEventStep n s = .ok t) : t.Inv := by
  rcases busEventStep_cases h with ⟨l, u, hc, rfl⟩ | ⟨hc, hfa, m, hm, hm2⟩
  · exact endHandler_inv (hc.inv hs) (hc.disp.trans hd)
  · exact hc.inv hs hd ((handlerInv_hbus (hc.run.trans hr)).2 ⟨m, hm, hm2, fun _ => hfa⟩)

theorem trncomplStep_inv {n : Nat} {s t : State} (hs : s.Inv) (hd : s.disp = []) (hr : s.hRun = .htrn)
    (hn : s.hStep = some n) (h : trncomplStep n s = .ok t) : t.Inv := by
  obtain ⟨core, hh, -⟩ := inv_iff.1 hs
  obtain ⟨n', hn', -, hl⟩ := (handlerInv_htrn hr).1 hh
  obtain rfl : n = n' := Option.some.inj (hn.symm.trans hn')
  rcases trncomplStep_cases h with ⟨l, u, hc, rfl⟩ | ⟨rfl, u, hu, rfl⟩ | ⟨h5, hc, hstep, hlatched⟩
  · exact endHandler_inv (hc.inv hs) (hc.disp.trans hd)
  · obtain ⟨run, so, outk, si, ink⟩ := newRequest_hidden hu
    have core' : ((u.follow [.call]).atStep 6).CoreInv :=
      core_of_corePart (s := u) rfl (newRequest_core core hu)
    refine dispatching_inv core' (run.trans hr) rfl (.inl rfl) ?_ (.inl rfl)
    exact trnLive_succ (by decide) hl (by simp [latched, so, outk, si, ink])
  · refine hc.inv hs hd ((handlerInv_htrn (hc.run.trans hr)).2 ⟨n + 1, hstep, by omega, ?_⟩)
    exact trnLive_succ h5 hl hlatched

theorem microStep_inv {s t : State} (hs : s.Inv) (h : microStep s = .ok t) : t.Inv := by
  rcases microStep_cases h with ⟨x, rest, hd, h⟩ | ⟨hd, rfl | ⟨n, hn, ⟨hr, h⟩ | ⟨hr, h⟩⟩⟩
  · exact dispStep_inv hs hd h
  · exact hs
  · exact busEventStep_inv hs hd hr h
  · exact trncomplStep_inv hs hd hr hn h

/-- Settles O3, by cases on what a step can do: a turn passes, a word is executed, a micro-step is taken, or a handler
starts. -/
theorem stepKeepsInv : Obligations.StepKeepsInv := by
  intro s t hs h
  rcases step_cases h with rfl | ⟨i, cmd, bus, h⟩ | h | ⟨r, hr, hb, rfl⟩
  · exact (tookTurn_calm s).inv hs
  · exact exec_inv ((withPorts_calm s cmd bus).inv hs) h
  · exact microStep_inv ((tookTurn_calm s).inv hs) h
  · exact startHandler_inv ((tookTurn_calm s).inv hs) (busy_eq_false.1 hb) hr

end Sys2Proof.Machine
end

section
/-! SUPPORT. A step runs what its port holds: whose turn it is, and what the ports' words are, one equation each. -/
namespace Sys2Proof.Machine

/-- The turn at the head of the schedule is the one taken (R72; log entry 2). -/
theorem step_of_turns {s : State} {u : Turn} {ts : List Turn} (h : s.turns = u :: ts) :
    step s = runTurn u { s with turns := ts, tick := s.tick + 1 } := by
  simp [step, State.nextTurn, State.tookTurn, h]

theorem runCommandWord_of_decode {s : State} {i : Instr} {rest : List Byte} (h : decode s.cmd = .ok i rest) :
    runCommandWord s = exec i { s with cmd := rest } := by
  simp [runCommandWord, h]

theorem runBusWord_of_decode {s : State} {i : Instr} {rest : List Byte} (h : decode s.bus = .ok i rest)
    (hi : isBusEvent i = true) : runBusWord s = exec i { s with bus := rest } := by
  simp [runBusWord, h, hi]

/-- FG waits while a handler runs (R170). -/
theorem runAgent_fg_busy {s : State} (h : s.busy = true) : runAgent .fg s = .next s := by
  simp [runAgent, h]

/-- FG runs the next word of the command port while none does (R170). -/
theorem runAgent_fg_idle {s : State} (h : s.busy = false) : runAgent .fg s = runCommandWord s := by
  simp [runAgent, h]

/-- Settles O8: the head of the schedule says whose turn it is, and what that agent's turn runs is the word its port
decodes to. -/
theorem stepRunsDecoded : Obligations.StepRunsDecoded := by
  intro s i rest ts _
  refine ⟨fun ht hd => ?inject, fun ht hb hd => ?fgIdle, fun ht hb => ?fgBusy, fun ht hd hi => ?host,
    fun ht => step_of_turns ht⟩
  case inject => exact (step_of_turns ht).trans (runCommandWord_of_decode hd)
  case fgIdle => exact ((step_of_turns ht).trans (runAgent_fg_idle hb)).trans (runCommandWord_of_decode hd)
  case fgBusy => exact (step_of_turns ht).trans (runAgent_fg_busy hb)
  case host => exact (step_of_turns ht).trans (runBusWord_of_decode hd hi)

end Sys2Proof.Machine
end

section
/-! SUPPORT. No step changes the launch parameters or `PMEM`: no operation writes them, so neither does an instruction,
a step of a dispatch or a micro-step of a handler. -/
namespace Sys2Proof.Machine

/-- What is fixed at launch: the parameters and the listed bytes of `PMEM` (R6, R62). -/
def State.launch (s : State) : Params × List Host.Cell := (s.par, s.pmem)

theorem launch_eq_iff {s t : State} : t.launch = s.launch ↔ t.par = s.par ∧ t.pmem = s.pmem := by
  simp only [State.launch, Prod.mk.injEq]

theorem pmemByte_of_launch {s t : State} (h : t.launch = s.launch) (a : Nat) : t.pmemByte a = s.pmemByte a := by
  simp only [State.pmemByte, (launch_eq_iff.1 h).2]

/-! ## Operations -/

theorem kept.launch {s t : State} (h : kept s t) : t.launch = s.launch := by
  obtain ⟨par, pmem, -⟩ := h
  exact launch_eq_iff.2 ⟨par, pmem⟩

theorem setEp_launch (s : State) (d : Dir) (e : BitVec 4) (x : EpRegs) : (s.setEp d e x).launch = s.launch :=
  (kept_setEp s d e x).launch

section
variable {e : BitVec 4} {d : Dir} {s t : State}

theorem epClrdone_launch (h : epClrdone e d s = .ok t) : t.launch = s.launch := by
  obtain ⟨-, -, h⟩ := onInit_ok.1 h
  cases h
  exact setEp_launch ..

theorem epTac_launch {mask : Byte} {r : State × Byte} (h : epTac e d mask s = .ok r) : r.1.launch = s.launch := by
  obtain ⟨-, rfl⟩ := epTac_ok.1 h
  exact setEp_launch ..

theorem epTas_launch {mask : Byte} {r : State × Byte} (h : epTas e d mask s = .ok r) : r.1.launch = s.launch := by
  obtain ⟨-, h⟩ := onEp_ok.1 h
  cases h
  exact setEp_launch ..

theorem ramWr_launch {v : Byte} {a : Addr} (h : ramWr v a s = .ok t) : t.launch = s.launch := by
  obtain ⟨_, -, rfl⟩ := map_ok.1 h
  rfl

theorem usbReinit_launch (h : usbReinit s = .ok t) : t.launch = s.launch := (usbReinit_kept h).1.launch

theorem newRequest_launch (h : newRequest s = .ok t) : t.launch = s.launch := by
  obtain ⟨bytes, -, -, rfl⟩ := newRequest_ok.1 h
  rfl

theorem evNewrequest_launch (h : evNewrequest s = .ok t) : t.launch = s.launch := by
  obtain ⟨u, hu, rfl⟩ := map_ok.1 h
  exact (newRequest_launch hu :)

end

/-! ## Instructions -/

theorem command_launch {s t : State} {r : Except Fault State} (h : command s r = .next t)
    (hr : ∀ {u}, r = .ok u → u.launch = s.launch) : t.launch = s.launch := by
  obtain ⟨-, u, hu, rfl⟩ := command_next.1 h
  exact (hr hu :)

/-- A command that cannot be turned down. -/
theorem command_launch_ok {s t u : State} (h : command s (.ok u) = .next t) (hu : u.launch = s.launch) :
    t.launch = s.launch := command_launch h fun e => Except.ok.inj e ▸ hu

theorem query_launch {s t : State} {r : Except Fault Word} (h : query s r = .next t) : t.launch = s.launch := by
  obtain ⟨-, v, -, rfl⟩ := query_next.1 h
  rfl

/-- A command that answers a byte beside the state. -/
theorem returning_launch {s t : State} {r : Except Fault (State × Byte)}
    (h : returning s (r.map fun v => (v.1, v.2.setWidth 64)) = .next t)
    (hr : ∀ {v}, r = .ok v → v.1.launch = s.launch) : t.launch = s.launch := by
  obtain ⟨-, u, hu, rfl⟩ := returning_next.1 h
  obtain ⟨v, hv, rfl⟩ := map_ok.1 hu
  exact hr hv

/-- All a bus event can do is answer, raise a flag, store a packet and complete a bank (R153). -/
theorem busEvent_launch {i : Instr} {s t : State} (hi : isBusEvent i = true) (h : exec i s = .next t) :
    t.launch = s.launch := by
  rcases busEvent_cases hi h with ⟨r, rfl⟩ | ⟨m, r, -, -, rfl⟩ | ⟨e, a, p, c, buf, -, -, -, -, -, -, -, -, -, rfl⟩ |
    ⟨e, a, p, b, c, buf, -, -, -, -, -, -, -, -, rfl⟩ | ⟨e, a, b, bytes, -, -, -, -, rfl⟩
  · rfl
  · rfl
  · exact (((kept_setRamBytes ..).trans (kept_setEp ..)).trans (kept_setEp ..)).launch
  · exact ((kept_setRamBytes ..).trans (kept_setEp ..)).launch
  · exact setEp_launch ..

theorem exec_launch {i : Instr} {s t : State} (h : exec i s = .next t) : t.launch = s.launch := by
  cases i with
  | epInit => exact command_launch h fun hu => (epInit_kept hu).1.launch
  | epCancel => exact command_launch h fun hu => (epCancel_kept hu).1.launch
  | epArm => exact command_launch h fun hu => (epArm_kept hu).1.launch
  | epStall => exact command_launch h fun hu => (epStall_kept hu).1.launch
  | bridgeCopy => exact command_launch h fun hu => (bridgeCopy_kept hu).1.launch
  | bufCopy => exact command_launch h fun hu => (bufCopy_kept hu).1.launch
  | ctlIn => exact command_launch h fun hu => (ctlIn_kept hu).1.launch
  | ctlOut => exact command_launch h fun hu => (ctlOut_kept hu).1.launch
  | ctlAck => exact command_launch h fun hu => (ctlAck_kept hu).1.launch
  | ctlStall => exact command_launch h fun hu => (ctlStall_kept hu).1.launch
  | evCtloutDone => exact command_launch h fun hu => (evCtloutDone_kept hu).1.launch
  | evCtlinDone f => exact command_launch_ok h (evCtlinDone_kept f s).1.launch
  | epClrdone => exact command_launch h epClrdone_launch
  | usbReinit => exact command_launch h usbReinit_launch
  | ramWr => exact command_launch h ramWr_launch
  | epTac => exact returning_launch h epTac_launch
  | epTas => exact returning_launch h epTas_launch
  | evNewrequest =>
    refine command_launch h fun hu => ?_
    obtain ⟨v, hv, rfl⟩ := map_ok.1 hu
    exact (evNewrequest_launch hv :)
  | ifaClr | ifbClr | setAddr | attach | detach | intEnable | nvmcmdWr | svcBusevent | svcTrncompl =>
    exact command_launch_ok h rfl
  | epIsdone | epIsready | epIsempty | epNextbank | epRdstatus | epRdcnt | epRdctrl | gRd | ramRd =>
    exact query_launch h
  | busSetup | busOut | busIn | busSof | busReset | busSuspend | busResume | busCrcerr =>
    exact busEvent_launch rfl h

/-! ## Micro-steps -/

/-- The call of N2 takes an answer off its queue, notes it and stores a reply (R192 to R195, R198, R199). -/
theorem callCollaborator_launch {s t : State} (h : callCollaborator s = .ok t) : t.launch = s.launch := by
  obtain ⟨r, -, h⟩ := bind_ok.1 h
  split at h
  case h_5 =>
    simp only at h
    split at h
    · cases h
      rfl
    · obtain ⟨u, hu, h⟩ := bind_ok.1 h
      cases h
      exact (memWrite_kept hu).1.launch
  all_goals
    cases h
    rfl

theorem dispStep_launch {whole s t : State} {x : DispStep} (h : runDispStep whole s x = .ok t)
    (hw : whole.launch = s.launch) : t.launch = s.launch := by
  cases x with
  | call => exact callCollaborator_launch h
  | overrun => cases h
  | bridgeCopy => exact (bridgeCopy_kept h).1.launch
  | bufCopy => exact (bufCopy_kept h).1.launch
  | ctlIn => exact (ctlIn_kept h).1.launch
  | ctlOut => exact (ctlOut_kept h).1.launch
  | ctlAck => exact (ctlAck_kept h).1.launch
  | ctlStall => exact (ctlStall_kept h).1.launch
  | poll =>
    obtain ⟨r, -, rfl⟩ := map_ok.1 h
    split
    · rfl
    · exact hw
  | detach =>
    cases h
    rfl
  | n3 => exact congrArg State.launch (checkDispatched_ok h).1

theorem serveGroup_launch (fa : Byte) (s : State) : (serveGroup fa s).launch = s.launch := by
  unfold serveGroup
  split
  case h_4 =>
    dsimp only
    split <;> rfl
  all_goals rfl

theorem busEventStep_launch {n : Nat} {s t : State} (h : busEventStep n s = .ok t) : t.launch = s.launch := by
  unfold busEventStep at h
  split at h
  · cases h
    rfl
  · obtain ⟨fa, -, rfl⟩ := map_ok.1 h
    exact serveGroup_launch fa s
  · obtain ⟨u, hu, rfl⟩ := map_ok.1 h
    exact (usbReinit_launch hu :)

/-- T3 classifies the reading of EP0 OUT and acknowledges it (R177). -/
theorem t3_launch {s t : State} (h : t3 s = .ok t) : t.launch = s.launch := by
  obtain ⟨so, -, h⟩ := bind_ok.1 h
  split at h
  · obtain ⟨r, hr, rfl⟩ := map_ok.1 h
    exact epTac_launch hr
  split at h
  · obtain ⟨r, hr, rfl⟩ := map_ok.1 h
    exact epTac_launch hr
  · cases h
    rfl

/-- T4 acknowledges EP0 IN (R177). -/
theorem t4Ack_launch {s t : State} (h : t4Ack s = .ok t) : t.launch = s.launch := by
  obtain ⟨si, -, h⟩ := bind_ok.1 h
  split at h
  · obtain ⟨r, hr, rfl⟩ := map_ok.1 h
    exact epTac_launch hr
  · cases h
    rfl

/-- T5 is the engine's event on the OUT side (R176). -/
theorem t5_launch {s t : State} (h : t5 s = .ok t) : t.launch = s.launch := by
  obtain ⟨k, -, h⟩ := bind_ok.1 h
  split at h
  · obtain ⟨u, hu, rfl⟩ := map_ok.1 h
    exact (evNewrequest_launch hu :)
  · obtain ⟨u, hu, rfl⟩ := map_ok.1 h
    exact (evCtloutDone_kept hu).1.launch
  · cases h
    rfl

/-- T6 is `EV_CTLIN_DONE`, and the end of the handler (R176, R178). -/
theorem t6_launch {s t : State} (h : t6 s = .ok t) : t.launch = s.launch := by
  obtain ⟨outk, -, h⟩ := bind_ok.1 h
  obtain ⟨ink, -, h⟩ := bind_ok.1 h
  cases h
  split
  · exact (evCtlinDone_kept _ s).1.launch
  · rfl

theorem trncomplStep_launch {n : Nat} {s t : State} (h : trncomplStep n s = .ok t) : t.launch = s.launch := by
  unfold trncomplStep at h
  split at h
  · cases h
    rfl
  · obtain ⟨v, -, rfl⟩ := map_ok.1 h
    rfl
  · exact t3_launch h
  · obtain ⟨v, -, rfl⟩ := map_ok.1 h
    rfl
  · exact t4Ack_launch h
  · exact t5_launch h
  · exact t6_launch h
  · cases h
    rfl

theorem microStep_launch {s t : State} (h : microStep s = .ok t) : t.launch = s.launch := by
  rcases microStep_cases h with ⟨x, rest, -, h⟩ | ⟨-, rfl | ⟨n, -, ⟨-, h⟩ | ⟨-, h⟩⟩⟩
  · exact (dispStep_launch h rfl :)
  · rfl
  · exact busEventStep_launch h
  · exact trncomplStep_launch h

/-- Settles O55: of the four things a step can do, none writes what is fixed at launch. -/
theorem launchFixed : Obligations.LaunchFixed := by
  intro s t h
  have fixed : t.launch = s.launch := by
    rcases step_cases h with rfl | ⟨i, cmd, bus, h⟩ | h | ⟨r, -, -, rfl⟩
    · rfl
    · exact (exec_launch h :)
    · exact (microStep_launch h :)
    · rfl
  exact ⟨(launch_eq_iff.1 fixed).1, pmemByte_of_launch fixed⟩

end Sys2Proof.Machine
end

section
/-! SUPPORT. The encoder and the decoder undo each other. That a word is the one its decoding is encoded by rests on one
fact of the opcode map: no bit of a row's words is ignored, each is fixed by the row's mask or read as an operand. -/
namespace Sys2Proof
open Laws

/-! ## Decoding after encoding -/

/-- The family `Encoding`, of every instruction. -/
theorem encoding_statement : ∀ i, Encoding.Statement i
  | .epInit .. => Encoding.epInit ..
  | .epCancel .. => Encoding.epCancel ..
  | .epArm .. => Encoding.epArm ..
  | .epIsdone .. => Encoding.epIsdone ..
  | .epClrdone .. => Encoding.epClrdone ..
  | .epIsready .. => Encoding.epIsready ..
  | .epIsempty .. => Encoding.epIsempty ..
  | .epNextbank .. => Encoding.epNextbank ..
  | .epStall .. => Encoding.epStall ..
  | .epRdstatus .. => Encoding.epRdstatus ..
  | .epTac .. => Encoding.epTac ..
  | .epTas .. => Encoding.epTas ..
  | .epRdcnt .. => Encoding.epRdcnt ..
  | .epRdctrl .. => Encoding.epRdctrl ..
  | .gRd .. => Encoding.gRd ..
  | .ifaClr .. => Encoding.ifaClr ..
  | .ifbClr .. => Encoding.ifbClr ..
  | .setAddr .. => Encoding.setAddr ..
  | .attach => Encoding.attach
  | .detach => Encoding.detach
  | .intEnable .. => Encoding.intEnable ..
  | .usbReinit => Encoding.usbReinit
  | .ctlIn .. => Encoding.ctlIn ..
  | .ctlOut => Encoding.ctlOut
  | .ctlAck => Encoding.ctlAck
  | .ctlStall => Encoding.ctlStall
  | .bridgeCopy .. => Encoding.bridgeCopy ..
  | .bufCopy .. => Encoding.bufCopy ..
  | .ramWr .. => Encoding.ramWr ..
  | .ramRd .. => Encoding.ramRd ..
  | .nvmcmdWr .. => Encoding.nvmcmdWr ..
  | .busSetup .. => Encoding.busSetup ..
  | .busOut .. => Encoding.busOut ..
  | .busIn .. => Encoding.busIn ..
  | .busSof => Encoding.busSof
  | .busReset => Encoding.busReset
  | .busSuspend => Encoding.busSuspend
  | .busResume => Encoding.busResume
  | .busCrcerr => Encoding.busCrcerr
  | .svcBusevent => Encoding.svcBusevent
  | .svcTrncompl => Encoding.svcTrncompl
  | .evNewrequest => Encoding.evNewrequest
  | .evCtloutDone => Encoding.evCtloutDone
  | .evCtlinDone .. => Encoding.evCtlinDone ..

theorem decode_encode (i : Instr) (rest : List Byte) (h : i.wf = true) : decode (encode i ++ rest) = .ok i rest := by
  obtain ⟨⟨r, hr, hm, hb⟩, hlen⟩ := encoding_statement i
  rw [encode, List.append_assoc, decode_wordBytes]
  simp [decodeAfter, rowOf_of_matches hr hm, hlen h, hb]

/-- Settles O4: the word of an instruction is its row's, the row reads the operands back, and the word asks for exactly
the payload that follows it. -/
theorem decodeEncode : Obligations.DecodeEncode := decode_encode

/-! ## The fields of a row -/

/-- The operand fields of an instruction's word, each as its lowest bit and its width (R86 to R88, R91). -/
def Instr.fields : Instr → List (Nat × Nat)
  | .epInit .. => [(52, 4), (51, 1), (32, 2), (34, 2), (36, 1)]
  | .epArm .. => [(52, 4), (51, 1), (50, 1), (32, 16), (0, 32)]
  | .epIsdone .. => [(52, 4), (51, 1), (50, 1), (32, 1)]
  | .epRdcnt .. => [(52, 4), (51, 1), (50, 1)]
  | .epRdstatus .. | .epTac .. | .epTas .. => [(52, 4), (51, 1), (32, 8)]
  | .epCancel .. | .epClrdone .. | .epIsready .. | .epIsempty .. | .epNextbank .. | .epStall .. | .epRdctrl .. =>
    [(52, 4), (51, 1)]
  | .gRd _ => [(32, 4)]
  | .ifaClr _ | .ifbClr _ | .nvmcmdWr _ => [(32, 8)]
  | .setAddr _ => [(32, 7)]
  | .intEnable .. => [(32, 1), (33, 1)]
  | .ctlIn _ => [(32, 16)]
  | .bridgeCopy .. | .bufCopy .. => [(32, 16), (0, 32)]
  | .ramWr .. => [(32, 8), (0, 32)]
  | .ramRd _ => [(0, 32)]
  | .busSetup .. | .busOut .. => [(52, 4), (32, 16), (0, 7)]
  | .busIn .. => [(52, 4), (48, 1), (0, 7)]
  | .evCtlinDone _ => [(0, 1)]
  | .attach | .detach | .usbReinit | .ctlOut | .ctlAck | .ctlStall | .busSof | .busReset | .busSuspend | .busResume
  | .busCrcerr | .svcBusevent | .svcTrncompl | .evNewrequest | .evCtloutDone => []

/-- The operand fields of a row's words. -/
def Row.fields (r : Row) : List (Nat × Nat) := (r.build 0 []).fields

/-- Two words agree in a field. -/
def agree (v w : Word) (f : Nat × Nat) : Prop := v.extractLsb' f.1 f.2 = w.extractLsb' f.1 f.2

/-- No bit of a row's words is ignored (R90). -/
theorem row_covers : ∀ r ∈ rows, ∀ i < 64, r.mask.getLsbD i = true ∨ ∃ f ∈ r.fields, f.1 ≤ i ∧ i < f.1 + f.2 := by
  decide

/-- Two words of one row that agree in its fields are one word. -/
theorem word_eq_of_agree {r : Row} (hr : r ∈ rows) {v w : Word} (hv : r.matches v = true) (hw : r.matches w = true)
    (hf : ∀ f ∈ r.fields, agree v w f) : v = w := by
  have hmask : v &&& r.mask = w &&& r.mask := (eq_of_beq hv).trans (eq_of_beq hw).symm
  apply BitVec.eq_of_getLsbD_eq
  intro i hi
  rcases row_covers r hr i hi with h | ⟨f, hmem, hlo, hhi⟩
  · simpa [h] using congrArg (·.getLsbD i) hmask
  · have hbit := congrArg (·.getLsbD (i - f.1)) (hf f hmem)
    simpa [show i - f.1 < f.2 by omega, show f.1 + (i - f.1) = i by omega] using hbit

theorem bit_eq_iff {v w : Word} {k : Nat} : v.getLsbD k = w.getLsbD k ↔ agree v w (k, 1) := by
  refine ⟨fun h => ?_, fun h => by simpa using congrArg (·.getLsbD 0) h⟩
  apply BitVec.eq_of_getLsbD_eq
  intro i hi
  obtain rfl : i = 0 := by omega
  simpa using h

theorem dir_eq_iff {v w : Word} : Word.dir v = Word.dir w ↔ agree v w (51, 1) := by
  rw [← bit_eq_iff, Word.dir, Word.dir]
  cases v.getLsbD 51 <;> cases w.getLsbD 51 <;> decide

theorem bank_eq_iff {v w : Word} : Word.bank v = Word.bank w ↔ agree v w (50, 1) := by
  rw [← bit_eq_iff, Word.bank, Word.bank]
  cases v.getLsbD 50 <;> cases w.getLsbD 50 <;> decide

/-! ## Payloads -/

/-- The opcodes of the words that a payload follows (R95). -/
def hasPayload (opc : Byte) : Prop := opc = 0x80#8 ∨ opc = 0x81#8

theorem payloadLen_of_hasPayload {w : Word} (h : hasPayload (w.extractLsb' 56 8)) :
    payloadLen w = (Word.a w).toNat := if_pos h

theorem payloadLen_of_not_hasPayload {w : Word} (h : ¬ hasPayload (w.extractLsb' 56 8)) : payloadLen w = 0 := if_neg h

/-- `LEN` has 16 bits (R87). -/
theorem payloadLen_lt (w : Word) : payloadLen w < 2 ^ 16 := by
  unfold payloadLen
  split
  · exact (Word.a w).isLt
  · decide

theorem wf_iff (i : Instr) : i.wf = true ↔ (encodePayload i).length < 2 ^ 16 := by
  cases i with
  | busSetup _ _ payload | busOut _ _ payload => simp [Instr.wf, payloadFits, encodePayload]
  | _ => simp [Instr.wf, encodePayload]

/-! ## Encoding what a row reads -/

@[simp] theorem opcode_formatS (opc : Byte) (f : BitVec 1) : (formatS opc f).extractLsb' 56 8 = opc := by
  apply BitVec.eq_of_getLsbD_eq
  intro i hi
  simp only [formatS, BitVec.getLsbD_extractLsb', BitVec.getLsbD_append, hi]
  split
  · omega
  · simp

/-- A row is known by its opcode (R90). -/
theorem row_eq_of_opcode {r r' : Row} (hr : r ∈ rows) (hr' : r' ∈ rows)
    (h : r.mtch.extractLsb' 56 8 = r'.mtch.extractLsb' 56 8) : r = r' := by
  obtain ⟨i, hi, rfl⟩ := List.getElem_of_mem hr
  obtain ⟨j, hj, rfl⟩ := List.getElem_of_mem hr'
  have distinct := List.pairwise_iff_getElem.1 rows_opcodes_distinct
  rcases Nat.lt_trichotomy i j with hlt | rfl | hgt
  · exact absurd h (distinct i j hi hj hlt)
  · rfl
  · exact absurd h.symm (distinct j i hj hi hgt)

/-- What a row reads is encoded with the row's opcode. -/
theorem opcode_encodeWord_build : ∀ r ∈ rows, ∀ (w : Word) (p : List Byte),
    (encodeWord (r.build w p)).extractLsb' 56 8 = r.mtch.extractLsb' 56 8 := by
  simp only [rows, rowsEndpoint, rowsGlobal, rowsEngine, rowsBus, rowsService, List.forall_mem_append,
    List.forall_mem_cons]
  simp [encodeWord]

/-- What a row reads is encoded with the payload it was read from. -/
theorem encodePayload_build : ∀ r ∈ rows, ∀ (w : Word) (p : List Byte),
    (¬ hasPayload (r.mtch.extractLsb' 56 8) → p = []) → encodePayload (r.build w p) = p := by
  simp only [rows, rowsEndpoint, rowsGlobal, rowsEngine, rowsBus, rowsService, List.forall_mem_append,
    List.forall_mem_cons]
  simp [encodePayload, hasPayload]

/-- Words from which a row reads one instruction agree in its fields; `LEN` is read with the payload and not as an
operand (R95). -/
theorem agree_of_build_eq : ∀ r ∈ rows, ∀ (v w : Word) (p : List Byte),
    (hasPayload (r.mtch.extractLsb' 56 8) → Word.a v = Word.a w) → r.build v p = r.build w p →
    ∀ f ∈ r.fields, agree v w f := by
  simp only [rows, rowsEndpoint, rowsGlobal, rowsEngine, rowsBus, rowsService, List.forall_mem_append,
    List.forall_mem_cons, Row.fields, Instr.fields]
  simp +contextual [hasPayload, agree, dir_eq_iff, bank_eq_iff, bit_eq_iff, Word.ep, Word.a, Word.aByte, Word.b,
    Word.devaddr, -BitVec.getLsbD_eq_getElem]

/-- What a row reads from its word and the payload the word asks for is encoded by that word and payload. -/
theorem encode_build {r : Row} (hr : r ∈ rows) {w : Word} (hm : r.matches w = true) {p : List Byte}
    (hp : p.length = payloadLen w) :
    (r.build w p).wf = true ∧ encodeWord (r.build w p) = w ∧ encodePayload (r.build w p) = p := by
  have hopc := opcode_of_matches hr hm
  have hpay : encodePayload (r.build w p) = p := encodePayload_build r hr w p fun h =>
    List.length_eq_zero_iff.1 (hp.trans (payloadLen_of_not_hasPayload (hopc ▸ h)))
  have hwf : (r.build w p).wf = true := (wf_iff _).2 (by rw [hpay, hp]; exact payloadLen_lt w)
  obtain ⟨⟨r', hr', hm', hb⟩, hlen⟩ := encoding_statement (r.build w p)
  have hopc' := opcode_encodeWord_build r hr w p
  obtain rfl : r' = r := row_eq_of_opcode hr' hr ((opcode_of_matches hr' hm').symm.trans hopc')
  rw [hpay] at hb hlen
  have ha : hasPayload (r'.mtch.extractLsb' 56 8) → Word.a (encodeWord (r'.build w p)) = Word.a w := fun h => by
    apply BitVec.eq_of_toNat_eq
    rw [← payloadLen_of_hasPayload (hopc' ▸ h), ← payloadLen_of_hasPayload (hopc ▸ h), hlen hwf, hp]
  exact ⟨hwf, word_eq_of_agree hr hm' hm (agree_of_build_eq r' hr _ _ p ha hb), hpay⟩

/-! ## Encoding after decoding -/

theorem append_byte_inj {n : Nat} {x y : BitVec n} {a b : Byte} (h : x ++ a = y ++ b) : x = y ∧ a = b := by
  have hhigh := congrArg (·.extractLsb' 8 n) h
  have hlow := congrArg (·.extractLsb' 0 8) h
  exact ⟨by simpa only [BitVec.extractLsb'_append_eq_left] using hhigh,
    by simpa only [BitVec.extractLsb'_append_eq_right] using hlow⟩

/-- The word of eight bytes has those bytes (R85). -/
theorem wordBytes_append (b7 b6 b5 b4 b3 b2 b1 b0 : Byte) :
    wordBytes (b7 ++ b6 ++ b5 ++ b4 ++ b3 ++ b2 ++ b1 ++ b0 : BitVec 64) = [b7, b6, b5, b4, b3, b2, b1, b0] := by
  obtain ⟨h, h0⟩ := append_byte_inj (append_wordBytes (b7 ++ b6 ++ b5 ++ b4 ++ b3 ++ b2 ++ b1 ++ b0 : BitVec 64))
  obtain ⟨h, h1⟩ := append_byte_inj h
  obtain ⟨h, h2⟩ := append_byte_inj h
  obtain ⟨h, h3⟩ := append_byte_inj h
  obtain ⟨h, h4⟩ := append_byte_inj h
  obtain ⟨h, h5⟩ := append_byte_inj h
  obtain ⟨h7, h6⟩ := append_byte_inj h
  rw [wordBytes, h7, h6, h5, h4, h3, h2, h1, h0]

theorem rowOf_eq_some {w : Word} {r : Row} (h : rowOf w = some r) : r ∈ rows ∧ r.matches w = true :=
  ⟨List.mem_of_find?_eq_some h, List.find?_some (p := fun r : Row => r.matches w) h⟩

theorem decodeAfter_ok {w : Word} {tail rest : List Byte} {i : Instr} (h : decodeAfter w tail = .ok i rest) :
    i.wf = true ∧ encodeWord i = w ∧ tail = encodePayload i ++ rest := by
  unfold decodeAfter at h
  split at h
  · split at h <;> cases h
  next r hr =>
    split at h
    · cases h
    next hlen =>
      cases h
      obtain ⟨hmem, hm⟩ := rowOf_eq_some hr
      obtain ⟨hwf, hw, hpay⟩ := encode_build hmem hm (List.length_take_of_le (Nat.not_lt.1 hlen))
      exact ⟨hwf, hw, by rw [hpay, List.take_append_drop]⟩

/-- Settles O5: a row reads every bit of its words that its mask leaves open, so that the word is the one the encoder
writes. -/
theorem encodeDecode : Obligations.EncodeDecode := by
  intro bytes i rest h
  unfold decode at h
  split at h
  · obtain ⟨hwf, hw, rfl⟩ := decodeAfter_ok h
    refine ⟨hwf, ?_⟩
    rw [encode, hw, wordBytes_append]
    rfl
  · cases h

/-- Settles O6: the decoder, run on each word. -/
theorem decodeWords : Obligations.DecodeWords := by
  unfold Obligations.DecodeWords
  decide

/-! ## Undecodable words -/

/-- A word is of no row, or some instruction is encoded by it. -/
theorem rowOf_eq_none_or_encodeWord (w : Word) : rowOf w = none ∨ ∃ i : Instr, i.wf = true ∧ encodeWord i = w := by
  rcases hr : rowOf w with _ | r
  · exact .inl rfl
  · obtain ⟨hmem, hm⟩ := rowOf_eq_some hr
    obtain ⟨hwf, hw, -⟩ := encode_build hmem hm (List.length_replicate (n := payloadLen w) (a := (0 : Byte)))
    exact .inr ⟨_, hwf, hw⟩

/-- A word of no row is undecodable (R92, R97). -/
theorem decode_of_rowOf_none {w : Word} (h : rowOf w = none) (rest : List Byte) :
    decode (wordBytes w ++ rest) = .illegalCommand ∨ decode (wordBytes w ++ rest) = .illegalEvent := by
  rw [decode_wordBytes, decodeAfter, h]
  cases Word.isEventFormat w with
  | false => exact .inl rfl
  | true => exact .inr rfl

/-- The opcodes that no row has (R90, R92). -/
abbrev reservedOpcode (opc : Nat) : Prop :=
  opc = 0x00 ∨ opc = 0x0F ∨ (0x18 ≤ opc ∧ opc ≤ 0x1F) ∨ (0x26 ≤ opc ∧ opc ≤ 0x2F) ∨ (0x33 ≤ opc ∧ opc ≤ 0x7F) ∨
    (0x88 ≤ opc ∧ opc ≤ 0xBF) ∨ (0xC5 ≤ opc ∧ opc ≤ 0xFF)

theorem row_not_reservedOpcode : ∀ r ∈ rows, ¬ reservedOpcode (r.mtch.extractLsb' 56 8).toNat := by decide

theorem encodeWord_not_reservedOpcode (i : Instr) : ¬ reservedOpcode ((encodeWord i).extractLsb' 56 8).toNat := by
  obtain ⟨⟨r, hr, hm, -⟩, -⟩ := encoding_statement i
  rw [opcode_of_matches hr hm]
  exact row_not_reservedOpcode r hr

end Sys2Proof
end

section
/-! SUPPORT. A port whose next word is undecodable there ends the step in `CV_RESERVED`. -/
namespace Sys2Proof.Machine

theorem headWord_wordBytes (w : Word) (rest : List Byte) : headWord (wordBytes w ++ rest) = some w := by
  simp only [wordBytes, List.cons_append, List.nil_append, headWord, append_wordBytes]

/-- What is recorded of a step that ends in `CV_RESERVED` (R252). -/
theorem faultRecord_reserved {s : State} {w : Word} (h : step s = .fault .cvReserved) (hw : s.turnWord = some w) :
    faultRecord s = some (1, some w) := by
  rw [faultRecord, h, ← hw]
  rfl

theorem nextTurn_of_turns {s : State} {u : Turn} {ts : List Turn} (h : s.turns = u :: ts) : s.nextTurn = u := by
  rw [State.nextTurn, h, List.headD_cons]

/-- The command port refuses the words that encode no instruction (R92). -/
theorem runCommandWord_reserved {s : State} {w : Word} {rest : List Byte} (hc : s.cmd = wordBytes w ++ rest)
    (hw : ∀ i : Instr, i.wf = true → encodeWord i ≠ w) : runCommandWord s = .fault .cvReserved := by
  rcases rowOf_eq_none_or_encodeWord w with hnone | ⟨i, hwf, hi⟩
  · rcases decode_of_rowOf_none hnone rest with hd | hd <;> simp only [runCommandWord, hc, hd]
  · exact absurd hi (hw i hwf)

/-- Only a bus event has a payload (R87, R95). -/
theorem encodePayload_of_not_busEvent {i : Instr} (h : isBusEvent i = false) : encodePayload i = [] := by
  cases i with
  | busSetup | busOut => cases h
  | _ => rfl

/-- The SIE port refuses the words that encode no bus event: those of no row, and those of other instructions, which
decode whatever follows them, since no payload does (log entry 18). -/
theorem runBusWord_reserved {s : State} {w : Word} {rest : List Byte} (hc : s.bus = wordBytes w ++ rest)
    (hw : ∀ i : Instr, i.wf = true → isBusEvent i = true → encodeWord i ≠ w) :
    runBusWord s = .fault .cvReserved := by
  rcases rowOf_eq_none_or_encodeWord w with hnone | ⟨i, hwf, rfl⟩
  · rcases decode_of_rowOf_none hnone rest with hd | hd <;> simp only [runBusWord, hc, hd]
  · have hbus : isBusEvent i = false := Bool.eq_false_iff.2 fun h => hw i hwf h rfl
    have hd : decode s.bus = .ok i rest := by
      rw [hc, ← decode_encode i rest hwf, encode, encodePayload_of_not_busEvent hbus, List.append_nil]
    simp [runBusWord, hd, hbus]

/-- Settles O7: no instruction is encoded with a reserved opcode, and a port refuses what is no encoding. -/
theorem reservedOpcodes : Obligations.ReservedOpcodes := by
  intro s w rest ts
  refine ⟨fun ht hc => ?command, fun ht hc hw => ?sie⟩
  case command =>
    have turnWord : s.turnWord = some w := by
      simp only [State.turnWord, nextTurn_of_turns ht, hc, headWord_wordBytes]
    have illegal (hw : ∀ i : Instr, i.wf = true → encodeWord i ≠ w) :
        step s = .fault .cvReserved ∧ faultRecord s = some (1, some w) := by
      have hstep := (step_of_turns ht).trans (runCommandWord_reserved hc hw)
      exact ⟨hstep, faultRecord_reserved hstep turnWord⟩
    refine ⟨fun hopc => illegal fun i _ hi => ?_, illegal⟩
    exact encodeWord_not_reservedOpcode i (hi ▸ hopc)
  case sie =>
    have turnWord : s.turnWord = some w := by
      simp only [State.turnWord, nextTurn_of_turns ht, hc, headWord_wordBytes]
    have hstep := (step_of_turns ht).trans (runBusWord_reserved hc hw)
    exact ⟨hstep, faultRecord_reserved hstep turnWord⟩

end Sys2Proof.Machine
end

section
/-! SUPPORT. How a command answers, check by check: the equations of the two endpoint checks (R110), a check that faults
and the rest that follows it, and the frame of a write of one global register. -/
namespace Sys2Proof.Machine

/-! ## Checks -/

section
variable {α : Type} {s : State} {d : Dir} {e : BitVec 4} {k : EpRegs → Except Fault α}

/-- A command on an existing endpoint is what its rule does with the group (R110). -/
theorem onEp_of_lt (he : e.toNat < s.par.nEp) : onEp s d e k = k (s.ep d e) := if_pos he

/-- At or above `N_EP` there is no endpoint (R110, `CV_BADEP`). -/
theorem onEp_badep (he : s.par.nEp ≤ e.toNat) : onEp s d e k = .error .cvBadep := if_neg (Nat.not_lt.2 he)

/-- The second check asks for no less than the first (R110). -/
theorem onInit_badep (he : s.par.nEp ≤ e.toNat) : onInit s d e k = .error .cvBadep := onEp_badep he

/-- On an existing endpoint the second check is the first that can fail (R110, `CV_UNINIT` of R252). -/
theorem onInit_of_lt (he : e.toNat < s.par.nEp) :
    onInit s d e k = if (s.ep d e).type = typeDisabled then .error .cvUninit else k (s.ep d e) := onEp_of_lt he

/-- A command on an initialised direction of an existing endpoint is what its rule does with the group (R110). -/
theorem onInit_of_type (he : e.toNat < s.par.nEp) (ht : (s.ep d e).type ≠ typeDisabled) :
    onInit s d e k = k (s.ep d e) := (onInit_of_lt he).trans (if_neg ht)

end

/-- A result changed in form faults where the result did. -/
theorem map_of_error {α β : Type} {r : Except Fault α} {g : α → β} {f : Fault} (hr : r = .error f) :
    r.map g = .error f := by rw [hr, Except.map]

/-- A result changed in form is there where the result was. -/
theorem map_of_ok {α β : Type} {r : Except Fault α} {g : α → β} {v : α} (hr : r = .ok v) : r.map g = .ok (g v) := by
  rw [hr, Except.map]

/-- State that holds no value is not used (R47). -/
theorem valueOf_none {α : Type} {o : Option α} (h : o = none) : valueOf o = .error .cvNovalue := by rw [h, valueOf]

/-- A command with a result that its operation turns down. -/
theorem returning_of_error {s : State} {r : Except Fault (State × Word)} {f : Fault} (hb : s.busy = false)
    (hr : r = .error f) : returning s r = .fault f := by simp [returning, whenIdle, hb, hr, outcomeOf, Except.map]

/-- One check of a rule's list: where its condition holds the word faults, and where it does not the rest decides
(R110: the checks are made in the order of the rule). -/
theorem fault_or_rest {α : Type} {run : Except Fault α → Host.Outcome State Fault Refusal} {x r : Except Fault α}
    {f : Fault} {c P : Prop} [Decidable c] (fails : ∀ {y}, y = .error f → run y = .fault f)
    (hx : x = if c then .error f else r) (rest : ¬c → x = r → P) : if c then run x = .fault f else P := by
  by_cases h : c
  · rw [if_pos h]
    exact fails (hx.trans (if_pos h))
  · rw [if_neg h]
    exact rest h (hx.trans (if_neg h))

section
variable {s : State} {f : Fault} {c P : Prop} [Decidable c]

/-- The same of a command. -/
theorem command_check {x r : Except Fault State} (hb : s.busy = false) (hx : x = if c then .error f else r)
    (rest : ¬c → x = r → P) : if c then command s x = .fault f else P :=
  fault_or_rest (run := command s) (command_of_error hb) hx rest

/-- The same of a query. -/
theorem query_check {x r : Except Fault Word} (hb : s.busy = false) (hx : x = if c then .error f else r)
    (rest : ¬c → x = r → P) : if c then query s x = .fault f else P :=
  fault_or_rest (run := query s) (query_of_error hb) hx rest

end

/-! ## Boolean results -/

/-- The number a condition gives (R8). -/
theorem boolWord_of_iff {b : Bool} {p : Prop} [Decidable p] (h : b = true ↔ p) :
    boolWord b = if p then 1 else 0 := by simp only [boolWord, h]

/-- A query whose result is a condition writes nothing but 1 or 0 (R8, R69). -/
theorem query_of_bool {s : State} {r : Except Fault Word} {b : Bool} {p : Prop} (hb : s.busy = false)
    (hr : r = .ok (boolWord b)) (hp : b = true ↔ p) :
    ∃ t v, query s r = .next t ∧ onlyOut s t ∧ t.out = .value v ∧ (v = 1 ∨ v = 0) ∧ (v = 1 ↔ p) := by
  refine ⟨_, boolWord b, query_of_ok hb hr, onlyOut_out s _, rfl, ?_, ?_⟩
  · cases b
    · exact .inr rfl
    · exact .inl rfl
  · rw [← hp]
    cases b <;> decide

/-- A query that has its result writes nothing else (R69). -/
theorem query_gives {s : State} {r : Except Fault Word} {v : Word} (hb : s.busy = false) (hr : r = .ok v) :
    ∃ t, query s r = .next t ∧ onlyOut s t ∧ t.out = .value v := ⟨_, query_of_ok hb hr, onlyOut_out s _, rfl⟩

/-! ## Masks -/

/-- A mask cut to the low `n` bits. -/
theorem getLsbD_and_low (m : Byte) {low : Byte} {n : Nat} (h : ∀ k < 8, low.getLsbD k = decide (k < n)) (k : Nat) :
    (m &&& low).getLsbD k = (m.getLsbD k && decide (k < n)) := by
  rw [BitVec.getLsbD_and]
  by_cases hk : k < 8
  · rw [h k hk]
  · rw [BitVec.getLsbD_of_ge m k (by omega), Bool.false_and, Bool.false_and]

/-- Bits that survive one change and then another. -/
theorem sameBitsBut.trans {x y z : Byte} {l : List Nat} (h : sameBitsBut x y l) (g : sameBitsBut y z l) :
    sameBitsBut x z l := fun k hk => (g k hk).trans (h k hk)

/-! ## Frames -/

/-- A command that wrote global registers and gave no result (R30 to R37); what else could have changed did not, by
computation. -/
theorem onlyGlobals_give {s u : State} {l : List Nat} (h : Calm l s u) (ho : u.outs = s.outs := by rfl)
    (hi : u.ins = s.ins := by rfl) (hr : u.ram = s.ram := by rfl) (hs : sameRest s u := by exact sameRest_refl _) :
    onlyGlobals s (u.give .none) l :=
  ⟨sameEps_of_regs ho hi, fun a => congrArg (readCell · a) hr, h.globals, hs⟩

/-- Where every bank is idle hardware owns nothing (R65). -/
theorem not_hardwareOwns_of_idle {s : State} (h : ∀ d e b, (s.ep d e).nack b = true) (a n : Nat) :
    ¬hardwareOwns s a n := by
  rintro ⟨x, -, d, e, b, -, armed, -⟩
  exact absurd ((h d e b).symm.trans armed) (by decide)

end Sys2Proof.Machine
end

section
/-! SUPPORT. The endpoint commands as words of the command port (R110 to R124). -/
namespace Sys2Proof.Machine

/-! ## Operations -/

/-- Everything `EP_CLRDONE` can do (R115). -/
theorem epClrdone_ok {e : BitVec 4} {d : Dir} {s t : State} :
    epClrdone e d s = .ok t ↔ e.toNat < s.par.nEp ∧ (s.ep d e).type ≠ typeDisabled ∧
      t = s.setEp d e ((s.ep d e).clearStatus 0x0C) := by
  rw [epClrdone, onInit_ok, Except.ok.injEq, eq_comm (a := t)]

/-- Everything `EP_TAS` can do (R122). -/
theorem epTas_ok {e : BitVec 4} {d : Dir} {mask : Byte} {s : State} {r : State × Byte} :
    epTas e d mask s = .ok r ↔ e.toNat < s.par.nEp ∧
      r = (s.setEp d e ((s.ep d e).orStatus (mask &&& 0x3F)), (s.ep d e).status) := by
  rw [epTas, onEp_ok, Except.ok.injEq, eq_comm (a := r)]

/-! ## Groups -/

/-- The image `EP_INIT` stores has its reserved bits 0 (R22, R111). -/
theorem reserved_initialised (type bufsize : BitVec 2) (pingpong : Bool) :
    (EpRegs.initialised type bufsize pingpong).ctrl.extractLsb' 6 2 = 0#2 := by
  revert type bufsize pingpong
  decide

/-- After `EP_INIT` no bank has a count or a reference (R111). -/
theorem banks_initialised (type bufsize : BitVec 2) (pingpong : Bool) (b : Bank) :
    (EpRegs.initialised type bufsize pingpong).cnt b = none ∧
      (EpRegs.initialised type bufsize pingpong).ptr b = none := by cases b <;> exact ⟨rfl, rfl⟩

/-- Setting flags writes only `STATUS` (R23). -/
theorem onlyStatus_orStatus (x : EpRegs) (m : Byte) : onlyStatus x (x.orStatus m) :=
  ⟨rfl, fun b => by cases b <;> exact ⟨rfl, rfl⟩⟩

/-- Clearing flags writes only `STATUS` (R23). -/
theorem onlyStatus_clearStatus (x : EpRegs) (m : Byte) : onlyStatus x (x.clearStatus m) :=
  ⟨rfl, fun b => by cases b <;> exact ⟨rfl, rfl⟩⟩

/-- Arming clears two flags of the bank (R113). -/
theorem status_arm (x : EpRegs) (b : Bank) (n : BitVec 7) (a : Addr) :
    (x.arm b n a).status = (x.status &&& ~~~doneMask b) &&& ~~~nackMask b := by cases b <;> rfl

/-- The banks in use (R21). -/
theorem mem_banks {x : EpRegs} {b : Bank} : b ∈ x.banks ↔ b = .b0 ∨ x.pingpong = true := by
  unfold EpRegs.banks
  cases x.pingpong <;> cases b <;> simp

/-- Bank 1 is served next (R118, R141; log entry 26). -/
theorem sel_eq_b1 {x : EpRegs} : (x.sel == .b1) = true ↔ x.pingpong = true ∧ x.status.getLsbD 5 = true := by
  rw [beq_iff_eq, sel_eq]
  split
  case isTrue h => exact iff_of_true rfl h
  case isFalse h => exact iff_of_false (by decide) h

/-! ## The obligations -/

/-- Settles O15: the checks one after the other, and then what `epArm_ok` answers. -/
theorem epArm_spec : Obligations.EpArm := by
  intro s e d b size buf hb he
  refine command_check hb (onInit_of_lt he) fun _ hr => ?_
  refine command_check hb hr fun _ hr => ?_
  refine command_check hb hr fun fits hr => ?_
  refine command_check hb hr fun _ hr => ?_
  refine command_check hb hr fun _ hr => ?_
  rw [← hwOwns_iff_hardwareOwns]
  refine ⟨fun owned => command_of_error hb (hr.trans (if_pos owned)), fun free => ?_⟩
  refine ⟨_, command_of_ok hb (hr.trans (if_neg free)), rfl, onlyEp_setEp .., ?_⟩
  rw [ep_setEp_out]
  exact armedAs_arm _ _ _ _ (Nat.not_lt.1 fits)

/-- Settles O11: every command with an `EP` field begins with the check of R110. -/
theorem badEndpoint : Obligations.BadEndpoint := by
  intro i e s hb hi he
  cases i with
  | epInit => cases hi; exact command_of_error hb (onEp_badep he)
  | epCancel | epArm | epClrdone | epStall => cases hi; exact command_of_error hb (onInit_badep he)
  | epIsdone | epIsready | epIsempty | epNextbank => cases hi; exact query_of_error hb (onInit_badep he)
  | epRdcnt => cases hi; exact query_of_error hb (onEp_badep he)
  | epRdstatus | epRdctrl => cases hi; exact query_of_error hb (map_of_error (onEp_badep he))
  | epTac | epTas => cases hi; exact returning_of_error hb (map_of_error (onEp_badep he))
  | _ => cases hi

/-- Settles O13: the two reserved combinations, and otherwise the group that `EpRegs.initialised` is. -/
theorem epInit_spec : Obligations.EpInit := by
  intro s e d type bufsize pingpong hb he
  split
  case isTrue reserved =>
    refine command_of_error hb ((onEp_of_lt he).trans ?_)
    rcases reserved with rfl | h
    · exact if_pos rfl
    · exact (if_neg (by rw [h.1]; decide)).trans (if_pos h)
  case isFalse legal =>
    obtain ⟨h3, h1⟩ := not_or.1 legal
    obtain ⟨htype, hsize, hping, hstall⟩ := initialised_fields type bufsize pingpong
    refine ⟨_, command_of_ok hb (epInit_ok.2 ⟨he, h3, h1, rfl⟩), rfl, onlyEp_setEp .., ?_⟩
    rw [ep_setEp_out]
    exact ⟨htype, hsize, hping, hstall, reserved_initialised .., rfl, banks_initialised _ _ _⟩

/-- Settles O14: the two masks are those of the `NACK` and of the `DONE` flags. -/
theorem epCancelClrdone : Obligations.EpCancelClrdone := by
  intro s e d hb he ht
  refine ⟨⟨_, command_of_ok hb (epCancel_ok.2 ⟨he, ht, rfl⟩), rfl, onlyEp_setEp .., ?cancel⟩,
    ⟨_, command_of_ok hb (epClrdone_ok.2 ⟨he, ht, rfl⟩), rfl, onlyEp_setEp .., ?clrdone⟩⟩
  case cancel =>
    rw [ep_setEp_out]
    refine ⟨onlyStatus_orStatus .., fun b => ?_, sameBitsBut_or _ _ _ (by decide)⟩
    rw [nack_eq, EpRegs.orStatus, getLsbD_or]
    cases b <;> exact Bool.or_true _
  case clrdone =>
    rw [ep_setEp_out]
    refine ⟨onlyStatus_clearStatus .., fun b => ?_, sameBitsBut_clear _ _ _ (by decide)⟩
    rw [done_eq, EpRegs.clearStatus, getLsbD_clear]
    cases b <;> exact Bool.and_false _

/-- Settles O16: the two checks, and then the flag of the bank or, with `ANY`, of either. -/
theorem epIsdone_spec : Obligations.EpIsdone := by
  intro s e d b any hb he ht
  refine query_check hb (onInit_of_type he ht) fun _ hr => ?_
  refine query_check hb hr fun _ hr => ?_
  cases any
  · refine ⟨_, query_of_ok hb hr, onlyOut_out s _, congrArg Output.value (boolWord_of_iff ?_)⟩
    simp
  · refine ⟨_, query_of_ok hb hr, onlyOut_out s _, congrArg Output.value (boolWord_of_iff ?_)⟩
    simp

/-- Settles O17: `EP_ISREADY` asks some, `EP_ISEMPTY` every one of the banks in use, and `EP_NEXTBANK` for the one
selected. -/
theorem epQueries : Obligations.EpQueries := by
  intro s e d hb he ht
  refine ⟨query_of_bool hb (onInit_of_type he ht) ?ready, query_of_bool hb (onInit_of_type he ht) ?empty,
    query_of_bool hb (onInit_of_type he ht) sel_eq_b1⟩
  case ready => simp only [List.any_eq_true, mem_banks]
  case empty => simp only [List.all_eq_true, mem_banks]

/-- Settles O18: `STALL` is bit 5 of `CTRL`. -/
theorem epStall_spec : Obligations.EpStall := by
  intro s e d hb he ht
  refine ⟨_, command_of_ok hb (epStall_ok.2 ⟨he, ht, rfl⟩), rfl, onlyEp_setEp .., ?_⟩
  rw [ep_setEp_out]
  refine ⟨?_, sameBitsBut_or _ _ _ (by decide), rfl, fun b => by cases b <;> exact ⟨rfl, rfl⟩⟩
  rw [EpRegs.stall, EpRegs.setStall, getLsbD_or]
  exact Bool.or_true _

/-- Settles O19: both read one register of the group. -/
theorem epReads : Obligations.EpReads := by
  intro s e d mask hb he
  exact ⟨query_gives hb (map_of_ok (onEp_of_lt he)), query_gives hb (map_of_ok (onEp_of_lt he))⟩

/-- Settles O20: the mask is cut to `STATUS[5:0]`, and its bits are cleared or set. -/
theorem epTestAndModify : Obligations.EpTestAndModify := by
  intro s e d mask hb he
  have cut := getLsbD_and_low mask (low := 0x3F) (n := 6) (by decide)
  refine ⟨⟨_, returning_of_ok hb (map_of_ok (epTac_ok.2 ⟨he, rfl⟩)), onlyEp_setEp .., ?clear⟩,
    ⟨_, returning_of_ok hb (map_of_ok (epTas_ok.2 ⟨he, rfl⟩)), onlyEp_setEp .., ?set⟩⟩
  case clear =>
    rw [ep_setEp_out]
    refine ⟨onlyStatus_clearStatus .., rfl, fun k => ?_⟩
    rw [EpRegs.clearStatus, getLsbD_clear, cut]
  case set =>
    rw [ep_setEp_out]
    refine ⟨onlyStatus_orStatus .., rfl, fun k => ?_⟩
    rw [EpRegs.orStatus, getLsbD_or, cut]

/-- Settles O21: the check of the bank, and then the count, if there is one. -/
theorem epRdcnt_spec : Obligations.EpRdcnt := by
  intro s e d b hb he
  refine query_check hb (onEp_of_lt he) fun _ hr => ?_
  refine ⟨fun empty => query_of_error hb (hr.trans (map_of_error (valueOf_none empty))), fun n held => ?_⟩
  exact query_gives hb (hr.trans (map_of_ok (valueOf_ok.2 held)))

end Sys2Proof.Machine
end

section
/-! SUPPORT. The global commands and the harness commands (R125 to R134, R233). -/
namespace Sys2Proof.Machine

/-! ## Firmware's own access to `RAM` -/

section
variable {s : State} {a : Addr}

/-- Beyond `RAM` there is no access (R61, R133, R134). -/
theorem ramAccess_of_ge (h : ramSize s.par ≤ a.toNat) : ramAccess a s = .error .cvRange := if_pos h

/-- There is none to what hardware owns (R65, R133, R134). -/
theorem ramAccess_of_owned (hr : ¬ramSize s.par ≤ a.toNat) (ho : hardwareOwns s a.toNat 1) :
    ramAccess a s = .error .cvOwnership := (if_neg hr).trans (if_pos (hwOwns_iff_hardwareOwns.2 ho))

/-- Everything else firmware may use (R133, R134). -/
theorem ramAccess_of_free (hr : ¬ramSize s.par ≤ a.toNat) (ho : ¬hardwareOwns s a.toNat 1) : ramAccess a s = .ok () :=
  (if_neg hr).trans (if_neg fun h => ho (hwOwns_iff_hardwareOwns.1 h))

/-- `RAM_RD` fails where the access does (R134). -/
theorem ramRd_of_error {f : Fault} (h : ramAccess a s = .error f) : ramRd a s = .error f := by
  rw [ramRd, h]
  rfl

/-- Where the access is allowed `RAM_RD` gives the byte (R134). -/
theorem ramRd_of_ok (h : ramAccess a s = .ok ()) : ramRd a s = valueOf (s.ramByte a.toNat) := by
  rw [ramRd, h]
  rfl

end

/-- Where either check fails, both words fault with it (R133, R134). -/
theorem ram_fault {s : State} {a : Addr} {f : Fault} (v : Byte) (hb : s.busy = false) (h : ramAccess a s = .error f) :
    exec (.ramWr v a) s = .fault f ∧ exec (.ramRd a) s = .fault f :=
  ⟨command_of_error hb (map_of_error h), query_of_error hb (map_of_error (ramRd_of_error h))⟩

/-! ## `USB_REINIT` -/

/-- The two groups of EP0 as `USB_REINIT` initialises them (R132). -/
def ep0Initialised (p : Params) : EpRegs := .initialised typeControl p.ep0Size false

/-- The state between the two `EP_INIT`s of `USB_REINIT` and its `EP_ARM` (R132). -/
def State.ep0Ready (s : State) : State :=
  ((clearAll s).setEp .OUT 0 (ep0Initialised s.par)).setEp .IN 0 (ep0Initialised s.par)

/-- What `USB_REINIT` leaves of a state (R132). -/
def State.reinit (s : State) : State :=
  s.ep0Ready.setEp .OUT 0
    ((ep0Initialised s.par).arm .b0 ((maxPkt0Operand s.par).setWidth 7) s.par.ep0OutBuf)

/-- `EP_INIT` writes no parameter. -/
theorem par_ep0Ready (s : State) : s.ep0Ready.par = s.par := by simp [State.ep0Ready]

/-- Both directions of EP0 are initialised, and every other one is off (R132). -/
theorem ep_ep0Ready (s : State) (d : Dir) (e : BitVec 4) :
    s.ep0Ready.ep d e = if e = 0 then ep0Initialised s.par else EpRegs.off := by
  rw [State.ep0Ready, ep_setEp, ep_setEp, ep_clearAll]
  cases d <;> simp

/-- Before the `EP_ARM` of `USB_REINIT` every bank is idle (R132). -/
theorem nack_ep0Ready (s : State) (d : Dir) (e : BitVec 4) (b : Bank) : (s.ep0Ready.ep d e).nack b = true := by
  rw [ep_ep0Ready]
  split
  · exact nack_initialised ..
  · exact nack_off b

/-- The `EP_ARM` of `USB_REINIT` has nothing to fault on: the packet fits the class, the buffer lies in `RAM`, and no
bank is armed (R6, R113, R132). -/
theorem epArm_ep0Ready {s : State} (hp : paramsLegal s.par) :
    epArm 0 .OUT .b0 (maxPkt0Operand s.par) s.par.ep0OutBuf s.ep0Ready = .ok s.reinit := by
  obtain ⟨htype, hsize, -, -⟩ := initialised_fields typeControl s.par.ep0Size false
  have out : s.ep0Ready.ep .OUT 0 = ep0Initialised s.par := ep_ep0Ready s .OUT 0
  have size := maxPkt0Operand_toNat s.par
  have packet := maxPkt_ge s.par.ep0Size
  obtain ⟨hep, -, -, -, -, -, hbuf, -⟩ := hp
  rw [maxPkt0] at size hbuf
  refine epArm_ok.2 ?_
  rw [out, par_ep0Ready, size]
  refine ⟨hep, by rw [ep0Initialised, htype]; decide, by simp, Nat.le_of_eq (congrArg maxPkt hsize.symm), by omega, hbuf,
    nack_initialised .., ?_, rfl⟩
  rw [← Bool.not_eq_true, hwOwns_iff_hardwareOwns]
  exact not_hardwareOwns_of_idle (nack_ep0Ready s) _ _

/-- With legal parameters `USB_REINIT` answers (R132). -/
theorem usbReinit_ok {s : State} (hp : paramsLegal s.par) : usbReinit s = .ok s.reinit :=
  bind_ok.2 ⟨_, epInit_ok.2 ⟨hp.1, by decide, by decide, rfl⟩,
    bind_ok.2 ⟨_, epInit_ok.2 ⟨hp.1, by decide, by decide, rfl⟩, epArm_ep0Ready hp⟩⟩

/-- EP0 OUT after `USB_REINIT`: armed with a whole packet (R132). -/
theorem ep_reinit_out (s : State) : s.reinit.ep .OUT 0 =
    (ep0Initialised s.par).arm .b0 ((maxPkt0Operand s.par).setWidth 7) s.par.ep0OutBuf := ep_setEp_same ..

/-- EP0 IN after `USB_REINIT`: initialised and idle (R132). -/
theorem ep_reinit_in (s : State) : s.reinit.ep .IN 0 = ep0Initialised s.par :=
  (ep_setEp_out_in ..).trans (ep_ep0Ready s .IN 0)

/-- Every other direction after `USB_REINIT`: off (R132). -/
theorem ep_reinit_other (s : State) (d : Dir) {e : BitVec 4} (h : e ≠ 0) : s.reinit.ep d e = EpRegs.off := by
  rw [State.reinit, ep_setEp_other _ _ _ _ _ _ fun k => h k.2, ep_ep0Ready, if_neg h]

/-- `USB_REINIT` leaves `RAM` alone, and all that is no register (R132). -/
theorem reinit_frame (s : State) : sameRam s s.reinit ∧ sameRest s s.reinit := by
  refine ⟨fun a => ?_, ?_⟩
  · simp [State.reinit, State.ep0Ready]
  · simp [State.reinit, State.ep0Ready, sameRest, sameLaunch, sameHidden, sameLatches, samePorts]

/-- What `USB_REINIT` clears (R132). -/
theorem reinit_cleared (s : State) :
    s.reinit.addr = 0 ∧ s.reinit.intflagsb = 0x00 ∧ s.reinit.ctlstate = 0x00 := by
  simp [State.reinit, State.ep0Ready, csIdle]

/-! ## `G_RD` -/

/-- `G_RD` looks at the number alone, so that each of its rows is the one of a literal (R37, R125). -/
theorem gRd_at {s : State} {reg : BitVec 4} {n : Nat} (h : reg.toNat = n) : gRd reg s = gRd (BitVec.ofNat 4 n) s := by
  rw [← h, BitVec.ofNat_toNat, BitVec.setWidth_eq]

/-- From 7 on there is no global register (R37, R125). -/
theorem gRd_of_ge {s : State} {reg : BitVec 4} (h : 7 ≤ reg.toNat) : gRd reg s = .error .cvReserved := by
  obtain ⟨n, hn⟩ := Nat.exists_eq_add_of_le' h
  rw [gRd, hn]
  rfl

/-! ## `GCTRL` -/

/-- The bits `INT_ENABLE` writes, and those it leaves (R131). -/
theorem intEnable_bits (busevie trnie : Bool) (s : State) :
    (intEnable busevie trnie s).gctrl.getLsbD 1 = busevie ∧ (intEnable busevie trnie s).gctrl.getLsbD 2 = trnie ∧
      sameBitsBut s.gctrl (intEnable busevie trnie s).gctrl [1, 2] := by
  refine ⟨?_, ?_, ?_⟩
  · cases busevie <;> cases trnie <;> simp [intEnable]
  · cases busevie <;> cases trnie <;> simp [intEnable]
  · have cleared := sameBitsBut_clear s.gctrl 0x06 [1, 2] (by decide)
    have first := cleared.trans (sameBitsBut_or _ (if busevie then 0x02 else 0x00) _ (by cases busevie <;> decide))
    exact first.trans (sameBitsBut_or _ (if trnie then 0x04 else 0x00) _ (by cases trnie <;> decide))

/-! ## The obligations -/

/-- Settles O25: what `State.reinit` holds of each group, and its frame. -/
theorem usbReinit_spec : Obligations.UsbReinit := by
  intro s hb hp
  obtain ⟨htype, hsize, hping, hstall⟩ := initialised_fields typeControl s.par.ep0Size false
  obtain ⟨addr, intflagsb, ctlstate⟩ := reinit_cleared s
  obtain ⟨ram, rest⟩ := reinit_frame s
  have count : ((maxPkt0Operand s.par).setWidth 7).toNat = maxPkt0 s.par := by
    rw [toNat_count (Nat.le_of_eq (maxPkt0Operand_toNat s.par)), maxPkt0Operand_toNat]
  refine ⟨s.reinit.give .none, command_of_ok hb (usbReinit_ok hp), rfl, ?_⟩
  simp only [give_fields]
  rw [ep_reinit_out, ep_reinit_in]
  refine ⟨?config, ?status, ⟨_, rfl, count⟩, rfl, rfl, rfl, rfl, banks_initialised _ _ _, ?others, addr, intflagsb,
    ctlstate, (usbReinit_calm (usbReinit_ok hp)).globals, ram, rest⟩
  case config =>
    intro d
    cases d
    · rw [ep_reinit_out]
      exact ⟨htype, hsize, hping, hstall, reserved_initialised ..⟩
    · rw [ep_reinit_in]
      exact ⟨htype, hsize, hping, hstall, reserved_initialised ..⟩
  case status =>
    rw [status_arm]
    exact (by decide : ((0x03 : Byte) &&& ~~~doneMask .b0) &&& ~~~nackMask .b0 = 0x02)
  case others =>
    intro d e h _
    rw [ep_reinit_other s d h]
    exact ⟨rfl, rfl, fun b => by cases b <;> exact ⟨rfl, rfl⟩⟩

/-- Settles O26: the two checks of `ramAccess`, and then one byte stored or read. -/
theorem ramAccess_spec : Obligations.RamAccess := by
  intro s v a hb
  split
  case isTrue beyond => exact ram_fault v hb (ramAccess_of_ge beyond)
  case isFalse inside =>
    refine ⟨fun owned => ram_fault v hb (ramAccess_of_owned inside owned), fun free => ?_⟩
    have access := ramAccess_of_free inside free
    refine ⟨⟨_, command_of_ok hb (map_of_ok access), rfl, ?written, fun x hx => ?kept, ?eps, ?globals, ?rest⟩,
      fun empty => ?novalue, fun x held => ?read⟩
    case written => exact (ramByte_setRamByte ..).trans (if_pos rfl)
    case kept => exact (ramByte_setRamByte ..).trans (if_neg fun h => hx (by omega))
    case eps => exact sameEps_of_regs rfl rfl
    case globals => simp [sameGlobalsBut]
    case rest => exact sameRest_refl s
    case novalue => exact query_of_error hb (map_of_error ((ramRd_of_ok access).trans (valueOf_none empty)))
    case read => exact query_gives hb (map_of_ok ((ramRd_of_ok access).trans (valueOf_ok.2 held)))

/-- Settles O22: one register a number, the setup record only where it has a value. -/
theorem globalRead : Obligations.GlobalRead := by
  intro s reg hb
  exact ⟨fun h => query_gives hb (gRd_at h), fun h => query_gives hb (gRd_at h), fun h => query_gives hb (gRd_at h),
    fun h => query_gives hb (gRd_at h), fun h => query_gives hb (gRd_at h),
    fun h empty => query_of_error hb ((gRd_at h).trans (valueOf_none empty)),
    fun h v held => query_gives hb ((gRd_at h).trans (valueOf_ok.2 held)),
    fun h => query_gives hb (gRd_at h), fun h => query_of_error hb (gRd_of_ge h)⟩

/-- Settles O23: the mask of `IFB_CLR` is cut to bits 1:0. -/
theorem flagClears : Obligations.FlagClears := by
  intro s mask hb
  have cut := getLsbD_and_low mask (low := 0x03) (n := 2) (by decide)
  refine ⟨⟨_, command_of_ok hb rfl, rfl, onlyGlobals_give (ifaClr_calm mask s), fun k => ?ifa⟩,
    ⟨_, command_of_ok hb rfl, rfl, onlyGlobals_give (ifbClr_calm mask s), fun k => ?ifb⟩⟩
  case ifa => exact getLsbD_clear ..
  case ifb => exact (getLsbD_clear ..).trans (by rw [cut])

/-- Settles O24: each writes one register, `ATTACH`, `DETACH` and `INT_ENABLE` some bits of it. -/
theorem globalWrites : Obligations.GlobalWrites := by
  intro s a v busevie trnie hb
  refine ⟨?setAddr, ?attach, ?detach, ?intEnable, ?nvmcmdWr⟩
  case setAddr => exact ⟨_, command_of_ok hb rfl, rfl, onlyGlobals_give (setAddr_calm a s), rfl⟩
  case attach =>
    exact ⟨_, command_of_ok hb rfl, rfl, onlyGlobals_give (attach_calm s), (getLsbD_or ..).trans (Bool.or_true _),
      sameBitsBut_or _ _ _ (by decide)⟩
  case detach =>
    exact ⟨_, command_of_ok hb rfl, rfl, onlyGlobals_give (detach_calm s),
      (getLsbD_clear s.gctrl 0x01 0).trans (Bool.and_false _), sameBitsBut_clear s.gctrl 0x01 _ (by decide)⟩
  case intEnable =>
    exact ⟨_, command_of_ok hb rfl, rfl, onlyGlobals_give (intEnable_calm busevie trnie s), intEnable_bits ..⟩
  case nvmcmdWr => exact ⟨_, command_of_ok hb rfl, rfl, onlyGlobals_give (nvmcmdWr_calm v s), rfl⟩

end Sys2Proof.Machine
end

section
/-! SUPPORT. How a bus event answers, test by test, and the two ways it can answer at the token filter (R140). -/
namespace Sys2Proof.Machine

/-! ## Tests -/

section
variable {x r : Except Fault State}

/-- One test of a transaction's list: where its condition holds the event ends in the state given, and where it does
not the rest decides (R143 to R145: the tests are made in the order of the rule). -/
theorem next_or_rest {y : State} {c P : Prop} [Decidable c] (hx : x = if c then .ok y else r)
    (rest : ¬c → x = r → P) : if c then outcomeOf x = .next y else P := by
  by_cases h : c
  · rw [if_pos h]
    exact congrArg outcomeOf (hx.trans (if_pos h))
  · rw [if_neg h]
    exact rest h (hx.trans (if_neg h))

/-- Two tests in a row with the same answer are one (R143). -/
theorem tests_with_one_answer {α : Type} {c c' : Prop} [Decidable c] [Decidable c'] (a b : α) :
    (if c then a else if c' then a else b) = if c ∨ c' then a else b := by
  by_cases h : c
  · rw [if_pos h, if_pos (.inl h)]
  by_cases h' : c'
  · rw [if_neg h, if_pos h', if_pos (.inr h')]
  · rw [if_neg h, if_neg h', if_neg (not_or.2 ⟨h, h'⟩)]

/-- The use of state that may hold no value: `CV_NOVALUE` where it holds none, and where it does the rest decides
(R47). -/
theorem novalue_or_rest {α : Type} {o : Option α} {k : α → Except Fault State} {P : α → Prop}
    (hx : x = valueOf o >>= k) (rest : ∀ v, o = some v → x = k v → P v) :
    (o = none → outcomeOf x = .fault .cvNovalue) ∧ ∀ v, o = some v → P v := by
  refine ⟨fun empty => ?_, fun v held => rest v held ?_⟩
  · rw [hx, valueOf_none empty]
    rfl
  · rw [hx, valueOf_ok.2 held]
    rfl

end

/-! ## The token filter -/

section
variable {s : State} {d : Dir} {e : BitVec 4}

/-- A transaction passes the filter when attached, at the device's address, for an initialised direction of an existing
endpoint (R140). -/
theorem not_filtered (ha : s.gctrl.getLsbD 0 = true) (he : e.toNat < s.par.nEp)
    (ht : (s.ep d e).type ≠ typeDisabled) : ¬s.filtered d e s.addr = true := by
  rw [filtered_iff]
  rintro (detached | elsewhere | beyond | disabled)
  · exact absurd (ha.symm.trans detached) (by decide)
  · exact elsewhere rfl
  · exact Nat.not_lt.2 beyond he
  · exact ht disabled

/-- The filter in the two parts of the statement: what no direction passes, and a `DISABLED` one (R140). -/
theorem filtered_of_away {a : BitVec 7}
    (h : (s.gctrl.getLsbD 0 = false ∨ a ≠ s.addr ∨ s.par.nEp ≤ e.toNat) ∨ (s.ep d e).type = typeDisabled) :
    s.filtered d e a = true := filtered_iff.2 (by simpa only [or_assoc] using h)

end

section
variable {s : State} {flag : Byte}

/-- Detached, a bus condition is ignored (R140). -/
theorem condition_detached (h : s.gctrl.getLsbD 0 = false) : s.condition flag = s.respond .none :=
  if_neg (Bool.eq_false_iff.1 h)

/-- Attached, a bus condition sets its flag (R146 to R150). -/
theorem condition_attached (h : s.gctrl.getLsbD 0 = true) : s.condition flag = (s.raiseA flag).respond .none := if_pos h

end

/-- What the five bus conditions are, and the bit each one sets (R32, R146 to R150). -/
theorem exec_busCondition {i : Instr} {bit : Nat}
    (h : (i = .busSof ∧ bit = 0) ∨ (i = .busCrcerr ∧ bit = 1) ∨ (i = .busSuspend ∧ bit = 5) ∨
      (i = .busResume ∧ bit = 6) ∨ (i = .busReset ∧ bit = 7)) :
    ∃ flag : Byte, flag.getLsbD bit = true ∧ (∀ k, k < 8 → k ∉ [bit] → flag.getLsbD k = false) ∧
      ∀ s, exec i s = .next (s.condition flag) := by
  rcases h with ⟨rfl, rfl⟩ | ⟨rfl, rfl⟩ | ⟨rfl, rfl⟩ | ⟨rfl, rfl⟩ | ⟨rfl, rfl⟩
  · exact ⟨sofif, by decide, by decide, fun _ => rfl⟩
  · exact ⟨crcif, by decide, by decide, fun _ => rfl⟩
  · exact ⟨suspendif, by decide, by decide, fun _ => rfl⟩
  · exact ⟨resumeif, by decide, by decide, fun _ => rfl⟩
  · exact ⟨rstif, by decide, by decide, fun _ => rfl⟩

/-- Settles O40: attached, each condition is `raiseA` of its one flag. -/
theorem busConditions : Obligations.BusConditions := by
  intro s ha i bit h
  obtain ⟨flag, set, others, hexec⟩ := exec_busCondition h
  refine ⟨_, (hexec s).trans (congrArg _ (condition_attached ha)), rfl, ?_, sameBitsBut_or _ flag _ others,
    sameEps_of_regs rfl rfl, fun _ => rfl, ((raiseA_calm s flag).trans (give_calm _ _)).globals, sameRest_refl s⟩
  exact (getLsbD_or ..).trans (by rw [set, Bool.or_true])

/-- Settles O36: the filter is the first test of each transaction, and attachment the only one of a condition. -/
theorem tokenFilter : Obligations.TokenFilter := by
  intro s e a payload hack
  refine ⟨fun away => ?setupOrOut, fun away => ?input, fun detached => ?detached, fun ha i bit h => ?attached⟩
  case setupOrOut =>
    have filtered := filtered_of_away away
    exact ⟨congrArg outcomeOf (if_pos filtered), congrArg outcomeOf (if_pos filtered)⟩
  case input => exact congrArg outcomeOf (if_pos (filtered_of_away away))
  case detached =>
    have ignored (flag : Byte) : Host.Outcome.next (s.condition flag) =
        (.next (s.respond .none) : Host.Outcome State Fault Refusal) := congrArg _ (condition_detached detached)
    exact ⟨ignored _, ignored _, ignored _, ignored _, ignored _⟩
  case attached =>
    obtain ⟨t, hexec, -, set, -⟩ := busConditions s ha i bit h
    exact ⟨t, hexec, set⟩

end Sys2Proof.Machine
end

section
/-! SUPPORT. The transactions past the filter (R143 to R145): what an accepted one leaves in the groups, in `RAM` and in
everything else. -/
namespace Sys2Proof.Machine

/-! ## Groups -/

/-- The halt withdrawn by an accepted SETUP (R143). -/
theorem halt_cleared {x y : EpRegs} (h : y.ctrl = x.ctrl &&& ~~~0x20) :
    y.stall = false ∧ sameBitsBut x.ctrl y.ctrl [5] := by
  rw [EpRegs.stall, h]
  exact ⟨(getLsbD_clear ..).trans (Bool.and_false _), sameBitsBut_clear _ _ _ (by decide)⟩

/-- The flags an accepted SETUP sets in the OUT direction (R143). -/
theorem setupAccepted_flags (x : EpRegs) (f : Bool) :
    (x.setupAccepted f).nack .b0 = true ∧ (x.setupAccepted f).setup = true ∧
    (x.setupAccepted f).done .b0 = (x.done .b0 || f) ∧ sameBitsBut x.status (x.setupAccepted f).status [0, 2, 4] := by
  obtain ⟨-, -, -, -, status⟩ := setupAccepted_fields x f
  simp only [nack_eq, done_eq, EpRegs.setup, status, getLsbD_or]
  cases f
  · exact ⟨Bool.or_true _, Bool.or_true _, rfl, sameBitsBut_or _ _ _ (by decide)⟩
  · exact ⟨Bool.or_true _, Bool.or_true _, rfl, sameBitsBut_or _ _ _ (by decide)⟩

/-- An accepted SETUP withdraws bank 0 of the IN direction (R143). -/
theorem setupWithdrawn_flags (x : EpRegs) :
    x.setupWithdrawn.nack .b0 = true ∧ sameBitsBut x.status x.setupWithdrawn.status [0] := by
  obtain ⟨-, -, -, status⟩ := setupWithdrawn_fields x
  rw [nack_eq, status, getLsbD_or]
  exact ⟨Bool.or_true _, sameBitsBut_or _ _ _ (by decide)⟩

/-- A bank that received `n` bytes, completed (R142, R144). -/
def EpRegs.received (x : EpRegs) (b : Bank) (n : Nat) : EpRegs := (x.setCnt b (BitVec.ofNat 7 n)).completed b

/-- Receiving writes the count, and of the rest only `STATUS` (R144). -/
theorem received_fields (x : EpRegs) (b : Bank) (n : Nat) :
    (x.received b n).ctrl = x.ctrl ∧ (x.received b n).cnt b = some (BitVec.ofNat 7 n) ∧
    (∀ b', b' ≠ b → (x.received b n).cnt b' = x.cnt b') ∧ ∀ b', (x.received b n).ptr b' = x.ptr b' := by
  obtain ⟨ctrl, -, cnt, others, ptr⟩ := setCnt_fields x b (BitVec.ofNat 7 n)
  obtain ⟨ctrl', banks⟩ := completed_fields (x.setCnt b (BitVec.ofNat 7 n)) b
  exact ⟨ctrl'.trans ctrl, (banks b).1.trans cnt, fun b' hb => (banks b').1.trans (others b' hb),
    fun b' => (banks b').2.trans (ptr b')⟩

/-- The completion does not look at the count (R142). -/
theorem completedStatus_received (x : EpRegs) (b : Bank) (n : Nat) : completedStatus x (x.received b n) b := by
  have h := completedStatus_completed (x.setCnt b (BitVec.ofNat 7 n)) b
  cases b <;> exact h

/-- A length that fits the armed count fits the 7 bits of `CNT` (R24). -/
theorem toNat_received {c : BitVec 7} {n : Nat} (h : n ≤ c.toNat) : (BitVec.ofNat 7 n).toNat = n := by
  rw [BitVec.toNat_ofNat, Nat.mod_eq_of_lt (Nat.lt_of_le_of_lt h c.isLt)]

/-! ## Memory -/

/-- A range inside `RAM` can be written (R61). -/
theorem memWrite_of_le {s : State} {a : Nat} {vs : List Byte} (h : a + vs.length ≤ 2 ^ s.par.addrW) :
    memWrite s a vs = .ok (s.setRamBytes a vs) := memWrite_ok.2 ⟨.inr h, rfl⟩

/-- Bytes stored are read where they lie (R63). -/
theorem ramByte_stored (s : State) (a : Nat) (vs : List Byte) {k : Nat} (h : k < vs.length) :
    (s.setRamBytes a vs).ramByte (a + k) = vs[k]? := by
  rw [ramByte_setRamBytes, if_pos ⟨Nat.le_add_right a k, Nat.add_lt_add_left h a⟩, Nat.add_sub_cancel_left]

/-- A range inside `RAM` with a byte that has no value cannot be read (R47). -/
theorem memRead_novalue {s : State} {a n : Nat} (h : a + n ≤ 2 ^ s.par.addrW)
    (empty : ∃ k, k < n ∧ s.ramByte (a + k) = none) : memRead s a n = .error .cvNovalue := by
  rw [memRead, if_neg fun beyond => Nat.not_lt.2 h beyond.2, ramBytes_none empty]

/-- A range inside `RAM` whose every byte has a value is read byte by byte (R9, R63). -/
theorem memRead_of_le {s : State} {a n : Nat} (h : a + n ≤ 2 ^ s.par.addrW)
    (held : ∀ k, k < n → s.ramByte (a + k) ≠ none) :
    ∃ bytes, memRead s a n = .ok bytes ∧ bytes.length = n ∧ ∀ k, k < n → s.ramByte (a + k) = bytes[k]? := by
  obtain ⟨bytes, hb⟩ := ramBytes_total fun k hk => Option.isSome_iff_ne_none.2 (held k hk)
  exact ⟨bytes, memRead_ok.2 ⟨.inr h, hb⟩, ramBytes_some hb⟩

/-! ## States -/

/-- A group written twice holds the second value. -/
theorem setEp_setEp (s : State) (d : Dir) (e : BitVec 4) (x y : EpRegs) :
    (s.setEp d e x).setEp d e y = s.setEp d e y := by
  cases d <;> simp [State.setEp]

/-- The completion of a bank whose group was just written (R142). -/
theorem complete_setEp (s : State) (d : Dir) (e : BitVec 4) (x : EpRegs) (b : Bank) :
    (s.setEp d e x).complete d e b = (s.setEp d e (x.completed b)).raiseB trnif := by
  rw [State.complete, ep_setEp_same, setEp_setEp]

section
variable (s : State) (e : BitVec 4) (b : Bank) (buf : Addr) (p : List Byte)

/-- The groups after an accepted SETUP (R143). -/
theorem ep_setupTaken (d : Dir) : (s.setupTaken e buf p).ep d e =
    match d with
    | .OUT => (s.ep .OUT e).setupAccepted s.par.setupSetsDone0
    | .IN => (s.ep .IN e).setupWithdrawn := by
  cases d <;> simp [State.setupTaken]

/-- An accepted SETUP writes no other endpoint's groups (R143). -/
theorem ep_setupTaken_other (d : Dir) {e' : BitVec 4} (h : e' ≠ e) : (s.setupTaken e buf p).ep d e' = s.ep d e' := by
  simp [State.setupTaken, ep_setEp, h]

/-- `RAM` after an accepted SETUP (R143). -/
theorem ramByte_setupTaken (a : Nat) : (s.setupTaken e buf p).ramByte a = (s.setRamBytes buf.toNat p).ramByte a := by
  simp [State.setupTaken]

/-- An accepted SETUP leaves hidden state, the trace, the ports and what is fixed at launch alone (R143). -/
theorem sameRest_setupTaken : sameRest s (s.setupTaken e buf p) := by
  simp [State.setupTaken, sameRest, sameLaunch, sameHidden, sameLatches, samePorts]

/-- The groups after an accepted OUT transaction (R144). -/
theorem ep_outTaken (d : Dir) (e' : BitVec 4) : (s.outTaken e b buf p).ep d e' =
    if d = .OUT ∧ e' = e then (s.ep .OUT e).received b p.length else s.ep d e' := by
  simp [State.outTaken, EpRegs.received, ep_setEp]

/-- `RAM` after an accepted OUT transaction (R144). -/
theorem ramByte_outTaken (a : Nat) : (s.outTaken e b buf p).ramByte a = (s.setRamBytes buf.toNat p).ramByte a := by
  simp [State.outTaken]

/-- An accepted OUT transaction leaves hidden state, the trace, the ports and what is fixed at launch alone (R144). -/
theorem sameRest_outTaken : sameRest s (s.outTaken e b buf p) := by
  simp [State.outTaken, sameRest, sameLaunch, sameHidden, sameLatches, samePorts]

/-- The groups after a completion (R142). -/
theorem ep_complete (d d' : Dir) (e' : BitVec 4) : (s.complete d e b).ep d' e' =
    if d' = d ∧ e' = e then (s.ep d e).completed b else s.ep d' e' := by
  simp [State.complete, ep_setEp]

/-- A completion leaves `RAM`, hidden state, the trace, the ports and what is fixed at launch alone (R142). -/
theorem complete_frame (d : Dir) : sameRam s (s.complete d e b) ∧ sameRest s (s.complete d e b) := by
  simp [State.complete, sameRam, sameRest, sameLaunch, sameHidden, sameLatches, samePorts]

end

/-! ## The obligations -/

/-- Settles O37: the tests one after the other, and then what `State.setupTaken` holds. -/
theorem busSetup_spec : Obligations.BusSetup := by
  intro s e payload ha he ht
  have hx := (if_neg (not_filtered ha he ht) : busSetup e s.addr payload s = _)
  refine next_or_rest (hx.trans (tests_with_one_answer ..)) fun legal hr => ?_
  obtain ⟨-, hlen⟩ := not_or.1 legal
  have length : payload.length = 8 := Decidable.not_not.1 hlen
  refine next_or_rest hr fun _ hr => novalue_or_rest hr fun c hc hr => ?_
  refine next_or_rest hr fun fits hr => novalue_or_rest hr fun buf hbuf hr => fun inside => ?_
  have taken : busSetup e s.addr payload s = .ok (s.setupTaken e buf payload) := by
    rw [hr, memWrite_of_le (by rwa [length])]
    rfl
  obtain ⟨ctrlOut, count, count1, ptrOut, -⟩ := setupAccepted_fields (s.ep .OUT e) s.par.setupSetsDone0
  obtain ⟨nackOut, setup, done, statusOut⟩ := setupAccepted_flags (s.ep .OUT e) s.par.setupSetsDone0
  obtain ⟨ctrlIn, cntIn, ptrIn, -⟩ := setupWithdrawn_fields (s.ep .IN e)
  obtain ⟨nackIn, statusIn⟩ := setupWithdrawn_flags (s.ep .IN e)
  have groupOut := ep_setupTaken s e buf payload .OUT
  have groupIn := ep_setupTaken s e buf payload .IN
  refine ⟨_, congrArg outcomeOf taken, rfl, fun k hk => ?stored, fun x hx => ?kept, ?_⟩
  case stored => rw [ramByte_setupTaken, ramByte_stored _ _ _ (by rwa [length])]
  case kept => rw [ramByte_setupTaken, setRamBytes_frame _ _ _ x (by rwa [length])]
  rw [groupOut, groupIn]
  refine ⟨⟨_, count, rfl⟩, count1, ptrOut, nackOut, setup, done, statusOut, fun d => ?halts, nackIn, statusIn,
    fun b => ⟨cntIn b, ptrIn b⟩, fun d e' h => ep_setupTaken_other s e buf payload d h, ?flags, ?globals,
    sameRest_setupTaken s e buf payload⟩
  case halts =>
    cases d
    · exact halt_cleared (groupOut ▸ ctrlOut)
    · exact halt_cleared (groupIn ▸ ctrlIn)
  case flags => simp [State.setupTaken, setupif]
  case globals => exact (setupTaken_calm length hc (Nat.not_lt.1 fits) hbuf inside).globals

/-- Settles O38: the tests one after the other, and then what `State.outTaken` holds. -/
theorem busOut_spec : Obligations.BusOut := by
  intro s e payload ha he ht
  simp only [← sel_eq]
  have hx := (if_neg (not_filtered ha he ht) : busOut e s.addr payload s = _)
  refine next_or_rest hx fun _ hr => next_or_rest hr fun _ hr => novalue_or_rest hr fun c hc hr => ?_
  refine next_or_rest hr fun long hr => novalue_or_rest hr fun buf _ hr => fun inside => ?_
  have fits := Nat.not_lt.1 long
  have taken : busOut e s.addr payload s = .ok (s.outTaken e (s.ep .OUT e).sel buf payload) := by
    rw [hr, memWrite_of_le inside]
    exact congrArg (fun t : State => Except.ok (t.respond .ack)) (complete_setEp ..)
  obtain ⟨ctrl, count, counts, ptr⟩ := received_fields (s.ep .OUT e) (s.ep .OUT e).sel payload.length
  refine ⟨_, congrArg outcomeOf taken, rfl, fun k hk => ?stored, fun x hx => ?kept, ?_⟩
  case stored => rw [ramByte_outTaken, ramByte_stored _ _ _ hk]
  case kept => rw [ramByte_outTaken, setRamBytes_frame _ _ _ x hx]
  rw [ep_outTaken, if_pos ⟨rfl, rfl⟩]
  refine ⟨⟨_, count, toNat_received fits⟩, counts, ptr, ctrl, completedStatus_received .., fun d' e' h => ?others,
    ?flags, (outTaken_calm hc fits (.inr inside)).globals, sameRest_outTaken ..⟩
  case others => rw [ep_outTaken, if_neg h]
  case flags => simp [State.outTaken, trnif]

/-- Settles O39: the tests one after the other, the bytes of the bank, and the completion or nothing. -/
theorem busIn_spec : Obligations.BusIn := by
  intro s e hack ha he ht
  simp only [← sel_eq]
  have hx := (if_neg (not_filtered ha he ht) : busIn e hack s.addr s = _)
  refine next_or_rest hx fun _ hr => next_or_rest hr fun _ hr => ?_
  obtain ⟨nocount, counted⟩ := novalue_or_rest hr fun n _ hr => novalue_or_rest hr fun buf _ hr => hr
  refine ⟨fun empty => ?novalue, fun n buf hn hbuf inside => ?_⟩
  case novalue =>
    rcases hn : (s.ep .IN e).cnt (s.ep .IN e).sel with _ | n
    · exact nocount hn
    · exact (counted n hn).1 (empty.resolve_left (by simp [hn]))
  have read := (counted n hn).2 buf hbuf
  refine ⟨fun empty => ?unread, fun held => ?served⟩
  case unread =>
    rw [memRead_novalue inside empty] at read
    exact congrArg outcomeOf read
  case served =>
    obtain ⟨bytes, hb, length, each⟩ := memRead_of_le inside held
    rw [hb] at read
    refine ⟨_, bytes, congrArg outcomeOf read, rfl, length, each, ?_⟩
    cases hack with
    | false =>
      exact ⟨⟨rfl, fun _ => ⟨rfl, rfl⟩⟩, fun _ _ _ => rfl, fun _ => rfl, sameRest_refl s, rfl,
        (give_calm s _).globals⟩
    | true =>
      obtain ⟨ram, rest⟩ := complete_frame s e (s.ep .IN e).sel .IN
      have groups := ep_complete s e (s.ep .IN e).sel .IN
      have served := (groups .IN e).trans (if_pos ⟨rfl, rfl⟩)
      refine ⟨served ▸ completed_fields .., fun d' e' h => (groups d' e').trans (if_neg h), ram, rest,
        served ▸ completedStatus_completed .., ?flags, ((complete_calm ..).trans (give_calm ..)).globals⟩
      case flags => simp [State.complete, trnif]

end Sys2Proof.Machine
end

section
/-! SUPPORT. What hardware never does (R153): the flags a bus event keeps, the halts it can withdraw, and the bytes it
can write, each read off `busEvent_cases`. -/
namespace Sys2Proof.Machine

/-! ## Flags -/

/-- `y` has every `NACK`, `DONE` and `SETUP` flag of `x`. -/
structure EpRegs.FlagsKept (x y : EpRegs) : Prop where
  nack : ∀ b, x.nack b = true → y.nack b = true
  done : ∀ b, x.done b = true → y.done b = true
  setup : x.setup = true → y.setup = true

theorem flagsKept_refl (x : EpRegs) : x.FlagsKept x := ⟨fun _ => id, fun _ => id, id⟩

/-- Setting bits clears none. -/
theorem getLsbD_or_of_set {x : Byte} (m : Byte) {k : Nat} (h : x.getLsbD k = true) : (x ||| m).getLsbD k = true := by
  rw [getLsbD_or, h, Bool.true_or]

/-- A group whose `STATUS` had bits set keeps its flags (R23). -/
theorem flagsKept_of_or {x y : EpRegs} {m : Byte} (h : y.status = x.status ||| m) : x.FlagsKept y where
  nack b hb := by
    rw [nack_eq] at hb ⊢
    exact h ▸ getLsbD_or_of_set m hb
  done b hb := by
    rw [done_eq] at hb ⊢
    exact h ▸ getLsbD_or_of_set m hb
  setup hs := by
    rw [EpRegs.setup, h]
    exact getLsbD_or_of_set m hs

theorem flagsKept_completed (x : EpRegs) (b : Bank) : x.FlagsKept (x.completed b) where
  nack b' := (completed_mono x b b').1
  done b' := (completed_mono x b b').2.1
  setup := (completed_mono x b b).2.2

/-- The completion does not look at the count (R142). -/
theorem flagsKept_received (x : EpRegs) (b : Bank) (n : Nat) : x.FlagsKept (x.received b n) := by
  have h := flagsKept_completed (x.setCnt b (BitVec.ofNat 7 n)) b
  cases b <;> exact ⟨h.nack, h.done, h.setup⟩

/-! ## Bus events -/

section
variable {i : Instr} {s t : State}

/-- A bus event clears no flag of a group, and writes `CTRL` only to withdraw a halt at an accepted SETUP (R142 to
R145, R153). -/
theorem busEvent_ep (hi : isBusEvent i = true) (h : exec i s = .next t) (d : Dir) (e : BitVec 4) :
    (s.ep d e).FlagsKept (t.ep d e) ∧
    ((t.ep d e).ctrl = (s.ep d e).ctrl ∨
      ((t.ep d e).ctrl = (s.ep d e).ctrl &&& ~~~0x20 ∧ t.out = .response .ack ∧ ∃ a p, i = .busSetup e a p)) := by
  rcases busEvent_cases hi h with ⟨r, rfl⟩ | ⟨m, r, -, -, rfl⟩ | ⟨e', a, p, c, buf, rfl, -, -, -, -, -, -, -, -, rfl⟩ |
    ⟨e', a, p, b, c, buf, -, -, -, -, -, -, -, -, rfl⟩ | ⟨e', a, b, bytes, -, -, -, -, rfl⟩
  · exact ⟨flagsKept_refl _, .inl rfl⟩
  · exact ⟨flagsKept_refl _, .inl rfl⟩
  · by_cases he : e = e'
    · subst he
      rw [ep_setupTaken]
      cases d with
      | OUT =>
        obtain ⟨ctrl, -, -, -, status⟩ := setupAccepted_fields (s.ep .OUT e) s.par.setupSetsDone0
        exact ⟨flagsKept_of_or status, .inr ⟨ctrl, rfl, a, p, rfl⟩⟩
      | IN =>
        obtain ⟨ctrl, -, -, status⟩ := setupWithdrawn_fields (s.ep .IN e)
        exact ⟨flagsKept_of_or status, .inr ⟨ctrl, rfl, a, p, rfl⟩⟩
    · rw [ep_setupTaken_other _ _ _ _ _ he]
      exact ⟨flagsKept_refl _, .inl rfl⟩
  · rw [ep_outTaken]
    split
    case isTrue served =>
      obtain ⟨rfl, rfl⟩ := served
      exact ⟨flagsKept_received .., .inl (received_fields ..).1⟩
    case isFalse => exact ⟨flagsKept_refl _, .inl rfl⟩
  · have group : ((s.complete .IN e' b).respond (.data bytes)).ep d e = _ := ep_complete s e' b .IN d e
    rw [group]
    split
    case isTrue served =>
      obtain ⟨rfl, rfl⟩ := served
      exact ⟨flagsKept_completed .., .inl (completed_fields ..).1⟩
    case isFalse => exact ⟨flagsKept_refl _, .inl rfl⟩

/-- A bus event only sets flags of the global registers (R142 to R153). -/
theorem busEvent_flags (hi : isBusEvent i = true) (h : exec i s = .next t) (k : Nat) :
    (s.intflagsa.getLsbD k = true → t.intflagsa.getLsbD k = true) ∧
    (s.intflagsb.getLsbD k = true → t.intflagsb.getLsbD k = true) := by
  rcases busEvent_cases hi h with ⟨r, rfl⟩ | ⟨m, r, -, -, rfl⟩ | ⟨e, a, p, c, buf, -, -, -, -, -, -, -, -, -, rfl⟩ |
    ⟨e, a, p, b, c, buf, -, -, -, -, -, -, -, -, rfl⟩ | ⟨e, a, b, bytes, -, -, -, -, rfl⟩
  · exact ⟨id, id⟩
  · exact ⟨getLsbD_or_of_set m, id⟩
  · simp +contextual [State.setupTaken]
  · simp +contextual [State.outTaken]
  · simp +contextual [State.complete]

/-- Bytes stored from the reference of an armed bank on, no more than its count, change only what the bank owns
(R27). -/
theorem bankOwns_of_stored {d : Dir} {e : BitVec 4} {b : Bank} {c : BitVec 7} {buf : Addr} {p : List Byte} {x : Nat}
    (he : e.toNat < s.par.nEp) (armed : (s.ep d e).nack b = false) (hc : (s.ep d e).cnt b = some c)
    (hb : (s.ep d e).ptr b = some buf) (fits : p.length ≤ c.toNat)
    (changed : (s.setRamBytes buf.toNat p).ramByte x ≠ s.ramByte x) : bankOwns s d e b x := by
  obtain ⟨low, high⟩ := Decidable.not_imp_symm (setRamBytes_frame s buf.toNat p x) changed
  exact ⟨he, armed, buf, c, hb, hc, low, by omega⟩

/-- A bus event writes only bytes of the armed bank it serves (R143, R144, R153). -/
theorem busEvent_ram (hi : isBusEvent i = true) (h : exec i s = .next t) {x : Nat}
    (changed : t.ramByte x ≠ s.ramByte x) : ∃ e b a p, bankOwns s .OUT e b x ∧
      ((i = .busSetup e a p ∧ b = .b0) ∨ (i = .busOut e a p ∧ b = (s.ep .OUT e).sel)) := by
  rcases busEvent_cases hi h with ⟨r, rfl⟩ | ⟨m, r, -, -, rfl⟩ |
    ⟨e, a, p, c, buf, rfl, he, -, length, armed, hc, h8, hb, -, rfl⟩ |
    ⟨e, a, p, b, c, buf, rfl, rfl, he, armed, hc, fits, hb, -, rfl⟩ | ⟨e, a, b, bytes, -, -, -, -, rfl⟩
  · exact absurd rfl changed
  · exact absurd rfl changed
  · rw [ramByte_setupTaken] at changed
    exact ⟨e, .b0, a, p, bankOwns_of_stored he armed hc hb (by omega) changed, .inl ⟨rfl, rfl⟩⟩
  · rw [ramByte_outTaken] at changed
    exact ⟨e, _, a, p, bankOwns_of_stored he armed hc hb fits changed, .inr ⟨rfl, rfl⟩⟩
  · exact absurd ((complete_frame s e b .IN).1 x) changed

end

/-- Settles O41: what a bus event does to the groups, the flags, `RAM` and the other global registers. -/
theorem hardwareNever : Obligations.HardwareNever := by
  intro i s t hi h
  have groups := busEvent_ep hi h
  have flags := busEvent_flags hi h
  obtain ⟨-, addr, -, -, ctlstate, setuprec, -⟩ := (busEvent_calm hi h).globals
  refine ⟨fun d e => (groups d e).1.done, fun d e => (groups d e).1.setup, fun d e => (groups d e).1.nack,
    fun k => (flags k).1, fun k => (flags k).2, fun d e => ?bits, fun d e => ?halt, addr (by decide),
    ctlstate (by decide), setuprec (by decide), fun x => busEvent_ram hi h⟩
  case bits =>
    rcases (groups d e).2 with same | ⟨cleared, -⟩
    · exact fun k _ => congrArg (BitVec.getLsbD · k) same
    · exact (halt_cleared cleared).2
  case halt =>
    exact (groups d e).2.imp id fun ⟨cleared, ack, setup⟩ => ⟨(halt_cleared cleared).1, ack, setup⟩

end Sys2Proof.Machine
end

section
/-! SUPPORT. How a handler starts (R170, R179, R259): at its turn or by an injected word; and that while one runs no
word but a bus event is taken. -/
namespace Sys2Proof.Machine

/-- A handler runs. -/
theorem busy_eq_true {s : State} : s.busy = true ↔ s.hRun ≠ .none := by
  simp [State.busy]

/-- The request line of the bus-event handler (R44). -/
theorem irqBusev_iff {s : State} : s.irqBusev = true ↔ s.gctrl.getLsbD 1 = true ∧ s.intflagsa ≠ 0 := by
  simp [State.irqBusev]

/-- The request line of the transaction-complete handler (R44). -/
theorem irqTrn_iff {s : State} : s.irqTrn = true ↔ s.gctrl.getLsbD 2 = true ∧ s.intflagsb ≠ 0 := by
  simp [State.irqTrn]

/-- The start turn of the bus-event handler (R170). -/
theorem runAgent_startBus (s : State) :
    runAgent .startBus s = .next (if s.irqBusev && !s.busy then s.startHandler .hbus else s) := rfl

/-- The start turn of the transaction-complete handler (R170). -/
theorem runAgent_startTrn (s : State) :
    runAgent .startTrn s = .next (if s.irqTrn && !s.busy then s.startHandler .htrn else s) := rfl

/-- At a start turn the handler starts when its request line is true and none runs, and otherwise nothing happens
(R170). -/
theorem runTurn_start {s : State} {a : Agent} {h : HRun} {line : Bool} {irq : Prop}
    (ha : runAgent a s = .next (if line && !s.busy then s.startHandler h else s)) (hl : line = true ↔ irq) :
    (irq ∧ s.hRun = .none → runTurn (.agent a) s = .next (s.startHandler h)) ∧
    (¬(irq ∧ s.hRun = .none) → runTurn (.agent a) s = .next s) := by
  have starts : (line && !s.busy) = true ↔ irq ∧ s.hRun = .none := by
    rw [Bool.and_eq_true, Bool.not_eq_true', hl, busy_eq_false]
  exact ⟨fun hc => ha.trans (congrArg _ (if_pos (starts.2 hc))),
    fun hc => ha.trans (congrArg _ (if_neg (mt starts.1 hc)))⟩

/-- Settles O9: the two start turns are alike, each with its own request line. -/
theorem handlersStart : Obligations.HandlersStart := by
  rintro s ts a h ht (⟨rfl, rfl⟩ | ⟨rfl, rfl⟩)
  · rw [step_of_turns ht, if_pos rfl]
    exact runTurn_start (runAgent_startBus { s with turns := ts, tick := s.tick + 1 }) irqBusev_iff
  · rw [step_of_turns ht, if_neg (by decide)]
    exact runTurn_start (runAgent_startTrn { s with turns := ts, tick := s.tick + 1 }) irqTrn_iff

/-- Settles O10: every word but a bus event is taken only while no handler runs. -/
theorem contextFault : Obligations.ContextFault := by
  intro i s hi hr
  have busy : s.busy = true := busy_eq_true.2 hr
  cases i with
  | busSetup | busOut | busIn | busSof | busReset | busSuspend | busResume | busCrcerr => cases hi
  | _ => exact whenIdle_busy busy

/-- Settles O43: both words are the start of their handler, which writes `H.RUN` and `H.STEP`. -/
theorem serviceStarts : Obligations.ServiceStarts := by
  intro i h s hb hi
  have starts : exec i s = .next ((s.startHandler h).give .none) := by
    rcases hi with ⟨rfl, rfl⟩ | ⟨rfl, rfl⟩
    · exact command_of_ok hb rfl
    · exact command_of_ok hb rfl
  refine ⟨_, starts, rfl, rfl, rfl, rfl, ?_⟩
  simp [sameLatches, sameEps, sameRam, sameGlobalsBut, sameLaunch, samePorts]

end Sys2Proof.Machine
end

section
/-! SUPPORT. The bus-event handler (R171 to R175): what each of its three micro-steps does. -/
namespace Sys2Proof.Machine

/-! ## The groups -/

/-- The bits of `INTFLAGSA` a group clears (R172 to R175). -/
def Group.mask (fa : Byte) : Group → Byte
  | .sof => 0x01
  | .error => fa &&& 0x0E
  | .stall => 0x10
  | .power => fa &&& 0xE0
  | .nothing => 0x00

/-- What a group notes (R172 to R175). -/
def Group.notes (fa : Byte) : Group → List Note
  | .sof => [.sof]
  | .error => [.busErr (fa &&& 0x0E)]
  | .stall => [.stallSent]
  | .power => [.pwr (fa &&& 0xE0)]
  | .nothing => []

/-- The state with the group's flags cleared and its note made (R172 to R175). -/
def State.groupServed (s : State) (fa : Byte) (g : Group) : State :=
  { ifaClr (g.mask fa) s with trace := s.trace ++ g.notes fa }

/-- Clearing no bit of a byte changes nothing. -/
theorem clear_zero (x : Byte) : x &&& ~~~0x00 = x := BitVec.and_allOnes

/-- Clearing no flag and noting nothing changes nothing. -/
theorem groupServed_nothing (s : State) (fa : Byte) : s.groupServed fa .nothing = s := by
  simp only [State.groupServed, Group.mask, Group.notes, ifaClr, clear_zero, List.append_nil]

/-- Serving a group writes `INTFLAGSA` and the trace (R172 to R175). -/
theorem groupServed_frame (s : State) (fa : Byte) (g : Group) :
    sameEps s (s.groupServed fa g) ∧ sameRam s (s.groupServed fa g) ∧ sameGlobalsBut s (s.groupServed fa g) [2] ∧
    sameLaunch s (s.groupServed fa g) ∧ samePorts s (s.groupServed fa g) ∧ (s.groupServed fa g).disp = s.disp :=
  ⟨fun _ _ => rfl, fun _ => rfl, (ifaClr_calm (g.mask fa) s).globals, ⟨rfl, rfl, rfl⟩, ⟨rfl, rfl, rfl, rfl⟩, rfl⟩

/-- A group 4 with `RSTIF` (R175): a bus reset, whose reinitialisation is still to come. -/
abbrev resetConfirmed (fa : Byte) : Prop := firstGroup fa = .power ∧ fa.getLsbD 7 = true

/-- B2 serves the first group set in the reading, and ends the handler unless a reset is confirmed (R171 to R175). -/
theorem serveGroup_eq (fa : Byte) (s : State) :
    serveGroup fa s =
      if resetConfirmed fa then (s.groupServed fa (firstGroup fa)).atStep 2
      else (s.groupServed fa (firstGroup fa)).endHandler := by
  unfold serveGroup resetConfirmed
  cases firstGroup fa with
  | sof | error | stall => rfl
  | nothing => rw [groupServed_nothing]; rfl
  | power => simp only [true_and]; rfl

/-- What B2 writes, and what it leaves (R171 to R175). -/
theorem serveGroup_frame (fa : Byte) (s : State) :
    (serveGroup fa s).intflagsa = s.intflagsa &&& ~~~(firstGroup fa).mask fa ∧
    (serveGroup fa s).trace = s.trace ++ (firstGroup fa).notes fa ∧
    sameEps s (serveGroup fa s) ∧ sameRam s (serveGroup fa s) ∧ sameGlobalsBut s (serveGroup fa s) [2] ∧
    sameLaunch s (serveGroup fa s) ∧ samePorts s (serveGroup fa s) ∧ (serveGroup fa s).disp = s.disp := by
  have frame := groupServed_frame s fa (firstGroup fa)
  rw [serveGroup_eq]
  split
  · exact ⟨rfl, rfl, frame⟩
  · exact ⟨rfl, rfl, frame⟩

/-- The tests of the four groups, in the document's order, are those of `firstGroup` (R171). -/
theorem firstGroup_chain {fa : Byte} {sof error stall power nothing : Prop} (hsof : firstGroup fa = .sof → sof)
    (herror : firstGroup fa = .error → error) (hstall : firstGroup fa = .stall → stall)
    (hpower : firstGroup fa = .power → power) (hnothing : firstGroup fa = .nothing → nothing) :
    if fa &&& 0x01 ≠ 0 then sof else if fa &&& 0x0E ≠ 0 then error else if fa &&& 0x10 ≠ 0 then stall
    else if fa &&& 0xE0 ≠ 0 then power else nothing := by
  by_cases c1 : fa &&& 0x01 ≠ 0
  · rw [if_pos c1]
    exact hsof (if_pos c1)
  by_cases c2 : fa &&& 0x0E ≠ 0
  · rw [if_neg c1, if_pos c2]
    exact herror ((if_neg c1).trans (if_pos c2))
  by_cases c3 : fa &&& 0x10 ≠ 0
  · rw [if_neg c1, if_neg c2, if_pos c3]
    exact hstall ((if_neg c1).trans ((if_neg c2).trans (if_pos c3)))
  by_cases c4 : fa &&& 0xE0 ≠ 0
  · rw [if_neg c1, if_neg c2, if_neg c3, if_pos c4]
    exact hpower ((if_neg c1).trans ((if_neg c2).trans ((if_neg c3).trans (if_pos c4))))
  · rw [if_neg c1, if_neg c2, if_neg c3, if_neg c4]
    exact hnothing ((if_neg c1).trans ((if_neg c2).trans ((if_neg c3).trans (if_neg c4))))

/-- Settles O44: B2 is `serveGroup_eq`, for each group that can be the first. -/
theorem busEventHandler : Obligations.BusEventHandler := by
  intro s hr hd
  refine ⟨fun hs => ⟨_, microStep_hbus hd hr hs, rfl, rfl, hr, onlyOut_out _ s.out⟩, fun fa hs hfa => ?_⟩
  have served : microStep s = .ok (serveGroup fa s) :=
    (microStep_hbus hd hr hs).trans (map_of_ok (valueOf_ok.2 hfa))
  obtain ⟨flags, trace, eps, ram, globals, launch, ports, disp⟩ := serveGroup_frame fa s
  have ends (h : ¬resetConfirmed fa) : (serveGroup fa s).hRun = .none := by
    rw [serveGroup_eq, if_neg h]
    rfl
  have closes {g : Group} (hg : firstGroup fa = g) (hp : g ≠ .power) : (serveGroup fa s).hRun = .none :=
    ends fun h => hp (hg.symm.trans h.1)
  refine ⟨_, (firstGroup fa).mask fa, served, fun k => flags ▸ getLsbD_clear .., eps, ram, globals, launch, ports,
    disp.trans hd, firstGroup_chain (fun hg => ?sof) (fun hg => ?error) (fun hg => ?stall) (fun hg => ?power)
    fun hg => ?nothing⟩
  all_goals rw [hg] at trace ⊢
  case sof => exact ⟨rfl, trace, closes hg (by decide)⟩
  case error => exact ⟨rfl, trace, closes hg (by decide)⟩
  case stall => exact ⟨rfl, trace, closes hg (by decide)⟩
  case nothing => exact ⟨rfl, trace.trans (List.append_nil _), closes hg (by decide)⟩
  case power =>
    refine ⟨rfl, trace, ?_⟩
    split
    case isTrue rstif =>
      rw [serveGroup_eq, if_pos ⟨hg, rstif⟩]
      exact ⟨hr, rfl⟩
    case isFalse norstif => exact ends fun h => norstif h.2

/-! ## The reinitialisation -/

/-- An idle machine in the same registers and memory. -/
def State.idled (s : State) : State := { s with hRun := .none }

/-- Settles O45: the reinitialisation looks at no hidden state, so that it leaves what `USB_REINIT` leaves of an idle
machine. -/
theorem busResetServed : Obligations.BusResetServed := by
  intro s hr hs hd hp
  have micro : microStep s = .ok (s.reinit.emit .reinit).endHandler :=
    (microStep_hbus hd hr hs).trans (map_of_ok (usbReinit_ok hp))
  have word : exec .usbReinit s.idled = .next (s.idled.reinit.give .none) :=
    command_of_ok (s := s.idled) rfl (usbReinit_ok hp)
  obtain ⟨ram, launch, ⟨-, -, disp, -⟩, trace, ports⟩ := reinit_frame s
  exact ⟨_, _, micro, word, sameEps_of_regs rfl rfl, (calm_refl _).globals, ram,
    congrArg (· ++ [Note.reinit]) trace, rfl, rfl, rfl, disp.trans hd, launch, ports⟩

end Sys2Proof.Machine
end

section
/-! SUPPORT. The transaction-complete handler (R176 to R178): its readings, its acknowledgements, and the engine's events
it dispatches. -/
namespace Sys2Proof.Machine

/-! ## Readings and acknowledgements -/

/-- A bit that was cleared. -/
theorem getLsbD_cleared (x : Byte) {m : Byte} {k : Nat} (h : m.getLsbD k = true) : (x &&& ~~~m).getLsbD k = false := by
  rw [getLsbD_clear, h, Bool.not_true, Bool.and_false]

/-- Settles O46: T1 is `IFB_CLR` of both flags, and the two readings are those of `EP_RDSTATUS`. -/
theorem transactionReads : Obligations.TransactionReads := by
  intro s hr hd he
  refine ⟨fun hs => ?t1, fun hs => ?t2, fun hs => ?t4⟩
  case t1 =>
    refine ⟨_, microStep_htrn hd hr hs, fun k hk => ?cleared, sameBitsBut_clear s.intflagsb 0x03 _ (by decide), rfl,
      fun _ _ => rfl, fun _ => rfl, (ifbClr_calm 0x03 s).globals, sameRest_refl _⟩
    have masked : ∀ k < 2, (0x03 : Byte).getLsbD k = true := by decide
    exact getLsbD_cleared s.intflagsb (masked k hk)
  case t2 =>
    exact ⟨_, (microStep_htrn hd hr hs).trans (map_of_ok (epRdstatus_ok he)), rfl, rfl, onlyOut_out _ s.out⟩
  case t4 =>
    exact ⟨_, (microStep_htrn hd hr hs).trans (map_of_ok (epRdstatus_ok he)), rfl, rfl, onlyOut_out _ s.out⟩

/-- What a reading of EP0 OUT is taken for, `SETUP` first (R177). -/
def outKind (v : Byte) : OutKind :=
  if v.getLsbD 4 then .newRequest else if v.getLsbD 2 then .ctlOut else .none

/-- The flags of EP0 OUT that are acknowledged with it (R177). -/
def OutKind.flags : OutKind → Byte
  | .newRequest => 0x14
  | .ctlOut => 0x04
  | .none => 0x00

/-- Flags of a direction of EP0 acknowledged (R177). -/
def State.acked (s : State) (d : Dir) (m : Byte) : State := s.setEp d 0 ((s.ep d 0).clearStatus m)

/-- Acknowledging no flag changes nothing. -/
theorem acked_zero (s : State) (d : Dir) : s.acked d 0x00 = s := by
  rw [State.acked, EpRegs.clearStatus, clear_zero, setEp_self]

/-- The acknowledgement is an `EP_TAC` (R121, R177). -/
theorem epTac_acked {s : State} {mask : Byte} (d : Dir) (he : 0 < s.par.nEp) :
    epTac 0 d mask s = .ok (s.acked d (mask &&& 0x3F), (s.ep d 0).status) := epTac_ok.2 ⟨he, rfl⟩

/-- The state after T3 (R177). -/
def State.outClassified (s : State) (k : OutKind) : State := { s.acked .OUT k.flags with hOutk := some k }.atStep 3

/-- The state after T4 (R177). -/
def State.inClassified (s : State) (done : Bool) : State :=
  { s.acked .IN (if done then 0x04 else 0x00) with hInk := some done }.atStep 5

/-- EP0 OUT after T3 (R177). -/
theorem ep_outClassified (s : State) (k : OutKind) :
    (s.outClassified k).ep .OUT 0 = (s.ep .OUT 0).clearStatus k.flags := ep_setEp_same s .OUT 0 _

/-- EP0 IN after T4 (R177). -/
theorem ep_inClassified (s : State) (done : Bool) :
    (s.inClassified done).ep .IN 0 = (s.ep .IN 0).clearStatus (if done then 0x04 else 0x00) := ep_setEp_same s .IN 0 _

/-- T3 acknowledges what it takes the reading for (R177). -/
theorem t3_ok {s : State} {v : Byte} (he : 0 < s.par.nEp) (hv : s.hSo = some v) :
    t3 s = .ok (s.outClassified (outKind v)) := by
  refine bind_ok.2 ⟨v, valueOf_ok.2 hv, ?_⟩
  unfold outKind
  by_cases h4 : v.getLsbD 4 = true
  · rw [if_pos h4, if_pos h4]
    exact map_of_ok (epTac_acked .OUT he)
  rw [if_neg h4, if_neg h4]
  by_cases h2 : v.getLsbD 2 = true
  · rw [if_pos h2, if_pos h2]
    exact map_of_ok (epTac_acked .OUT he)
  · rw [if_neg h2, if_neg h2, State.outClassified, OutKind.flags, acked_zero]

/-- T4 acknowledges a completion (R177). -/
theorem t4Ack_ok {s : State} {v : Byte} (he : 0 < s.par.nEp) (hv : s.hSi = some v) :
    t4Ack s = .ok (s.inClassified (v.getLsbD 2)) := by
  refine bind_ok.2 ⟨v, valueOf_ok.2 hv, ?_⟩
  cases v.getLsbD 2
  · rw [if_neg Bool.false_ne_true, State.inClassified, if_neg Bool.false_ne_true, acked_zero]
  · exact map_of_ok (epTac_acked .IN he)

/-- Settles O47: what is acknowledged is what the reading is taken for. -/
theorem transactionClassifies : Obligations.TransactionClassifies := by
  intro s v hr hd he
  refine ⟨fun hs hv => ⟨_, (microStep_htrn hd hr hs).trans (t3_ok he hv), rfl, onlyEp_setEp _ .OUT 0 _ s.out, ?out⟩,
    fun hs hv => ⟨_, (microStep_htrn hd hr hs).trans (t4Ack_ok he hv), rfl, rfl, onlyEp_setEp _ .IN 0 _ s.out, ?inn⟩⟩
  case out =>
    rw [ep_outClassified]
    refine ⟨onlyStatus_clearStatus .., ?_⟩
    split
    case isTrue h4 =>
      rw [show outKind v = .newRequest from if_pos h4]
      exact ⟨rfl, getLsbD_cleared _ (m := 0x14) (by decide), getLsbD_cleared _ (m := 0x14) (by decide),
        sameBitsBut_clear _ _ _ (by decide)⟩
    case isFalse h4 =>
    split
    case isTrue h2 =>
      rw [show outKind v = .ctlOut from (if_neg h4).trans (if_pos h2)]
      exact ⟨rfl, getLsbD_cleared _ (m := 0x04) (by decide), sameBitsBut_clear _ _ _ (by decide)⟩
    case isFalse h2 =>
      rw [show outKind v = .none from (if_neg h4).trans (if_neg h2)]
      exact ⟨rfl, clear_zero _⟩
  case inn =>
    rw [ep_inClassified]
    refine ⟨onlyStatus_clearStatus .., ?_⟩
    cases v.getLsbD 2 with
    | true => exact ⟨getLsbD_cleared _ (m := 0x04) (by decide), sameBitsBut_clear _ _ _ (by decide)⟩
    | false => exact clear_zero _

/-! ## Dispatches -/

/-- The engine's event for what T3 captured (R176). -/
def OutKind.event (k : OutKind) : Instr := if k = .newRequest then .evNewrequest else .evCtloutDone

/-- The state an event of the engine leaves, with the handler going on at T6 (R176). -/
def State.resumedWith (s u : State) : State := { u with hRun := .htrn, hStep := some 6, out := s.out }

/-- With nothing captured T5 does nothing (R176). -/
theorem t5_none {s : State} (hk : s.hOutk = some .none) : t5 s = .ok (s.atStep 6) := by
  rw [t5, hk]
  rfl

/-- Two changes made one after the other to what an operation answers. -/
theorem map_map {α β γ : Type} (x : Except Fault α) (f : α → β) (g : β → γ) :
    (x.map f).map g = x.map fun a => g (f a) := by cases x <;> rfl

/-- An operation that looks at no hidden state, in the handler and on an idle machine: what is made of its answers is
the same where it is so in the two contexts (R191). -/
theorem map_idled {f : State → Except Fault State}
    (hf : ∀ s h n l o, f (s.inContext h n l o) = (f s).map (·.inContext h n l o)) {s : State} (hr : s.hRun = .htrn)
    {g g' : State → State}
    (hg : ∀ u : State, g (u.inContext .htrn s.hStep s.disp s.out) = g' (u.inContext .none s.hStep s.disp s.out)) :
    (f s).map g = (f s.idled).map g' := by
  have idle : f s.idled = (f s).map (·.inContext .none s.hStep s.disp s.out) := hf s .none s.hStep s.disp s.out
  rw [idle]
  cases h : f s with
  | error => rfl
  | ok u =>
    have context := context_kept hf h
    rw [hr] at context
    exact congrArg Except.ok ((congrArg g context).trans (hg u))

/-- T5 is the engine's event: it faults as the event does on an idle machine, and otherwise leaves what that leaves, but
for the context (R176, R191). -/
theorem t5_event {s : State} {k : OutKind} (hr : s.hRun = .htrn) (hk : s.hOutk = some k) (hn : k ≠ .none) :
    ∃ r, exec k.event s.idled = outcomeOf r ∧ t5 s = r.map s.resumedWith := by
  rw [t5, hk]
  cases k with
  | none => exact absurd rfl hn
  | newRequest =>
    refine ⟨((evNewrequest s.idled).map (·.dispatchContext)).map (·.give .none), rfl, ?_⟩
    change (evNewrequest s).map (·.atStep 6) = _
    simp only [evNewrequest, map_map]
    exact map_idled newRequest_inContext hr fun _ => rfl
  | ctlOut =>
    refine ⟨(evCtloutDone s.idled).map (·.give .none), rfl, ?_⟩
    change (evCtloutDone s).map (·.atStep 6) = _
    rw [map_map]
    exact map_idled evCtloutDone_inContext hr fun _ => rfl

/-- Everything `EV_CTLIN_DONE` can do: it notes the completion and writes the engine's state (R197). -/
theorem evCtlinDone_eq (stale : Bool) (s : State) : ∃ c, evCtlinDone stale s = (s.emit (.ctlIn stale)).setCtl c := by
  unfold evCtlinDone
  dsimp only
  split
  · exact ⟨s.ctlstate, rfl⟩
  split
  · exact ⟨csStatusOut, rfl⟩
  split
  · exact ⟨csIdle, rfl⟩
  · exact ⟨s.ctlstate, rfl⟩

/-- T6 (R178). -/
theorem t6_ok {s : State} {k : OutKind} {ink : Bool} (hk : s.hOutk = some k) (hi : s.hInk = some ink) :
    t6 s = .ok (if ink then (evCtlinDone (k == .newRequest) s).endHandler else s.endHandler) :=
  bind_ok.2 ⟨k, valueOf_ok.2 hk, bind_ok.2 ⟨ink, valueOf_ok.2 hi, rfl⟩⟩

/-- Settles O48: T5 by `t5_event`, and T6 by what `EV_CTLIN_DONE` can do, which looks at no hidden state. -/
theorem transactionDispatches : Obligations.TransactionDispatches := by
  intro s hr hd
  refine ⟨fun k hs hk => ⟨fun none => ?nothing, fun hn u hu => ?event⟩, fun k ink hs hk hi => ?t6⟩
  case nothing => exact ⟨_, (microStep_htrn hd hr hs).trans (t5_none (none ▸ hk)), rfl⟩
  case event =>
    obtain ⟨r, word, micro⟩ := t5_event hr hk hn
    exact (microStep_htrn hd hr hs).trans (micro.trans (map_of_ok (outcomeOf_next.1 (word.symm.trans hu))))
  case t6 =>
    have micro := (microStep_htrn hd hr hs).trans (t6_ok hk hi)
    cases ink with
    | false =>
      exact ⟨_, s, micro, rfl, rfl, rfl, rfl, hd, rfl, rfl, fun _ _ => rfl, fun _ => rfl, (calm_refl s).globals,
        ⟨rfl, rfl, rfl⟩, rfl, rfl, rfl, rfl⟩
    | true =>
      have idle : evCtlinDone (k == .newRequest) s.idled = _ := evCtlinDone_inContext s .none s.hStep s.disp s.out _
      have word : exec (.evCtlinDone (k == .newRequest)) s.idled = _ := command_of_ok (s := s.idled) rfl rfl
      rw [idle] at word
      obtain ⟨c, hc⟩ := evCtlinDone_eq (k == .newRequest) s
      rw [hc] at micro word
      exact ⟨_, _, micro, rfl, rfl, rfl, rfl, hd, word, rfl, fun _ _ => rfl, fun _ => rfl, (calm_refl _).globals,
        ⟨rfl, rfl, rfl⟩, rfl, rfl, rfl, rfl⟩

/-! ## Totality -/

/-- The micro-steps of the bus-event handler answer wherever the reading they need is live (R171 to R175). -/
theorem busEventStep_total {s : State} {n : Nat} (hp : paramsLegal s.par) (hfa : 1 ≤ n → s.hFa ≠ none) :
    ∃ t, busEventStep n s = .ok t := by
  match n with
  | 0 => exact ⟨_, rfl⟩
  | 1 =>
    obtain ⟨fa, hfa⟩ := Option.ne_none_iff_exists'.1 (hfa (by decide))
    exact ⟨_, map_of_ok (valueOf_ok.2 hfa)⟩
  | _ + 2 => exact ⟨_, map_of_ok (usbReinit_ok hp)⟩

/-- The micro-steps of the transaction-complete handler answer wherever the latches they need are live and T5 has
nothing to dispatch (R176 to R178). -/
theorem trncomplStep_total {s : State} {n : Nat} (he : 0 < s.par.nEp) (hl : trnLive n s)
    (quiet : n = 5 → s.hOutk = some .none) : ∃ t, trncomplStep n s = .ok t := by
  match n with
  | 0 => exact ⟨_, rfl⟩
  | 1 => exact ⟨_, map_of_ok (epRdstatus_ok he)⟩
  | 2 =>
    obtain ⟨so, -, -, -⟩ := hl (by decide)
    obtain ⟨v, hv⟩ := Option.ne_none_iff_exists'.1 (so (by decide))
    exact ⟨_, t3_ok he hv⟩
  | 3 => exact ⟨_, map_of_ok (epRdstatus_ok he)⟩
  | 4 =>
    obtain ⟨-, -, si, -⟩ := hl (by decide)
    obtain ⟨v, hv⟩ := Option.ne_none_iff_exists'.1 (si (by decide))
    exact ⟨_, t4Ack_ok he hv⟩
  | 5 => exact ⟨_, t5_none (quiet rfl)⟩
  | 6 =>
    obtain ⟨-, outk, -, ink⟩ := hl (by decide)
    obtain ⟨k, hk⟩ := Option.ne_none_iff_exists'.1 (outk (by decide))
    obtain ⟨i, hi⟩ := Option.ne_none_iff_exists'.1 (ink (by decide))
    exact ⟨_, t6_ok hk hi⟩
  | _ + 7 => exact ⟨_, rfl⟩

/-- The outcome is a fault exactly where the operation answers it. -/
theorem outcomeOf_fault {r : Except Fault State} {f : Fault} : outcomeOf r = .fault f ↔ r = .error f := by
  cases r <;> simp [outcomeOf]

/-- A result changed in form faults exactly where the result did. -/
theorem map_error {α β : Type} {r : Except Fault α} {g : α → β} {f : Fault} : r.map g = .error f ↔ r = .error f := by
  cases r <;> simp [Except.map]

/-- Settles O49: the invariant has the latches live that each micro-step needs, and T5 faults as `t5_event` says. -/
theorem handlersTotal : Obligations.HandlersTotal := by
  intro s hs hd
  obtain ⟨⟨hp, -⟩, hh, -⟩ := inv_iff.1 hs
  refine ⟨fun quiet => ?total, fun k hr hs5 hk hn f => ?faults⟩
  case total =>
    cases hr : s.hRun with
    | none => exact ⟨s, microStep_idle hd hr⟩
    | hbus =>
      obtain ⟨n, hn, -, hfa⟩ := (handlerInv_hbus hr).1 hh
      rw [microStep_hbus hd hr hn]
      exact busEventStep_total hp hfa
    | htrn =>
      obtain ⟨n, hn, -, hl⟩ := (handlerInv_htrn hr).1 hh
      rw [microStep_htrn hd hr hn]
      exact trncomplStep_total hp.1 hl fun h5 => quiet hr (h5 ▸ hn)
  case faults =>
    obtain ⟨r, word, micro⟩ := t5_event hr hk hn
    rw [(microStep_htrn hd hr hs5).trans micro, map_error]
    exact outcomeOf_fault.symm.trans ⟨word.trans, word.symm.trans⟩

end Sys2Proof.Machine
end

section
/-! SUPPORT. The control engine, operation by operation: what the arming of EP0 IN answers check by check, and the one
shape of state that every terminal command and event leaves. -/
namespace Sys2Proof.Machine

/-! ## Ownership -/

/-- A group whose banks are all idle owns nothing, and every other owns what it did (R65). -/
theorem bankOwns_setEp_idle {s : State} {d d' : Dir} {e e' : BitVec 4} {x : EpRegs} {b : Bank} {a : Nat}
    (idle : ∀ b, x.nack b = true) :
    bankOwns (s.setEp d e x) d' e' b a ↔ ¬(d' = d ∧ e' = e) ∧ bankOwns s d' e' b a := by
  by_cases h : d' = d ∧ e' = e
  · obtain ⟨rfl, rfl⟩ := h
    simp [bankOwns, idle]
  · simp [bankOwns, ep_setEp_other _ _ _ _ _ _ h, h]

/-- Hardware owns a byte of a range where some bank does (R65). -/
theorem hardwareOwns_iff {s : State} {a n : Nat} :
    hardwareOwns s a n ↔ ∃ d e b x, (a ≤ x ∧ x < a + n) ∧ bankOwns s d e b x := by
  constructor
  · rintro ⟨x, hx, d, e, b, owns⟩
    exact ⟨d, e, b, x, hx, owns⟩
  · rintro ⟨d, e, b, x, hx, owns⟩
    exact ⟨x, hx, d, e, b, owns⟩

/-- With EP0 IN idle, the buffer of EP0 OUT is free unless a bank of another direction owns a byte of it (R65). -/
theorem outBufFree_setEp_idle {s : State} {x : EpRegs} (idle : ∀ b, x.nack b = true) :
    outBufFree (s.setEp .IN 0 x) ↔ ((s.ep .OUT 0).nack .b0 = true → ¬∃ d e b y, ¬(d = .IN ∧ e = 0) ∧
      (s.par.ep0OutBuf.toNat ≤ y ∧ y < s.par.ep0OutBuf.toNat + maxPkt0 s.par) ∧ bankOwns s d e b y) := by
  simp only [outBufFree, hardwareOwns_iff, bankOwns_setEp_idle idle, ep_setEp_in_out, setEp_fields, and_left_comm]

/-! ## The arming of EP0 IN -/

section
variable {s : State} {size : BitVec 16}

/-- The checks of R113 that are left when EP0 IN is armed inside its own buffer (R200, R202, R196, R6). -/
theorem armIn_eq (hp : paramsLegal s.par) (hu : ep0Usable s) (hs : size.toNat ≤ maxPkt0 s.par) :
    armIn size s = if (s.ep .IN 0).nack .b0 = false then .error .cvDoublearm
      else if s.hwOwns s.par.ep0InBuf.toNat size.toNat then .error .cvOwnership
      else .ok (s.setEp .IN 0 ((s.ep .IN 0).arm .b0 (size.setWidth 7) s.par.ep0InBuf)) := by
  obtain ⟨ht, hc⟩ := hu .IN
  have fits : ¬maxPkt (s.ep .IN 0).bufsize < size.toNat := by
    rw [hc]
    exact Nat.not_lt.2 hs
  have inside : ¬(ramSize s.par ≤ s.par.ep0InBuf.toNat ∨ ramSize s.par < s.par.ep0InBuf.toNat + size.toNat) := by
    have := maxPkt_ge s.par.ep0Size
    simp only [paramsLegal, maxPkt0] at hp hs
    omega
  rw [armIn, epArm, onInit_of_type (show (0 : BitVec 4).toNat < s.par.nEp from hp.1) ht, if_neg (by simp), if_neg fits,
    if_neg inside]

/-- EP0 IN is armed already (R113, `CV_DOUBLEARM`). -/
theorem armIn_of_armed (hp : paramsLegal s.par) (hu : ep0Usable s) (hs : size.toNat ≤ maxPkt0 s.par)
    (hn : (s.ep .IN 0).nack .b0 = false) : armIn size s = .error .cvDoublearm := by
  rw [armIn_eq hp hu hs, if_pos hn]

/-- An armed bank owns a byte of the EP0 IN buffer (R113, `CV_OWNERSHIP`). -/
theorem armIn_of_owned (hp : paramsLegal s.par) (hu : ep0Usable s) (hs : size.toNat ≤ maxPkt0 s.par)
    (hn : (s.ep .IN 0).nack .b0 = true) (ho : hardwareOwns s s.par.ep0InBuf.toNat size.toNat) :
    armIn size s = .error .cvOwnership := by
  rw [armIn_eq hp hu hs, if_neg (by rw [hn]; decide), if_pos (hwOwns_iff_hardwareOwns.2 ho)]

end

/-! ## The state an operation of the engine leaves -/

/-- EP0's two groups and `CTLSTATE` written, and no result given: what a terminal command or event leaves. -/
def State.engineDone (s : State) (i o : EpRegs) (c : Byte) : State :=
  (((s.setEp .IN 0 i).setEp .OUT 0 o).setCtl c).give .none

section
variable (s : State) (i o : EpRegs) (c : Byte)

theorem ep_in_engineDone : (s.engineDone i o c).ep .IN 0 = i :=
  (ep_setEp_out_in (s.setEp .IN 0 i) 0 0 o).trans (ep_setEp_same s .IN 0 i)

theorem ep_out_engineDone : (s.engineDone i o c).ep .OUT 0 = o := ep_setEp_same (s.setEp .IN 0 i) .OUT 0 o

/-- Only endpoint 0 and `CTLSTATE` are written. -/
theorem engineDone_frame : sameEpsBut0 s (s.engineDone i o c) ∧ sameRam s (s.engineDone i o c) ∧
    sameGlobalsBut s (s.engineDone i o c) [4] ∧ sameRest s (s.engineDone i o c) := by
  refine ⟨fun d e he => ?_, fun _ => rfl, by simp [sameGlobalsBut, State.engineDone], sameRest_refl s⟩
  have other : ∀ {d'}, ¬(d = d' ∧ e = 0) := fun h => he h.2
  exact (ep_setEp_other _ _ _ _ _ _ other).trans (ep_setEp_other _ _ _ _ _ _ other)

end

/-- Every branch of the engine ends alike (R205): once EP0 IN holds what the branch writes, `RearmOut` arms EP0 OUT and
`CTLSTATE` is written. -/
def thenRearm (c : Byte) (prep : Except Fault State) : Except Fault State :=
  prep >>= fun a => (rearmOut a).map (·.setCtl c)

section
variable {s : State} {prep : Except Fault State}

/-- A branch that EP0 IN turns down. -/
theorem thenRearm_of_error {f : Fault} (c : Byte) (hr : prep = .error f) : thenRearm c prep = .error f := by
  rw [hr]
  rfl

variable {x : EpRegs} (hr : prep = .ok (s.setEp .IN 0 x)) (hp : paramsLegal s.par) (hu : ep0Usable s)
include hr hp hu

/-- The end of a branch is `CV_OWNERSHIP` where the buffer of EP0 OUT is owned (R205, R113). -/
theorem thenRearm_of_owned (c : Byte) (hf : ¬outBufFree (s.setEp .IN 0 x)) :
    thenRearm c prep = .error .cvOwnership := by
  obtain ⟨ht, hc⟩ := hu .OUT
  have owned := rearmOut_of_owned (s := s.setEp .IN 0 x) (by simpa using hp) (by simpa using ht) (by simpa using hc) hf
  rw [thenRearm, hr]
  exact map_of_error owned

/-- The end of a branch where the buffer of EP0 OUT is free (R205). -/
theorem thenRearm_of_free (c : Byte) (hf : outBufFree (s.setEp .IN 0 x)) : ∃ o,
    (thenRearm c prep).map (·.give .none) = .ok (s.engineDone x o c) ∧ rearmed s (s.engineDone x o c) := by
  obtain ⟨ht, hc⟩ := hu .OUT
  obtain ⟨o, ho, armed⟩ := rearmOut_of_free (s := s.setEp .IN 0 x) (by simpa using hp) (by simpa using ht)
    (by simpa using hc) hf
  refine ⟨o, ?_, ?_⟩
  · rw [thenRearm, hr]
    exact map_of_ok (map_of_ok ho)
  · rw [rearmed, ep_out_engineDone]
    simpa using armed

/-- What such a command leaves: EP0 IN as the branch wrote it, EP0 OUT armed, and nothing else changed. -/
theorem command_thenRearm {u : State} {r : Except Fault State} {c : Byte} (P : EpRegs → Prop) (hb : u.busy = false)
    (hc : r = thenRearm c prep) (hx : P x) (hf : outBufFree (s.setEp .IN 0 x)) :
    ∃ t, command u r = .next t ∧ t.out = .none ∧ P (t.ep .IN 0) ∧ rearmed s t ∧ t.ctlstate = c ∧
      sameEpsBut0 s t ∧ sameRam s t ∧ sameGlobalsBut s t [4] ∧ sameRest s t := by
  obtain ⟨o, ho, armed⟩ := thenRearm_of_free hr hp hu c hf
  obtain ⟨v, hv, done⟩ := map_ok.1 ho
  refine ⟨s.engineDone x o c, ?_, rfl, ?_, armed, rfl, engineDone_frame ..⟩
  · rw [hc, hv, command_of_ok hb rfl, done]
  · rwa [ep_in_engineDone]

end

/-! ## The terminal commands -/

/-- A last write that cannot fail. -/
theorem bind_pure_eq_map {α β : Type} (x : Except Fault α) (f : α → β) :
    (x >>= fun a => .ok (f a)) = x.map f := by cases x <;> rfl

/-- Arming does not look at `CTLSTATE`. -/
theorem epArm_setCtl (s : State) (c : Byte) (e : BitVec 4) (d : Dir) (b : Bank) (size : BitVec 16) (buf : Addr) :
    epArm e d b size buf (s.setCtl c) = (epArm e d b size buf s).map (·.setCtl c) := by
  have owns : ∀ a n, (s.setCtl c).hwOwns a n = s.hwOwns a n := fun _ _ => rfl
  have write : ∀ x, (s.setCtl c).setEp d e x = (s.setEp d e x).setCtl c := fun x => by cases d <;> rfl
  simp only [epArm, onInit, onEp, setCtl_fields, owns, write]
  repeat' split
  all_goals rfl

theorem armIn_setCtl (s : State) (c : Byte) (size : BitVec 16) :
    armIn size (s.setCtl c) = (armIn size s).map (·.setCtl c) := epArm_setCtl ..

/-- `RearmOut` does not look at `CTLSTATE`. -/
theorem rearmOut_setCtl (s : State) (c : Byte) : rearmOut (s.setCtl c) = (rearmOut s).map (·.setCtl c) := by
  simp only [rearmOut, setCtl_fields, epArm_setCtl]
  split <;> rfl

section
variable {s : State} (hc : s.ctlstate = csSetup)
include hc

/-- `CTL_IN` within a packet arms EP0 IN first (R200). -/
theorem ctlIn_eq {size : BitVec 16} (hs : size.toNat ≤ maxPkt0 s.par) :
    ctlIn size s = thenRearm csDataIn (armIn size s) := by
  rw [ctlIn, inDispatch_of_eq hc, if_neg (Nat.not_lt.2 hs), thenRearm]
  simp only [bind_pure_eq_map]

/-- `CTL_OUT` leaves EP0 IN as it is (R201). -/
theorem ctlOut_eq : ctlOut s = thenRearm csDataOut (.ok s) := by
  rw [ctlOut, inDispatch_of_eq hc, bind_pure_eq_map]
  rfl

/-- `CTL_ACK` arms EP0 IN with no bytes, and the state `NoDataStatus` in between is overwritten (R202). -/
theorem ctlAck_eq : ctlAck s = thenRearm csStatusIn (armIn 0 s) := by
  rw [ctlAck, inDispatch_of_eq hc, armIn_setCtl, bind_map, thenRearm]
  simp only [bind_pure_eq_map, rearmOut_setCtl, map_map]
  rfl

end

/-- Settles O29: the checks before EP0 IN is armed, those of that arming, and those of `RearmOut`. -/
theorem ctlIn_spec : Obligations.CtlIn := by
  intro s size hb
  refine command_check hb rfl fun hc hr => ?_
  refine command_check hb hr fun hs _ hp hu => ?_
  have within : size.toNat ≤ maxPkt0 s.par := Nat.not_lt.1 hs
  have eq := ctlIn_eq (Decidable.not_not.1 hc) within
  refine ⟨fun armed => ?doublearm, fun idle owned => ?owned, fun idle mine taken => ?taken, fun idle mine free => ?next⟩
  case doublearm => exact command_of_error hb (eq.trans (thenRearm_of_error _ (armIn_of_armed hp hu within armed)))
  case owned => exact command_of_error hb (eq.trans (thenRearm_of_error _ (armIn_of_owned hp hu within idle owned)))
  all_goals obtain ⟨x, hx, armed⟩ := armIn_of_free hp (hu .IN).1 (hu .IN).2 idle within mine
  case taken =>
    have still := fun h => taken (outBufFree_of_armIn idle armed h)
    exact command_of_error hb (eq.trans (thenRearm_of_owned hx hp hu _ still))
  case next =>
    exact command_thenRearm hx hp hu (armedAs (s.ep .IN 0) · .b0 size.toNat s.par.ep0InBuf) hb eq armed
      (outBufFree_armIn hp within armed free)

/-- Settles O30: `CTL_OUT` is `RearmOut` alone, `CTL_ACK` that after EP0 IN was armed with no bytes. -/
theorem ctlOutAck : Obligations.CtlOutAck := by
  intro s hb
  split
  case isTrue out => exact ⟨command_of_error hb (inDispatch_of_ne out), command_of_error hb (inDispatch_of_ne out)⟩
  case isFalse hc =>
  intro hp hu
  have hc : s.ctlstate = csSetup := Decidable.not_not.1 hc
  have self : Except.ok s = (.ok (s.setEp .IN 0 (s.ep .IN 0)) : Except Fault State) := by rw [setEp_self]
  have ack := ctlAck_eq hc
  refine ⟨fun taken => ?outTaken, fun free => ?outNext, fun armed => ?ackDoublearm, fun idle taken => ?ackTaken,
    fun idle free => ?ackNext⟩
  case outTaken =>
    exact command_of_error hb ((ctlOut_eq hc).trans (thenRearm_of_owned self hp hu _ (by rwa [setEp_self])))
  case outNext =>
    exact command_thenRearm self hp hu (· = s.ep .IN 0) hb (ctlOut_eq hc) rfl (by rwa [setEp_self])
  case ackDoublearm =>
    exact command_of_error hb (ack.trans (thenRearm_of_error _ (armIn_of_armed hp hu (Nat.zero_le _) armed)))
  all_goals
    obtain ⟨x, hx, armed⟩ := armIn_of_free (size := 0) hp (hu .IN).1 (hu .IN).2 idle (Nat.zero_le _)
      (not_hardwareOwns_zero s _)
  case ackTaken =>
    have still := fun h => taken (outBufFree_of_armIn idle armed h)
    exact command_of_error hb (ack.trans (thenRearm_of_owned hx hp hu _ still))
  case ackNext =>
    exact command_thenRearm hx hp hu (armedAs (s.ep .IN 0) · .b0 0 s.par.ep0InBuf) hb ack armed
      (outBufFree_armIn hp (Nat.zero_le _) armed free)

end Sys2Proof.Machine
end

section
/-! SUPPORT. `CTL_STALL`: both directions of EP0 halted and cancelled, and then `RearmOut`. -/
namespace Sys2Proof.Machine

/-! ## Halted groups -/

/-- A direction cancelled and halted (R112, R119). -/
def EpRegs.halted (x : EpRegs) : EpRegs := (x.orStatus 0x03).setStall

/-- A cancelled direction is idle (R112). -/
theorem nack_cancelled (x : EpRegs) (b : Bank) : (x.orStatus 0x03).nack b = true := by
  rw [nack_eq, EpRegs.orStatus, getLsbD_or]
  cases b <;> exact Bool.or_true _

/-- A halted direction is halted (R119). -/
theorem stall_setStall (x : EpRegs) : x.setStall.stall = true := by
  rw [EpRegs.stall, EpRegs.setStall, getLsbD_or]
  exact Bool.or_true _

/-- Cancelling and halting writes the two `NACK` flags and `STALL` (R112, R119). -/
theorem halted_fields (x : EpRegs) :
    x.halted.stall = true ∧ sameBitsBut x.ctrl x.halted.ctrl [5] ∧ (∀ b, x.halted.nack b = true) ∧
    sameBitsBut x.status x.halted.status [0, 1] ∧ ∀ b, x.halted.cnt b = x.cnt b ∧ x.halted.ptr b = x.ptr b :=
  ⟨stall_setStall _, sameBitsBut_or _ _ _ (by decide),
    fun b => (nack_eq ..).trans ((nack_eq ..).symm.trans (nack_cancelled x b)), sameBitsBut_or _ _ _ (by decide), fun b => by cases b <;> exact ⟨rfl, rfl⟩⟩

/-- And no field of the configuration (R22). -/
theorem halted_config (x : EpRegs) : x.halted.type = x.type ∧ x.halted.bufsize = x.bufsize :=
  ⟨extract_or _ _ _ _ (by decide), extract_or _ _ _ _ (by decide)⟩

/-! ## The command -/

/-- EP0 OUT cancelled and halted. -/
def State.outHalted (s : State) : State := s.setEp .OUT 0 (s.ep .OUT 0).halted

/-- EP0 cancelled and halted in both directions, as `CTL_STALL` leaves it before `RearmOut` (R203). -/
def State.ep0Halted (s : State) : State := s.outHalted.setEp .IN 0 (s.ep .IN 0).halted

/-- The two halves of the register file are apart (R20). -/
theorem setEp_comm (s : State) (e e' : BitVec 4) (x y : EpRegs) :
    (s.setEp .IN e x).setEp .OUT e' y = (s.setEp .OUT e' y).setEp .IN e x := rfl

/-- Where EP0 OUT was written before does not show in what the engine leaves. -/
theorem engineDone_outHalted (s : State) (i o : EpRegs) (c : Byte) :
    s.outHalted.engineDone i o c = s.engineDone i o c := by
  simp only [State.engineDone, State.outHalted, setEp_comm, setEp_setEp]

section
variable {s : State}

/-- Halting EP0 leaves it usable. -/
theorem ep0Usable_outHalted (hu : ep0Usable s) : ep0Usable s.outHalted := by
  intro d
  cases d with
  | OUT =>
    obtain ⟨type, size⟩ := halted_config (s.ep .OUT 0)
    rw [State.outHalted, ep_setEp_same, type, size]
    exact hu .OUT
  | IN => exact hu .IN

/-- With EP0 idle, the buffer of EP0 OUT is free unless a bank of another endpoint owns a byte of it (R65). -/
theorem outBufFree_ep0Halted : outBufFree s.ep0Halted ↔ ¬∃ d e b x, e ≠ 0 ∧
    (s.par.ep0OutBuf.toNat ≤ x ∧ x < s.par.ep0OutBuf.toNat + maxPkt0 s.par) ∧ bankOwns s d e b x := by
  obtain ⟨-, -, outIdle, -⟩ := halted_fields (s.ep .OUT 0)
  obtain ⟨-, -, inIdle, -⟩ := halted_fields (s.ep .IN 0)
  rw [State.ep0Halted, outBufFree_setEp_idle inIdle, State.outHalted]
  simp only [bankOwns_setEp_idle outIdle, ep_setEp_same, outIdle, setEp_fields, true_implies]
  refine not_congr ⟨?_, ?_⟩
  · rintro ⟨d, e, b, y, notIn, hy, notOut, owns⟩
    refine ⟨d, e, b, y, fun he => ?_, hy, owns⟩
    cases d with
    | OUT => exact notOut ⟨rfl, he⟩
    | IN => exact notIn ⟨rfl, he⟩
  · rintro ⟨d, e, b, y, he, hy, owns⟩
    exact ⟨d, e, b, y, fun h => he h.2, hy, fun h => he h.2, owns⟩

/-- A sequence whose first part answers. -/
theorem bind_of_ok {α β : Type} {x : Except Fault α} {f : α → Except Fault β} {a : α} (hx : x = .ok a) :
    (x >>= f) = f a := by rw [hx]; rfl

/-- `CTL_STALL` cancels, halts, and re-arms EP0 OUT (R203). -/
theorem ctlStall_eq (hc : s.ctlstate = csSetup) (hp : paramsLegal s.par) (hu : ep0Usable s) :
    ctlStall s = thenRearm csIdle (.ok s.ep0Halted) := by
  obtain ⟨outType, -⟩ := hu .OUT
  obtain ⟨inType, -⟩ := hu .IN
  have exists0 : (0 : BitVec 4).toNat < s.par.nEp := hp.1
  rw [ctlStall, inDispatch_of_eq hc]
  refine (bind_of_ok (epCancel_ok.2 ⟨exists0, inType, rfl⟩)).trans ?_
  refine (bind_of_ok (epCancel_ok.2 ⟨by exact exists0, by exact outType, rfl⟩)).trans ?_
  refine (bind_of_ok (epStall_ok.2 ⟨by exact exists0, ?outStall, rfl⟩)).trans ?_
  case outStall => rw [ep_setEp_same]; exact outType
  refine (bind_of_ok (epStall_ok.2 ⟨by exact exists0, ?inStall, rfl⟩)).trans ?_
  case inStall => rw [ep_setEp_out_in, ep_setEp_out_in, ep_setEp_same]; exact inType
  rw [bind_pure_eq_map]
  simp only [ep_setEp_same, ep_setEp_in_out, setEp_setEp, setEp_comm]
  rfl

end

/-- Bits that are unchanged but for a few are so but for more. -/
theorem sameBitsBut.mono {x y : Byte} {l m : List Nat} (h : sameBitsBut x y l) (hl : l ⊆ m) : sameBitsBut x y m :=
  fun k hk => h k fun hm => hk (hl hm)

/-- Settles O31: `RearmOut` after EP0 was cancelled and halted, which leaves the banks of other endpoints as owners. -/
theorem ctlStall_spec : Obligations.CtlStall := by
  intro s hb
  dsimp only
  split
  case isTrue out => exact command_of_error hb (inDispatch_of_ne out)
  case isFalse hc =>
  intro hp hu
  have eq := ctlStall_eq (Decidable.not_not.1 hc) hp hu
  have usable := ep0Usable_outHalted hu
  refine ⟨fun others => ?owned, fun others => ?next⟩
  case owned =>
    exact command_of_error hb (eq.trans (thenRearm_of_owned (s := s.outHalted) rfl hp usable _
      fun free => outBufFree_ep0Halted.1 free others))
  case next =>
    obtain ⟨o, done, armed⟩ := thenRearm_of_free (s := s.outHalted) rfl hp usable csIdle (outBufFree_ep0Halted.2 others)
    rw [engineDone_outHalted] at done armed
    obtain ⟨outStall, outCtrl, outIdle, outStatus, outBanks⟩ := halted_fields (s.ep .OUT 0)
    obtain ⟨inStall, inCtrl, inIdle, inStatus, inBanks⟩ := halted_fields (s.ep .IN 0)
    rw [rearmed, ep_out_engineDone, State.outHalted, ep_setEp_same, if_pos (outIdle .b0)] at armed
    obtain ⟨ctrl, nack, done0, status, ptr, cnt, other⟩ := armed
    obtain ⟨other1, ptr1⟩ := other .b1 (by decide)
    obtain ⟨v, hv, written⟩ := map_ok.1 done
    refine ⟨s.engineDone (s.ep .IN 0).halted o csIdle, ?_, rfl, ?halts, ?_⟩
    · rw [← written]
      exact command_of_ok hb (eq.trans hv)
    case halts =>
      intro d
      cases d with
      | OUT =>
        rw [ep_out_engineDone, EpRegs.stall, ctrl]
        exact ⟨outStall, outCtrl⟩
      | IN =>
        rw [ep_in_engineDone]
        exact ⟨inStall, inCtrl⟩
    rw [ep_in_engineDone, ep_out_engineDone]
    refine ⟨fun b => ⟨inIdle b, inBanks b⟩, inStatus, nack, done0, ?nack1, ?status, ptr, cnt,
      other1.trans (outBanks .b1).1, ptr1.trans (outBanks .b1).2, rfl, engineDone_frame ..⟩
    case nack1 => exact (nack_eq ..).trans ((status 1 (by decide)).trans ((nack_eq ..).symm.trans (outIdle .b1)))
    case status => exact (outStatus.mono (by simp)).trans (status.mono (by simp [nackBit, doneBit]))

end Sys2Proof.Machine
end

section
/-! SUPPORT. The engine's events: the setup record of N1, `EV_CTLOUT_DONE` as one branch for each state of the engine,
and what `EV_CTLIN_DONE` leaves `CTLSTATE` at. -/
namespace Sys2Proof.Machine

/-! ## N1 of `EV_NEWREQUEST` -/

/-- The bytes of a word, least significant first. -/
theorem wordBytes_reverse_byte (w : Word) {k : Nat} (hk : k < 8) :
    (wordBytes w).reverse[k]? = some (w.extractLsb' (8 * k) 8) := by
  match k, hk with
  | 0, _ | 1, _ | 2, _ | 3, _ | 4, _ | 5, _ | 6, _ | 7, _ => rfl

/-- The bytes of the setup record are those it was made of, byte 0 least significant (R35). -/
theorem setupWord_byte {bytes : List Byte} (hl : bytes.length = 8) {k : Nat} (hk : k < 8) :
    bytes[k]? = some ((setupWord bytes).extractLsb' (8 * k) 8) := by
  have back : (wordBytes (setupWord bytes)).reverse = bytes := by
    match bytes, hl with
    | [b0, b1, b2, b3, b4, b5, b6, b7], _ => exact congrArg List.reverse (wordBytes_append b7 b6 b5 b4 b3 b2 b1 b0)
  rw [← wordBytes_reverse_byte (setupWord bytes) hk, back]

/-- The eight bytes N1 reads are those of the record it writes (R191, R35). -/
theorem newRequest_record {s u : State} (h : newRequest s = .ok u) : ∃ r,
    u = ((s.record r).setCtl csSetup).emit (.newReq r) ∧
    ∀ k, k < 8 → s.ramByte (s.par.ep0OutBuf.toNat + k) = some (r.extractLsb' (8 * k) 8) := by
  obtain ⟨bytes, -, hb, rfl⟩ := newRequest_ok.1 h
  obtain ⟨length, each⟩ := ramBytes_some hb
  exact ⟨_, rfl, fun k hk => (each k hk).trans (setupWord_byte length hk)⟩

/-- The word is N1, with the dispatch to follow in the context of the transaction-complete handler (R191). -/
theorem execEvNewrequest_next {s t : State} (h : exec .evNewrequest s = .next t) :
    ∃ u, newRequest s = .ok u ∧ t = ((u.follow [.call]).dispatchContext).give .none := by
  obtain ⟨-, v, hv, rfl⟩ := command_next.1 h
  obtain ⟨w, hw, rfl⟩ := map_ok.1 hv
  obtain ⟨u, hu, rfl⟩ := map_ok.1 hw
  exact ⟨u, hu, rfl⟩

/-- Settles O32: N1 reads the eight bytes or stops at the first with no value, and writes the record. -/
theorem newRequest_spec : Obligations.NewRequest := by
  intro s hb hp
  have inside : s.par.ep0OutBuf.toNat + 8 ≤ ramSize s.par := by
    have := maxPkt_ge s.par.ep0Size
    simp only [paramsLegal, maxPkt0] at hp
    omega
  refine ⟨fun missing => ?novalue, fun held => ?next⟩
  case novalue =>
    have stop : newRequest s = .error .cvNovalue := by
      rw [newRequest, memRead_novalue inside missing]
      rfl
    exact command_of_error hb (map_of_error (map_of_error stop))
  case next =>
    obtain ⟨bytes, hr, -⟩ := memRead_of_le inside held
    have answer := newRequest_ok.2 ⟨bytes, inside, (memRead_ok.1 hr).2, rfl⟩
    obtain ⟨r, written, record⟩ := newRequest_record answer
    rw [written] at answer
    have done : exec .evNewrequest s = _ := command_of_ok hb (map_of_ok (map_of_ok answer))
    refine ⟨_, r, done, rfl, rfl, record, rfl, rfl, rfl, rfl, rfl, ?latches, fun d e => ?eps, fun a => ?ram, ?globals,
      ?launch, ?ports⟩
    all_goals simp [sameLatches, sameGlobalsBut, sameLaunch, samePorts]

/-! ## `EV_CTLOUT_DONE` -/

/-- What the event does to EP0 IN: armed with no bytes after the data of a control write, cancelled where the host ended
the data stage of a control read early (R196). -/
def outDonePrep (s : State) : Except Fault State :=
  if s.ctlstate = csDataOut then armIn 0 s else if s.ctlstate = csDataIn then epCancel 0 .IN s else .ok s

/-- What the event leaves `CTLSTATE` at (R196). -/
def outDoneCtl (c : Byte) : Byte :=
  if c = csDataOut then csStatusIn else if c = csDataIn then csIdle else if c = csStatusOut then csIdle else c

/-- Writing `CTLSTATE` to what it is, after `RearmOut`, changes nothing. -/
theorem rearmOut_keeps_ctl (s : State) : rearmOut s = (rearmOut s).map (·.setCtl s.ctlstate) := by
  cases h : rearmOut s with
  | error => rfl
  | ok t =>
    obtain ⟨-, -, ctl, -⟩ := rearmOut_kept h
    exact congrArg Except.ok (ctl ▸ rfl : t = t.setCtl s.ctlstate)

/-- The event, one branch for each state of the engine (R196). -/
theorem evCtloutDone_eq {s : State} {n : BitVec 7} (hn : (s.ep .OUT 0).cnt .b0 = some n) :
    evCtloutDone s = thenRearm (outDoneCtl s.ctlstate) (outDonePrep (s.emit (.ctlOut n))) := by
  rw [evCtloutDone, hn]
  refine (bind_of_ok rfl).trans ?_
  simp only [bind_pure_eq_map, outDonePrep, outDoneCtl, emit_fields]
  by_cases out : s.ctlstate = csDataOut
  · simp only [if_pos out]
    rfl
  by_cases inn : s.ctlstate = csDataIn
  · simp only [if_neg out, if_pos inn]
    rfl
  by_cases status : s.ctlstate = csStatusOut
  · simp only [if_neg out, if_neg inn, if_pos status]
    rfl
  · simp only [if_neg out, if_neg inn, if_neg status]
    exact rearmOut_keeps_ctl _

/-- What the event leaves EP0 IN at, in the words of R196. -/
def outDoneIn (s : State) (x : EpRegs) : Prop :=
  if s.ctlstate = csDataOut then armedAs (s.ep .IN 0) x .b0 0 s.par.ep0InBuf
  else if s.ctlstate = csDataIn then
    onlyStatus (s.ep .IN 0) x ∧ (∀ b, x.nack b = true) ∧ sameBitsBut (s.ep .IN 0).status x.status [0, 1]
  else x = s.ep .IN 0

/-- `RearmOut` finds the buffer of EP0 OUT free, after the cancellation of EP0 IN where that comes first (R196). -/
def outDoneFree (s : State) : Prop :=
  (s.ep .OUT 0).nack .b0 = true → ¬∃ d e b x, ¬(s.ctlstate = csDataIn ∧ d = .IN ∧ e = 0) ∧
    (s.par.ep0OutBuf.toNat ≤ x ∧ x < s.par.ep0OutBuf.toNat + maxPkt0 s.par) ∧ bankOwns s d e b x

section
variable {s : State}

/-- Outside `DataInStage` nothing is cancelled, and every armed bank counts. -/
theorem outDoneFree_iff (h : s.ctlstate ≠ csDataIn) : outDoneFree s ↔ outBufFree s := by
  simp only [outDoneFree, outBufFree, hardwareOwns_iff, h, false_and, not_false_eq_true, true_and]

variable (hp : paramsLegal s.par) (hu : ep0Usable s)
include hp hu

/-- Arming EP0 IN with no bytes fails only where it is armed (R196). -/
theorem outDonePrep_of_armed (hc : s.ctlstate = csDataOut) (hn : (s.ep .IN 0).nack .b0 = false) :
    outDonePrep s = .error .cvDoublearm :=
  (if_pos hc).trans (armIn_of_armed hp hu (Nat.zero_le _) hn)

/-- What the event does to EP0 IN, and which banks `RearmOut` then finds armed (R196). -/
theorem outDonePrep_ok (hn : s.ctlstate = csDataOut → (s.ep .IN 0).nack .b0 = true) :
    ∃ x, outDonePrep s = .ok (s.setEp .IN 0 x) ∧ outDoneIn s x ∧ (outBufFree (s.setEp .IN 0 x) ↔ outDoneFree s) := by
  unfold outDonePrep outDoneIn
  by_cases out : s.ctlstate = csDataOut
  · obtain ⟨x, hx, armed⟩ := armIn_of_free (size := 0) hp (hu .IN).1 (hu .IN).2 (hn out) (Nat.zero_le _)
      (not_hardwareOwns_zero s _)
    simp only [if_pos out]
    rw [outDoneFree_iff (by rw [out]; decide)]
    exact ⟨x, hx, armed, outBufFree_of_armIn (hn out) armed, outBufFree_armIn hp (Nat.zero_le _) armed⟩
  simp only [if_neg out]
  by_cases inn : s.ctlstate = csDataIn
  · have idle := nack_cancelled (s.ep .IN 0)
    simp only [if_pos inn]
    refine ⟨_, epCancel_ok.2 ⟨hp.1, (hu .IN).1, rfl⟩,
      ⟨onlyStatus_orStatus .., idle, sameBitsBut_or _ _ _ (by decide)⟩, ?_⟩
    simp only [outBufFree_setEp_idle idle, outDoneFree, inn, true_and]
  · simp only [if_neg inn]
    rw [outDoneFree_iff inn]
    exact ⟨s.ep .IN 0, by rw [setEp_self], rfl, by rw [setEp_self]⟩

end

/-- Settles O33: what the event does to EP0 IN, and then the end of every branch. -/
theorem ctlOutDone : Obligations.CtlOutDone := by
  intro s hb
  refine ⟨fun none => ?novalue, fun n hn hp hu => ⟨fun out armed => ?doublearm, fun idle taken => ?owned,
    fun idle free => ?next⟩⟩
  case novalue =>
    have stop : evCtloutDone s = .error .cvNovalue := by
      rw [evCtloutDone, valueOf_none none]
      rfl
    exact command_of_error hb stop
  all_goals have eq := evCtloutDone_eq hn
  case doublearm =>
    exact command_of_error hb (eq.trans (thenRearm_of_error _
      (outDonePrep_of_armed (s := s.emit (.ctlOut n)) hp hu out armed)))
  all_goals
    obtain ⟨x, hx, left, buffer⟩ := outDonePrep_ok (s := s.emit (.ctlOut n)) hp hu idle
  case owned => exact command_of_error hb (eq.trans (thenRearm_of_owned hx hp hu _ fun free => taken (buffer.1 free)))
  case next =>
    obtain ⟨t, done, out, left, armed, ctl, eps, ram, globals, launch, hidden, trace, ports⟩ :=
      command_thenRearm hx hp hu (outDoneIn (s.emit (.ctlOut n))) hb eq left (buffer.2 free)
    refine ⟨t, done, out, trace, armed, ?cases, eps, ram, globals, launch, hidden, ports⟩
    have left : outDoneIn s (t.ep .IN 0) := left
    have ctl : t.ctlstate = outDoneCtl s.ctlstate := ctl
    change if s.ctlstate = csDataOut then _ else if s.ctlstate = csDataIn then _ else
      if s.ctlstate = csStatusOut then _ else _
    unfold outDoneIn at left
    unfold outDoneCtl at ctl
    by_cases out : s.ctlstate = csDataOut
    · simp only [if_pos out] at left ctl ⊢
      exact ⟨left, ctl⟩
    simp only [if_neg out] at left ctl ⊢
    by_cases inn : s.ctlstate = csDataIn
    · simp only [if_pos inn] at left ctl ⊢
      obtain ⟨only, idle, bits⟩ := left
      exact ⟨only, idle, bits, ctl⟩
    simp only [if_neg inn] at left ctl ⊢
    by_cases status : s.ctlstate = csStatusOut
    · rw [if_pos status] at ctl ⊢
      exact ⟨left, ctl⟩
    · rw [if_neg status] at ctl ⊢
      exact ⟨left, ctl⟩

end Sys2Proof.Machine
end

section
/-! SUPPORT. The transition table of the engine (R208), what each command and event leaves `CTLSTATE` at, and the halt
condition as a level (R204). -/
namespace Sys2Proof.Machine

/-! ## `CTLSTATE` -/

/-- What `EV_CTLIN_DONE` leaves `CTLSTATE` at (R197). -/
def inDoneCtl (stale : Bool) (c : Byte) : Byte :=
  if stale = true then c else if c = csDataIn then csStatusOut else if c = csStatusIn then csIdle else c

/-- `EV_CTLIN_DONE` notes the completion and writes `CTLSTATE` (R197). -/
theorem evCtlinDone_setCtl (stale : Bool) (s : State) :
    evCtlinDone stale s = (s.emit (.ctlIn stale)).setCtl (inDoneCtl stale s.ctlstate) := by
  have note : (s.emit (.ctlIn stale)).ctlstate = s.ctlstate := rfl
  simp only [evCtlinDone, inDoneCtl, note]
  split
  · rfl
  split
  · rfl
  split <;> rfl

/-- Settles O34: the event notes the completion and writes `CTLSTATE`. -/
theorem ctlInDone : Obligations.CtlInDone := by
  intro s stale hb
  refine ⟨_, command_of_ok hb (congrArg Except.ok (evCtlinDone_setCtl stale s)), rfl, rfl, rfl, fun _ _ => rfl,
    fun _ => rfl, ?_, ⟨rfl, rfl, rfl⟩, ⟨rfl, rfl, rfl, rfl, rfl, rfl, rfl, rfl, rfl⟩, rfl, rfl, rfl, rfl⟩
  simp [sameGlobalsBut]

/-- Every branch ends with `CTLSTATE` written (R205, R208). -/
theorem thenRearm_ctl {c : Byte} {prep : Except Fault State} {u : State} (h : thenRearm c prep = .ok u) :
    u.ctlstate = c := by
  obtain ⟨a, -, h⟩ := bind_ok.1 h
  obtain ⟨b, -, rfl⟩ := map_ok.1 h
  rfl

/-- `EV_CTLOUT_DONE` leaves `CTLSTATE` as its column of the table says (R196, R208). -/
theorem evCtloutDone_ctl {s u : State} (h : evCtloutDone s = .ok u) : u.ctlstate = outDoneCtl s.ctlstate := by
  obtain ⟨n, hn, -⟩ := bind_ok.1 h
  rw [evCtloutDone_eq (valueOf_ok.1 hn)] at h
  exact thenRearm_ctl h

/-- The column of `EV_CTLOUT_DONE` in the order of the table's rows (R208). -/
theorem outDoneCtl_rows : ∀ c : Byte, outDoneCtl c =
    if c = 0x02 then 0x00 else if c = 0x03 then 0x0D else if c = 0x05 then 0x00 else c := by decide

/-- What holds of the state a command leaves, whatever the output, holds of what its operation leaves. -/
theorem command_leaves {s t : State} {r : Except Fault State} {P : State → Prop} (h : command s r = .next t)
    (hr : ∀ u, r = .ok u → P (u.give .none)) : P t := by
  obtain ⟨-, u, hu, rfl⟩ := command_next.1 h
  exact hr u hu

/-- `CTLSTATE` is what the operation leaves it at. -/
theorem command_ctl {s t : State} {r : Except Fault State} {c : Byte} (h : command s r = .next t)
    (hr : ∀ u, r = .ok u → u.ctlstate = c) : t.ctlstate = c := command_leaves (P := (·.ctlstate = c)) h hr

/-- EP0 OUT is armed where the operation leaves it so. -/
theorem command_armed {s t : State} {r : Except Fault State} (h : command s r = .next t)
    (hr : ∀ u, r = .ok u → (u.ep .OUT 0).nack .b0 = false) : (t.ep .OUT 0).nack .b0 = false :=
  command_leaves (P := fun t => (t.ep .OUT 0).nack .b0 = false) h hr

/-- Settles O35: each column of the table is what its operation leaves `CTLSTATE` at. -/
theorem ctlTable : Obligations.CtlTable := by
  intro s hb
  refine ⟨fun t h => ?newrequest, fun i terminal out => ?outside,
    fun t n h => command_ctl h fun u hu => ?ctlIn, fun t h => command_ctl h fun u hu => ?ctlOut,
    fun t h => command_ctl h fun u hu => ?ctlAck, fun t h => command_ctl h fun u hu => ?ctlStall,
    fun t h => command_ctl h fun u hu => ?outDone, fun t h => command_ctl h fun u hu => ?inDone,
    fun t h => command_ctl h fun u hu => ?stale, fun t h => command_ctl h fun u hu => ?reinit⟩
  case newrequest =>
    obtain ⟨u, hu, rfl⟩ := execEvNewrequest_next h
    obtain ⟨r, rfl, -⟩ := newRequest_record hu
    rfl
  case outside =>
    rcases terminal with ⟨n, rfl⟩ | rfl | rfl | rfl <;> exact command_of_error hb (inDispatch_of_ne out)
  case ctlIn =>
    obtain ⟨-, -, ctl, -⟩ := ctlIn_kept hu
    exact ctl
  case ctlOut =>
    obtain ⟨-, -, ctl, -⟩ := ctlOut_kept hu
    exact ctl
  case ctlAck =>
    obtain ⟨-, -, ctl, -⟩ := ctlAck_kept hu
    exact ctl
  case ctlStall =>
    obtain ⟨-, ctl, -⟩ := ctlStall_kept hu
    exact ctl
  case outDone => exact (evCtloutDone_ctl hu).trans (outDoneCtl_rows _)
  case inDone =>
    cases hu
    rw [evCtlinDone_setCtl]
    rfl
  case stale =>
    cases hu
    rw [evCtlinDone_setCtl]
    rfl
  case reinit => exact (usbReinit_kept hu).2

/-- Settles O60: each of the five ends with `RearmOut`. -/
theorem outRearmedAtEveryBranch : Obligations.OutRearmedAtEveryBranch := by
  intro i s t h branch
  rcases branch with ⟨n, rfl⟩ | rfl | rfl | rfl | rfl
  all_goals refine command_armed h fun u hu => ?_
  · obtain ⟨-, -, -, armed⟩ := ctlIn_kept hu
    exact armed
  · obtain ⟨-, -, -, armed⟩ := ctlOut_kept hu
    exact armed
  · obtain ⟨-, -, -, armed⟩ := ctlAck_kept hu
    exact armed
  · obtain ⟨-, -, armed, -⟩ := ctlStall_kept hu
    exact armed
  · obtain ⟨-, -, -, armed⟩ := evCtloutDone_kept hu
    exact armed

/-! ## The halt condition -/

/-- Everything an instruction can do to the halt condition of a direction (R204, R22). -/
def haltMoves (i : Instr) (s t : State) (d : Dir) (e : BitVec 4) : Prop :=
  (t.ep d e).stall = (s.ep d e).stall ∨
  ((t.ep d e).stall = false ∧ (i = .usbReinit ∨ (∃ ty c p, i = .epInit e d ty c p) ∨
    (t.out = .response .ack ∧ ∃ a p, i = .busSetup e a p))) ∨
  ((t.ep d e).stall = true ∧ (i = .epStall e d ∨ (e = 0 ∧ i = .ctlStall)))

/-- A group written: its own halt condition is what was written, every other stays. -/
theorem stall_setEp (s : State) (d d' : Dir) (e e' : BitVec 4) (x : EpRegs) :
    ((s.setEp d e x).ep d' e').stall = (s.ep d' e').stall ∨
    (d' = d ∧ e' = e ∧ ((s.setEp d e x).ep d' e').stall = x.stall) := by
  rw [ep_setEp]
  by_cases same : d' = d ∧ e' = e
  · rw [if_pos same]
    exact .inr ⟨same.1, same.2, rfl⟩
  · rw [if_neg same]
    exact .inl rfl

/-- `USB_REINIT` leaves no direction halted (R132). -/
theorem usbReinit_stall {s t : State} (h : usbReinit s = .ok t) (d : Dir) (e : BitVec 4) :
    (t.ep d e).stall = false := by
  obtain ⟨a, ha, h⟩ := bind_ok.1 h
  obtain ⟨b, hb, h⟩ := bind_ok.1 h
  obtain ⟨-, -, -, rfl⟩ := epInit_ok.1 ha
  obtain ⟨-, -, -, rfl⟩ := epInit_ok.1 hb
  obtain ⟨-, -, -, running⟩ := initialised_fields typeControl s.par.ep0Size false
  have off : EpRegs.off.stall = false := by decide
  rw [(epArm_kept h).2.1 d e, ep_setEp, ep_setEp, ep_clearAll]
  split
  · exact running
  split
  · exact running
  · exact off

section
variable {i : Instr} {s t : State} {d : Dir} {e : BitVec 4}

/-- A command whose operation keeps every halt condition. -/
theorem haltMoves_command {r : Except Fault State} (h : command s r = .next t)
    (hr : ∀ {u}, r = .ok u → stallKept s u) : haltMoves i s t d e :=
  .inl (command_leaves (P := fun t => (t.ep d e).stall = (s.ep d e).stall) h fun _ hu => hr hu d e)

/-- A command that cannot be turned down and leaves the register file alone. -/
theorem haltMoves_global {u : State} (h : command s (.ok u) = .next t) (hu : sameEps s u) : haltMoves i s t d e :=
  haltMoves_command h fun he d' e' => by rw [← Except.ok.inj he, hu d' e']

theorem haltMoves_query {r : Except Fault Word} (h : query s r = .next t) : haltMoves i s t d e := by
  obtain ⟨-, v, -, rfl⟩ := query_next.1 h
  exact .inl rfl

/-- A command that writes `STATUS` of one group, and answers what it held. -/
theorem haltMoves_returning {r : Except Fault (State × Byte)}
    (h : returning s (r.map fun v => (v.1, v.2.setWidth 64)) = .next t)
    (hr : ∀ {v}, r = .ok v → stallKept s v.1) : haltMoves i s t d e := by
  obtain ⟨-, u, hu, rfl⟩ := returning_next.1 h
  obtain ⟨v, hv, rfl⟩ := map_ok.1 hu
  exact .inl (hr hv d e)

/-- A bus event withdraws a halt only at an accepted SETUP (R143, R204). -/
theorem haltMoves_busEvent (hi : isBusEvent i = true) (h : exec i s = .next t) : haltMoves i s t d e := by
  obtain ⟨-, ctrl | ⟨ctrl, ack, setup⟩⟩ := busEvent_ep hi h d e
  · exact .inl (by rw [EpRegs.stall, ctrl, EpRegs.stall])
  · exact .inr (.inl ⟨(halt_cleared ctrl).1, .inr (.inr ⟨ack, setup⟩)⟩)

/-- Everything an instruction can do to a halt condition, row by row (R204). -/
theorem exec_haltMoves (h : exec i s = .next t) : haltMoves i s t d e := by
  cases i with
  | epInit e' d' ty c p =>
    refine command_leaves (P := (haltMoves _ s · d e)) h fun u hu => ?_
    obtain ⟨-, -, -, rfl⟩ := epInit_ok.1 hu
    rcases stall_setEp s d' d e' e (.initialised ty c p) with kept | ⟨rfl, rfl, written⟩
    · exact .inl kept
    · obtain ⟨-, -, -, running⟩ := initialised_fields ty c p
      exact .inr (.inl ⟨written.trans running, .inr (.inl ⟨ty, c, p, rfl⟩)⟩)
  | epStall e' d' =>
    refine command_leaves (P := (haltMoves _ s · d e)) h fun u hu => ?_
    obtain ⟨-, -, rfl⟩ := epStall_ok.1 hu
    rcases stall_setEp s d' d e' e (s.ep d' e').setStall with kept | ⟨rfl, rfl, written⟩
    · exact .inl kept
    · exact .inr (.inr ⟨written.trans (stall_setStall _), .inl rfl⟩)
  | usbReinit =>
    exact command_leaves (P := (haltMoves _ s · d e)) h fun u hu => .inr (.inl ⟨usbReinit_stall hu d e, .inl rfl⟩)
  | ctlStall =>
    refine command_leaves (P := (haltMoves _ s · d e)) h fun u hu => ?_
    obtain ⟨-, -, -, stall⟩ := ctlStall_kept hu
    rcases stall d e with kept | ⟨zero, halted⟩
    · exact .inl kept
    · exact .inr (.inr ⟨halted, .inr ⟨zero, rfl⟩⟩)
  | epCancel => exact haltMoves_command h fun hu => (epCancel_kept hu).2.1
  | epArm => exact haltMoves_command h fun hu => (epArm_kept hu).2.1
  | epClrdone =>
    refine haltMoves_command h fun hu => ?_
    obtain ⟨-, -, rfl⟩ := epClrdone_ok.1 hu
    exact stallKept_setEp rfl
  | epTac =>
    refine haltMoves_returning h fun hv => ?_
    obtain ⟨-, rfl⟩ := epTac_ok.1 hv
    exact stallKept_setEp rfl
  | epTas =>
    refine haltMoves_returning h fun hv => ?_
    obtain ⟨-, rfl⟩ := epTas_ok.1 hv
    exact stallKept_setEp rfl
  | ctlIn => exact haltMoves_command h fun hu => (ctlIn_kept hu).2.1
  | ctlOut => exact haltMoves_command h fun hu => (ctlOut_kept hu).2.1
  | ctlAck => exact haltMoves_command h fun hu => (ctlAck_kept hu).2.1
  | bridgeCopy => exact haltMoves_command h fun hu => (bridgeCopy_kept hu).2.1
  | bufCopy => exact haltMoves_command h fun hu => (bufCopy_kept hu).2.1
  | evCtloutDone => exact haltMoves_command h fun hu => (evCtloutDone_kept hu).2.1
  | evCtlinDone f =>
    exact haltMoves_command h fun hu => Except.ok.inj hu ▸ (evCtlinDone_kept f s).2.1
  | ramWr =>
    refine haltMoves_command h fun hu => ?_
    obtain ⟨_, -, rfl⟩ := map_ok.1 hu
    exact fun _ _ => rfl
  | evNewrequest =>
    obtain ⟨u, hu, rfl⟩ := execEvNewrequest_next h
    obtain ⟨r, rfl, -⟩ := newRequest_record hu
    exact .inl (by simp)
  | ifaClr | ifbClr | setAddr | attach | detach | intEnable | nvmcmdWr | svcBusevent | svcTrncompl =>
    exact haltMoves_global h fun _ _ => rfl
  | epIsdone | epIsready | epIsempty | epNextbank | epRdstatus | epRdcnt | epRdctrl | gRd | ramRd =>
    exact haltMoves_query h
  | busSetup | busOut | busIn | busSof | busReset | busSuspend | busResume | busCrcerr =>
    exact haltMoves_busEvent rfl h

end

/-- Settles O59: what cleared it left it clear, and what set it left it set. -/
theorem stallIsLevel : Obligations.StallIsLevel := by
  intro i s t d e h
  rcases exec_haltMoves (d := d) (e := e) h with kept | ⟨clear, cause⟩ | ⟨set, cause⟩
  · rw [kept]
    exact ⟨fun on off => absurd (on.symm.trans off) (by decide), fun off on => absurd (on.symm.trans off) (by decide)⟩
  · exact ⟨fun _ _ => cause, fun _ on => absurd (on.symm.trans clear) (by decide)⟩
  · exact ⟨fun _ off => absurd (set.symm.trans off) (by decide), fun _ _ => cause⟩

end Sys2Proof.Machine
end

section
/-! SUPPORT. The dispatch of a request (R191 to R199): the call of N2 row by row of R192, its steps as commands of the
same names, and how it ends. -/
namespace Sys2Proof.Machine

/-! ## The table of R192 -/

section
variable {p : Params} {r : Word}

theorem classify_getDescriptor (kind : requestKind r = kindStandard) (req : bRequest r = reqGetDescriptor) :
    classify p r = .getDescriptor := if_pos ⟨kind, req⟩

theorem classify_setConfiguration (kind : requestKind r = kindStandard) (req : bRequest r = reqSetConfiguration) :
    classify p r = .setConfiguration := by
  simp [classify, kind, req, reqGetDescriptor, reqSetConfiguration]

theorem classify_setInterface (kind : requestKind r = kindStandard) (req : bRequest r = reqSetInterface) :
    classify p r = .setInterface := by
  simp [classify, kind, req, reqGetDescriptor, reqSetConfiguration, reqSetInterface]

theorem classify_vendor (kind : requestKind r = kindVendor) (req : bRequest r = p.vendorCode) :
    classify p r = .vendor := by
  simp [classify, kind, req, kindStandard, kindVendor]

theorem classify_external
    (standard : ¬(requestKind r = kindStandard ∧
      (bRequest r = reqGetDescriptor ∨ bRequest r = reqSetConfiguration ∨ bRequest r = reqSetInterface)))
    (vendor : ¬(requestKind r = kindVendor ∧ bRequest r = p.vendorCode)) : classify p r = .external := by
  rw [classify, if_neg fun h => standard ⟨h.1, .inl h.2⟩, if_neg fun h => standard ⟨h.1, .inr (.inl h.2)⟩,
    if_neg fun h => standard ⟨h.1, .inr (.inr h.2)⟩, if_neg vendor]

end

/-! ## The call of N2 -/

/-- A byte of a field of the record is a byte of the record (R93). -/
theorem wValue_byte (r : Word) {i : Nat} (h : i + 8 ≤ 16) : (wValue r).extractLsb' i 8 = r.extractLsb' (16 + i) 8 := by
  rw [wValue]
  ext j hj
  simp [show i + j < 16 by omega, Nat.add_assoc]

section
variable {s : State} {r : Word} {rest : List DispStep} (hd : s.disp = .call :: rest) (hr : s.setuprec = some r)
include hd hr

/-- Row 1 of R192 (R193). -/
theorem microStep_getDescriptor (row : classify s.par r = .getDescriptor) :
    let x := s.env.descriptor (r.extractLsb' 24 8) (r.extractLsb' 16 8)
    microStep s = .ok ((s.emit (.call (.resolveDescriptor (r.extractLsb' 24 8) (r.extractLsb' 16 8) x))).plan
      (serveDescriptor s.par (wLength r) x)) := by
  rw [microStep_disp hd, ← wValue_byte r (i := 8) (by decide), ← wValue_byte r (i := 0) (by decide)]
  refine (bind_of_ok (valueOf_ok.2 hr)).trans ?_
  simp only [follow_fields, row]
  rfl

/-- Row 4 of R192 (R198). -/
theorem microStep_vendor (row : classify s.par r = .vendor) :
    let x := s.env.osDescriptor (wIndex r)
    microStep s = .ok ((s.emit (.call (.resolveOsDescriptor (wIndex r) x))).plan
      (serveDescriptor s.par (wLength r) x)) := by
  rw [microStep_disp hd]
  refine (bind_of_ok (valueOf_ok.2 hr)).trans ?_
  simp only [follow_fields, row]
  rfl

/-- Row 2 of R192 (R194). -/
theorem microStep_setConfiguration (row : classify s.par r = .setConfiguration) :
    let a := s.env.cfgAnswers.headD (Config.freeSetConfiguration s.tick (r.extractLsb' 16 8))
    microStep s = .ok ((State.emit { s with env := { s.env with cfgAnswers := s.env.cfgAnswers.drop 1 } }
      (.call (.onSetConfiguration (r.extractLsb' 16 8) a))).plan (serveHook a)) := by
  rw [microStep_disp hd, ← wValue_byte r (i := 0) (by decide), List.drop_one]
  refine (bind_of_ok (valueOf_ok.2 hr)).trans ?_
  simp only [follow_fields, row]
  rfl

/-- Row 3 of R192 (R195). -/
theorem microStep_setInterface (row : classify s.par r = .setInterface) :
    let a := s.env.ifAnswers.headD (Config.freeSetInterface s.tick (wIndex r) (wValue r))
    microStep s = .ok ((State.emit { s with env := { s.env with ifAnswers := s.env.ifAnswers.drop 1 } }
      (.call (.onSetInterface (wIndex r) (wValue r) a))).plan (serveHook a)) := by
  rw [microStep_disp hd, List.drop_one]
  refine (bind_of_ok (valueOf_ok.2 hr)).trans ?_
  simp only [follow_fields, row]
  rfl

end

/-! ## What follows the call -/

/-- The clamp is the smaller of the two lengths (R193). -/
theorem clamp_toNat (length wLen : BitVec 16) : (clamp length wLen).toNat = min length.toNat wLen.toNat := by
  unfold clamp
  split
  case isTrue le => exact (Nat.min_eq_left le).symm
  case isFalse gt => exact (Nat.min_eq_right (Nat.le_of_not_le gt)).symm

/-- The steps after a resolver found a descriptor (R193). -/
theorem serveDescriptor_found (p : Params) (wLen : BitVec 16) (space : Space) (addr : Addr) (length : BitVec 16) :
    let l := serveDescriptor p wLen (.found space addr length)
    let n := min length.toNat wLen.toNat
    if length = 0 then l = [.ctlStall]
    else if n = 0 then l = [.ctlAck]
    else if maxPkt0 p < n then l = [.overrun]
    else ∃ m : BitVec 16, m.toNat = n ∧
      (space = .PMEM → l = [.bridgeCopy m addr, .ctlIn m]) ∧ (space = .RAM → l = [.bufCopy m addr, .ctlIn m]) := by
  have size := clamp_toNat length wLen
  have none_iff : clamp length wLen = 0 ↔ (clamp length wLen).toNat = 0 := BitVec.toNat_eq
  simp only [serveDescriptor, ← size, none_iff]
  split
  · rfl
  split
  · rfl
  split
  · rfl
  refine ⟨_, rfl, ?_, ?_⟩
  · rintro rfl
    rfl
  · rintro rfl
    rfl

/-- Settles O50: rows 1 and 4 differ in the resolver alone. -/
theorem dispatchDescriptor : Obligations.DispatchDescriptor := by
  intro s r rest hd hr x c row
  have step : microStep s = .ok ((s.emit (.call c)).plan (serveDescriptor s.par (wLength r) x)) := by
    rcases row with ⟨kind, req, rfl, rfl⟩ | ⟨kind, req, rfl, rfl⟩
    · exact microStep_getDescriptor hd hr (classify_getDescriptor kind req)
    · exact microStep_vendor hd hr (classify_vendor kind req)
  refine ⟨_, step, ?_, ?_⟩
  · rintro rfl
    rfl
  · rintro space addr length rfl
    exact serveDescriptor_found ..

/-- A queue that is not empty answers with its head, whatever is free otherwise (R206). -/
theorem headD_of_queued {α : Type} {l : List α} {d : α} : ∀ b q, l = b :: q → l.headD d = b := by
  rintro b q rfl
  rfl

/-- The answer of a hook is followed by `CTL_ACK` or `CTL_STALL` (R194, R195). -/
theorem serveHook_eq (a : Bool) : serveHook a = [if a = true then .ctlAck else .ctlStall] := by
  cases a <;> rfl

/-- Settles O51: rows 2 and 3, each with its own queue. -/
theorem dispatchHook : Obligations.DispatchHook := by
  intro s r rest hd hr kind
  refine ⟨fun req => ?configuration, fun req => ?interface⟩
  case configuration =>
    have step := microStep_setConfiguration hd hr (classify_setConfiguration kind req)
    simp only [serveHook_eq] at step
    exact ⟨_, headD_of_queued, step⟩
  case interface =>
    have step := microStep_setInterface hd hr (classify_setInterface kind req)
    simp only [serveHook_eq] at step
    exact ⟨_, headD_of_queued, step⟩

/-! ## `onSetupRequest` -/

/-- The state after `onSetupRequest` was asked and the call noted (R199, R206). -/
def State.asked (s : State) (x : SetupOutcome) : State :=
  State.emit { s with env := { s.env with reqAnswers := s.env.reqAnswers.drop 1 } } (.call (.onSetupRequest x))

/-- The bytes the call stores: those of a reply that is not too long (R199, D41). -/
def storedReply (p : Params) (wLen : BitVec 16) (x : SetupOutcome) : List Byte :=
  if replyTooLong p wLen x then [] else replyBytes x

/-- The steps that end the branch (R199). -/
def replySteps (p : Params) (wLen : BitVec 16) (x : SetupOutcome) : List DispStep :=
  if replyTooLong p wLen x then [.overrun] else serveRequest x

/-- The state the call leaves (R199). -/
def State.replied (s : State) (wLen : BitVec 16) (x : SetupOutcome) : State :=
  ((s.asked x).setRamBytes s.par.ep0InBuf.toNat (storedReply s.par wLen x)).plan (replySteps s.par wLen x)

/-- Only the bytes of a `DataIn` can be too many (R199). -/
theorem replyTooLong_dataIn {p : Params} {wLen : BitVec 16} {bytes : List Byte} :
    replyTooLong p wLen (.dataIn bytes) = true ↔ maxPkt0 p < bytes.length ∨ wLen.toNat < bytes.length := by
  simp [replyTooLong]

/-- A reply that is not too long fits a packet (R199). -/
theorem length_replyBytes {p : Params} {wLen : BitVec 16} {x : SetupOutcome} (h : replyTooLong p wLen x = false) :
    (replyBytes x).length ≤ maxPkt0 p := by
  cases x with
  | dataIn bytes =>
    rw [← Bool.not_eq_true, replyTooLong_dataIn, not_or] at h
    exact Nat.not_lt.1 h.1
  | dataOut | ack | ackDetach | stall | none => exact Nat.zero_le _

section
variable {s : State} {r : Word} {rest : List DispStep}

/-- Row 5 of R192 (R199): the reply is stored where it fits, which is inside the EP0 IN buffer (R6). -/
theorem microStep_external (hd : s.disp = .call :: rest) (hr : s.setuprec = some r) (hp : paramsLegal s.par)
    (row : classify s.par r = .external) :
    microStep s = .ok ((s.follow rest).replied (wLength r)
      (s.env.reqAnswers.headD (Config.freeSetupRequest s.tick r))) := by
  rw [microStep_disp hd, State.replied, State.asked, List.drop_one]
  refine (bind_of_ok (valueOf_ok.2 hr)).trans ?_
  simp only [follow_fields, row, State.askRequest, storedReply, replySteps]
  generalize s.env.reqAnswers.headD (Config.freeSetupRequest s.tick r) = x
  cases long : replyTooLong s.par (wLength r) x with
  | true => rfl
  | false =>
    refine (if_neg (by decide)).trans (bind_of_ok (memWrite_of_le ?_))
    have := length_replyBytes long
    simp only [paramsLegal, ramSize] at hp
    simp only [emit_fields]
    omega

end

section
variable (s : State) (wLen : BitVec 16) (x : SetupOutcome)

/-- The call notes itself, uses up an answer and lays out the rest; beyond that it writes `RAM` alone (R199). -/
theorem replied_frame : (s.replied wLen x).trace = s.trace ++ [.call (.onSetupRequest x)] ∧
    (s.replied wLen x).env = { s.env with reqAnswers := s.env.reqAnswers.drop 1 } ∧ sameEps s (s.replied wLen x) ∧
    sameGlobalsBut s (s.replied wLen x) [] ∧ samePorts s (s.replied wLen x) ∧ (s.replied wLen x).hRun = s.hRun ∧
    (s.replied wLen x).hStep = s.hStep ∧ sameLatches s (s.replied wLen x) ∧ (s.replied wLen x).par = s.par ∧
    (s.replied wLen x).pmem = s.pmem := by
  have eps : sameEps s (s.replied wLen x) :=
    sameEps_of_regs (by simp [State.replied, State.asked]) (by simp [State.replied, State.asked])
  refine ⟨?_, ?_, eps, ?_, ?_, ?_, ?_, ?_, ?_, ?_⟩
  all_goals simp [State.replied, State.asked, sameGlobalsBut, samePorts, sameLatches]

/-- `RAM` after the call is as it was but for the bytes stored (R199). -/
theorem ramByte_replied (a : Nat) : (s.replied wLen x).ramByte a =
    (s.setRamBytes s.par.ep0InBuf.toNat (storedReply s.par wLen x)).ramByte a := by
  have laid : (s.replied wLen x).ramByte a =
      ((s.asked x).setRamBytes s.par.ep0InBuf.toNat (storedReply s.par wLen x)).ramByte a := rfl
  rw [laid, ramByte_setRamBytes, ramByte_setRamBytes]
  rfl

/-- With nothing to store `RAM` stays. -/
theorem sameRam_replied (h : storedReply s.par wLen x = []) : sameRam s (s.replied wLen x) := by
  intro a
  rw [ramByte_replied, h]
  rfl

end

/-- Settles O52: the state of `State.replied`, outcome by outcome. -/
theorem dispatchExternal : Obligations.DispatchExternal := by
  intro s r rest hd hr hp standard vendor
  have step := microStep_external hd hr hp (classify_external standard vendor)
  generalize answer : s.env.reqAnswers.headD (Config.freeSetupRequest s.tick r) = x at step
  have queued : ∀ y q, s.env.reqAnswers = y :: q → x = y := fun y q h => answer.symm.trans (headD_of_queued y q h)
  obtain ⟨trace, env, eps, globals, ports, run, micro, latches, par, pmem⟩ :=
    replied_frame (s.follow rest) (wLength r) x
  refine ⟨x, _, replySteps s.par (wLength r) x, queued, step, trace, rfl, env, eps, globals, ports, run, micro, latches,
    par, pmem, fun other => ?quiet, ?_, ?_, ?_, ?_, ?_, ?bytes⟩
  case quiet =>
    refine sameRam_replied _ _ _ ?_
    cases x with
    | dataIn bytes => exact absurd rfl (other bytes)
    | dataOut | ack | ackDetach | stall | none => rfl
  case bytes =>
    rintro bytes rfl
    have ram := ramByte_replied (s.follow rest) (wLength r) (.dataIn bytes)
    split
    case isTrue long =>
      have long := replyTooLong_dataIn.2 long
      exact ⟨if_pos long, sameRam_replied _ _ _ (if_pos long)⟩
    case isFalse fits =>
      have fits := mt replyTooLong_dataIn.1 fits
      have stored : storedReply s.par (wLength r) (.dataIn bytes) = bytes := if_neg fits
      simp only [follow_fields, stored] at ram
      refine ⟨⟨_, ?_, if_neg fits⟩, fun k hk => (ram _).trans (ramByte_stored _ _ _ hk), fun a ha => (ram a).trans ?_⟩
      · have packet : bytes.length ≤ maxPkt0 s.par :=
          length_replyBytes (x := .dataIn bytes) (eq_false_of_ne_true fits)
        have := maxPkt_le s.par.ep0Size
        rw [maxPkt0] at packet
        exact Nat.mod_eq_of_lt (by omega)
      · exact setRamBytes_frame (s.follow rest) _ bytes a ha
  all_goals
    rintro rfl
    rfl

/-! ## The end of a dispatch -/

section
variable {again s : State} (he : 0 < s.par.nEp) (ht : (s.ep .IN 0).type ≠ typeDisabled)
include he ht

/-- One turn of the wait asks for either completion flag of EP0 IN (R103, R114). -/
theorem pollStatus_eq : pollStatus again s =
    .ok (if boolWord ((s.ep .IN 0).done .b0 || (s.ep .IN 0).done .b1) = 1 then s else again) :=
  map_of_ok ((onInit_of_type (e := 0) he ht).trans rfl)

/-- With both flags clear it waits (R103, R294). -/
theorem pollStatus_waits (clear : (s.ep .IN 0).done .b0 = false ∧ (s.ep .IN 0).done .b1 = false) :
    pollStatus again s = .ok again := by
  rw [pollStatus_eq he ht, clear.1, clear.2]
  rfl

/-- With one set it goes on (R103). -/
theorem pollStatus_goes_on (set : (s.ep .IN 0).done .b0 = true ∨ (s.ep .IN 0).done .b1 = true) :
    pollStatus again s = .ok s := by
  rw [pollStatus_eq he ht, (Bool.or_eq_true _ _).mpr set]
  rfl

end

/-- Settles O53: each of the steps that end a dispatch. -/
theorem dispatchEnds : Obligations.DispatchEnds := by
  intro s x rest hd
  have step := microStep_disp hd
  refine ⟨?overrun, ?again, ?ends, ?poll, ?detach⟩
  case overrun =>
    rintro rfl
    exact step
  case again =>
    rintro rfl inside
    exact step.trans (if_pos inside)
  case ends =>
    rintro rfl outside
    exact step.trans (if_neg outside)
  case poll =>
    rintro rfl he ht
    exact ⟨fun clear => step.trans (pollStatus_waits (s := s.follow rest) he ht clear),
      fun set => step.trans (pollStatus_goes_on (s := s.follow rest) he ht set)⟩
  case detach =>
    rintro rfl
    refine ⟨_, step, ?_, sameBitsBut_clear s.gctrl 0x01 [0] (by decide), ?_⟩
    · exact (getLsbD_clear s.gctrl 0x01 0).trans (Bool.and_false _)
    · exact ⟨fun _ _ => rfl, fun _ => rfl, (detach_calm (s.follow rest)).globals, sameRest_refl _⟩

/-! ## The steps that are commands -/

/-- A step of a dispatch that is a command: the command looks at no hidden state, so that what it leaves on an idle
machine it leaves here (R191, R192). -/
theorem microStep_command {f : State → Except Fault State}
    (hf : ∀ s h n l o, f (s.inContext h n l o) = (f s).map (·.inContext h n l o)) {s u : State} {rest : List DispStep}
    {x : DispStep} (hd : s.disp = x :: rest) (hx : ∀ w v, runDispStep w v x = f v)
    (h : command { s with hRun := .none, disp := [] } (f { s with hRun := .none, disp := [] }) = .next u) :
    microStep s = .ok { u with hRun := s.hRun, disp := rest, out := s.out } := by
  obtain ⟨-, v, hv, rfl⟩ := command_next.1 h
  have idle : f { s with hRun := .none, disp := [] } = (f (s.follow rest)).map _ :=
    hf (s.follow rest) .none s.hStep [] s.out
  obtain ⟨w, hw, rfl⟩ := map_ok.1 (idle.symm.trans hv)
  rw [microStep_disp hd, hx, hw]
  exact congrArg Except.ok (context_kept hf hw)

/-- Settles O54: each of the six looks at no hidden state. -/
theorem dispatchIssuesCommands : Obligations.DispatchIssuesCommands := by
  rintro s u x i rest hd (⟨n, rfl, rfl⟩ | ⟨rfl, rfl⟩ | ⟨rfl, rfl⟩ | ⟨rfl, rfl⟩ | ⟨n, a, rfl, rfl⟩ | ⟨n, a, rfl, rfl⟩) h
  · exact microStep_command (fun s h k l o => ctlIn_inContext s h k l o n) hd (fun _ _ => rfl) h
  · exact microStep_command ctlOut_inContext hd (fun _ _ => rfl) h
  · exact microStep_command ctlAck_inContext hd (fun _ _ => rfl) h
  · exact microStep_command ctlStall_inContext hd (fun _ _ => rfl) h
  · exact microStep_command (fun s h k l o => bridgeCopy_inContext s h k l o n a) hd (fun _ _ => rfl) h
  · exact microStep_command (fun s h k l o => bufCopy_inContext s h k l o n a) hd (fun _ _ => rfl) h

end Sys2Proof.Machine
end

section
/-! SUPPORT. The setup record (R207 (1), R35): of everything a step can do only N1 writes it. -/
namespace Sys2Proof.Machine

theorem kept.setuprec {s t : State} (h : kept s t) : t.setuprec = s.setuprec := by
  obtain ⟨-, -, -, -, -, -, -, record, -⟩ := h
  exact record

/-! ## Micro-steps -/

/-- The call of N2 reads the record (R199, R206). -/
theorem callCollaborator_setuprec {s t : State} (h : callCollaborator s = .ok t) : t.setuprec = s.setuprec := by
  obtain ⟨r, -, h⟩ := bind_ok.1 h
  split at h
  case h_5 =>
    simp only at h
    split at h
    · cases h
      rfl
    · obtain ⟨u, hu, h⟩ := bind_ok.1 h
      cases h
      exact (memWrite_kept hu).1.setuprec
  all_goals
    cases h
    rfl

/-- No step of a dispatch writes the record. -/
theorem runDispStep_setuprec {whole s t : State} {x : DispStep} (h : runDispStep whole s x = .ok t)
    (hw : whole.setuprec = s.setuprec) : t.setuprec = s.setuprec := by
  cases x with
  | call => exact callCollaborator_setuprec h
  | overrun => cases h
  | bridgeCopy => exact (bridgeCopy_kept h).1.setuprec
  | bufCopy => exact (bufCopy_kept h).1.setuprec
  | ctlIn => exact (ctlIn_kept h).1.setuprec
  | ctlOut => exact (ctlOut_kept h).1.setuprec
  | ctlAck => exact (ctlAck_kept h).1.setuprec
  | ctlStall => exact (ctlStall_kept h).1.setuprec
  | poll =>
    obtain ⟨r, -, rfl⟩ := map_ok.1 h
    split
    · rfl
    · exact hw
  | detach =>
    cases h
    rfl
  | n3 => rw [(checkDispatched_ok h).1]

/-- Nor does a micro-step of the bus-event handler (R171 to R175). -/
theorem busEventStep_setuprec {n : Nat} {s t : State} (h : busEventStep n s = .ok t) : t.setuprec = s.setuprec := by
  unfold busEventStep at h
  split at h
  · cases h
    rfl
  · obtain ⟨fa, -, rfl⟩ := map_ok.1 h
    obtain ⟨-, -, -, -, ⟨-, -, -, -, -, record, -⟩, -⟩ := serveGroup_frame fa s
    exact record (by decide)
  · obtain ⟨u, hu, rfl⟩ := map_ok.1 h
    exact (usbReinit_kept hu).1.setuprec

/-- Of the transaction-complete handler's micro-steps only T5 can, by N1 (R176, R191). -/
theorem trncomplStep_setuprec {n : Nat} {s t : State} (h : trncomplStep n s = .ok t) :
    t.setuprec = s.setuprec ∨ ∃ u, newRequest s = .ok u ∧ t = (u.follow [.call]).atStep 6 := by
  have acked : ∀ {d : Dir} {m : Byte} {r : State × Byte}, epTac 0 d m s = .ok r → r.1.setuprec = s.setuprec :=
    fun hr => (congrArg (·.1.setuprec) (epTac_ok.1 hr).2).trans (kept_setEp ..).setuprec
  unfold trncomplStep at h
  split at h
  · cases h
    exact .inl rfl
  · obtain ⟨v, -, rfl⟩ := map_ok.1 h
    exact .inl rfl
  · obtain ⟨so, -, h⟩ := bind_ok.1 h
    split at h
    · obtain ⟨r, hr, rfl⟩ := map_ok.1 h
      exact .inl (acked hr)
    split at h
    · obtain ⟨r, hr, rfl⟩ := map_ok.1 h
      exact .inl (acked hr)
    · cases h
      exact .inl rfl
  · obtain ⟨v, -, rfl⟩ := map_ok.1 h
    exact .inl rfl
  · obtain ⟨si, -, h⟩ := bind_ok.1 h
    split at h
    · obtain ⟨r, hr, rfl⟩ := map_ok.1 h
      exact .inl (acked hr)
    · cases h
      exact .inl rfl
  · obtain ⟨k, -, h⟩ := bind_ok.1 h
    split at h
    · obtain ⟨v, hv, rfl⟩ := map_ok.1 h
      obtain ⟨u, hu, rfl⟩ := map_ok.1 hv
      exact .inr ⟨u, hu, rfl⟩
    · obtain ⟨u, hu, rfl⟩ := map_ok.1 h
      exact .inl (evCtloutDone_kept hu).1.setuprec
    · cases h
      exact .inl rfl
  · obtain ⟨outk, -, h⟩ := bind_ok.1 h
    obtain ⟨ink, -, h⟩ := bind_ok.1 h
    cases h
    split
    · exact .inl (evCtlinDone_kept _ s).1.setuprec
    · exact .inl rfl
  · cases h
    exact .inl rfl

/-! ## Steps -/

/-- N1 as a step shows it: the record is the eight bytes of the OUT buffer, noted as a new request in `SetupReceived`
(R191, R207). -/
def recordsRequest (s t : State) : Prop :=
  ∃ r, t.setuprec = some r ∧ t.trace = s.trace ++ [.newReq r] ∧ t.ctlstate = 0x01 ∧
    ∀ k, k < 8 → s.ramByte (s.par.ep0OutBuf.toNat + k) = some (r.extractLsb' (8 * k) 8)

theorem newRequest_records {s u : State} (h : newRequest s = .ok u) : recordsRequest s u := by
  obtain ⟨r, rfl, bytes⟩ := newRequest_record h
  exact ⟨r, rfl, rfl, rfl, bytes⟩

/-- An instruction that changes the record is `EV_NEWREQUEST` (R35, R37). -/
theorem exec_setuprec {i : Instr} {s t : State} (h : exec i s = .next t) (changed : t.setuprec ≠ s.setuprec) :
    recordsRequest s t := by
  obtain ⟨-, -, -, -, -, writer, -⟩ := globalWriters i s t h
  obtain rfl := writer changed
  obtain ⟨u, hu, rfl⟩ := execEvNewrequest_next h
  exact (newRequest_records hu :)

theorem microStep_setuprec {s t : State} (h : microStep s = .ok t) (changed : t.setuprec ≠ s.setuprec) :
    recordsRequest s t := by
  rcases microStep_cases h with ⟨x, rest, -, h⟩ | ⟨-, rfl | ⟨n, -, ⟨-, h⟩ | ⟨-, h⟩⟩⟩
  · exact absurd (runDispStep_setuprec h rfl) changed
  · exact absurd rfl changed
  · exact absurd (busEventStep_setuprec h) changed
  · rcases trncomplStep_setuprec h with kept | ⟨u, hu, rfl⟩
    · exact absurd kept changed
    · exact (newRequest_records hu :)

/-- Settles O57: of the four things a step can do, two leave the record alone, and `exec` and the micro-steps write it
only at N1. -/
theorem setupRecordWrittenAtN1 : Obligations.SetupRecordWrittenAtN1 := by
  intro s t h changed
  rcases step_cases h with rfl | ⟨i, cmd, bus, h⟩ | h | ⟨r, -, -, rfl⟩
  · exact absurd rfl changed
  · exact (exec_setuprec h changed :)
  · exact (microStep_setuprec h changed :)
  · exact absurd rfl changed

end Sys2Proof.Machine
end

section
/-! SUPPORT. The bridge (R231, R232, R234): what save and restore around a copy amount to, the ownership check of
`BRIDGE_COPY` in the words of claims, and the frame the two copies share. -/
namespace Sys2Proof.Machine

/-! ## `H.SAVEDMODE` -/

/-- Storing bytes touches neither `NVMCMD` nor `H.SAVEDMODE` (R42, R63). -/
theorem setRamBytes_saveMode (s : State) (a : Nat) (vs : List Byte) :
    s.saveMode.setRamBytes a vs = (s.setRamBytes a vs).saveMode := by
  induction vs generalizing s a with
  | nil => rfl
  | cons v vs ih => exact ih (s.setRamByte a v) (a + 1)

/-- What was saved is restored, and where the latch held nothing before it holds nothing after (R231, R234). -/
theorem restoreMode_saveMode {s : State} (h : s.hSavedMode = none) : s.saveMode.restoreMode = .ok s := by
  have restored : s.saveMode.restoreMode = .ok { s with hSavedMode := none } := rfl
  rw [restored, ← h]

/-! ## Ownership -/

/-- EP0 IN bank 0 owns a byte of the range that `BRIDGE_COPY` writes (R65, R231). -/
theorem ep0InOwns_iff {s : State} {n : Nat} (he : 0 < s.par.nEp) :
    s.ep0InOwns n = true ↔
      ∃ x, (s.par.ep0InBuf.toNat ≤ x ∧ x < s.par.ep0InBuf.toNat + n) ∧ bankOwns s .IN 0 .b0 x := by
  simp only [State.ep0InOwns, Option.any_eq_true, armedRange_eq_some, meets_iff, bankOwns]
  constructor
  · rintro ⟨r, ⟨armed, p, c, ptr, cnt, rfl⟩, x, inside, low, high⟩
    exact ⟨x, inside, he, armed, p, c, ptr, cnt, low, high⟩
  · rintro ⟨x, inside, -, armed, p, c, ptr, cnt, low, high⟩
    exact ⟨_, ⟨armed, p, c, ptr, cnt, rfl⟩, x, inside, low, high⟩

/-! ## The copy -/

/-- Bytes stored by a command change nothing but `RAM` and the output (R63). -/
theorem stored_frame (s : State) (a : Nat) (vs : List Byte) (o : Output) :
    sameEps s ((s.setRamBytes a vs).give o) ∧ sameGlobalsBut s ((s.setRamBytes a vs).give o) [] ∧
      sameRest s ((s.setRamBytes a vs).give o) := by
  simp [sameEps, sameGlobalsBut, sameRest, sameLaunch, sameHidden, sameLatches, samePorts]

/-- What fits EP0's packet can be written to the EP0 IN buffer (R6, R7). -/
theorem memWrite_ep0In {s : State} {vs : List Byte} (hp : paramsLegal s.par) (fits : vs.length ≤ maxPkt0 s.par) :
    memWrite s s.par.ep0InBuf.toNat vs = .ok (s.setRamBytes s.par.ep0InBuf.toNat vs) := by
  obtain ⟨-, -, -, -, -, -, -, inside, -⟩ := hp
  exact memWrite_of_le (Nat.le_trans (Nat.add_le_add_left fits _) inside)

/-- Past its checks `BRIDGE_COPY` stores the bytes of `PMEM`, in the neutral mode it set and then left (R230, R231). -/
theorem bridgeCopy_stores {s : State} {len : BitVec 16} {src : Addr} (hp : paramsLegal s.par) (hs : s.hSavedMode = none)
    (fits : len.toNat ≤ maxPkt0 s.par) (inside : src.toNat + len.toNat ≤ pmemSize s.par)
    (below : src.toNat < pmemSize s.par) (free : s.ep0InOwns len.toNat = false) :
    bridgeCopy len src s = .ok (s.setRamBytes s.par.ep0InBuf.toNat
      ((List.range len.toNat).map fun i => s.pmemByte (src.toNat + i))) := by
  rw [bridgeCopy, if_neg (by omega), if_neg (by omega), free]
  refine bind_ok.2 ⟨_, pmemReadBytes_ok rfl inside, bind_ok.2 ⟨_, memWrite_ep0In hp (by simpa using fits), ?_⟩⟩
  exact (congrArg State.restoreMode (setRamBytes_saveMode ..)).trans (restoreMode_saveMode (by simpa using hs))

/-! ## The obligations -/

/-- Settles O27: the checks one after the other, and then what `bridgeCopy_stores` stores. -/
theorem bridgeCopy_spec : Obligations.BridgeCopy := by
  intro s len src hb hp hs
  refine command_check hb rfl fun long hr => ?_
  refine command_check hb hr fun beyond hr => ?_
  rw [← ep0InOwns_iff hp.1]
  refine ⟨fun owned => command_of_error hb (hr.trans (if_pos owned)), fun free => ?_⟩
  obtain ⟨below, inside⟩ := not_or.1 beyond
  have copied := bridgeCopy_stores hp hs (Nat.not_lt.1 long) (Nat.not_lt.1 inside) (Nat.not_le.1 below)
    (Bool.eq_false_iff.2 free)
  obtain ⟨eps, globals, rest⟩ := stored_frame s s.par.ep0InBuf.toNat
    ((List.range len.toNat).map fun i => s.pmemByte (src.toNat + i)) .none
  refine ⟨_, command_of_ok hb copied, rfl, fun i hi => ?stored, fun x hx => ?kept, ?mode, eps, globals, rest⟩
  case stored => exact (ramByte_stored s _ _ (by simpa using hi)).trans (by simp [hi])
  case kept => exact setRamBytes_frame s _ _ x (by simpa using hx)
  case mode => simp

/-- Settles O28: the checks one after the other, and then what `memRead` answers; the bytes are those of the state
before the command, so that the ranges may overlap. -/
theorem bufCopy_spec : Obligations.BufCopy := by
  intro s len src hb hp
  refine command_check hb rfl fun long hr => ?_
  refine command_check hb hr fun beyond hr => ?_
  rw [← hwOwns_iff_hardwareOwns, ← hwOwns_iff_hardwareOwns, ← Bool.or_eq_true]
  refine ⟨fun owned => command_of_error hb (hr.trans (if_pos owned)), fun free => ?_⟩
  have hr := hr.trans (if_neg free)
  have inside := Nat.not_lt.1 (not_or.1 beyond).2
  refine ⟨fun empty => ?novalue, fun held => ?copied⟩
  case novalue =>
    rw [memRead_novalue inside empty] at hr
    exact command_of_error hb hr
  case copied =>
    obtain ⟨bytes, read, length, each⟩ := memRead_of_le inside held
    have copied := hr.trans (bind_ok.2 ⟨_, read, memWrite_ep0In hp (by omega)⟩)
    obtain ⟨eps, globals, rest⟩ := stored_frame s s.par.ep0InBuf.toNat bytes .none
    refine ⟨_, command_of_ok hb copied, rfl, fun i hi => ?stored, fun x hx => ?kept, eps, globals, rest⟩
    case stored => exact (ramByte_stored s _ _ (by rwa [length])).trans (each i hi).symm
    case kept => exact setRamBytes_frame s _ _ x (by rwa [length])

end Sys2Proof.Machine
end

section
/-! SUPPORT. What goes wrong and how it shows: a `DISABLED` direction turns a command down (R252), and a bus event
reports a condition in one flag of `INTFLAGSA` (R267). -/
namespace Sys2Proof.Machine

/-! ## A direction that is not initialised -/

/-- On a `DISABLED` direction of an existing endpoint the second check fails (R110, `CV_UNINIT` of R252). -/
theorem onInit_uninit {α : Type} {s : State} {d : Dir} {e : BitVec 4} {k : EpRegs → Except Fault α}
    (he : e.toNat < s.par.nEp) (ht : (s.ep d e).type = typeDisabled) : onInit s d e k = .error .cvUninit :=
  (onInit_of_lt he).trans (if_pos ht)

/-- Settles O12: every command that needs the direction initialised begins with the two checks of `onInit`. -/
theorem uninitFault : Obligations.UninitFault := by
  intro i e d s hb hi he ht
  cases i with
  | epCancel | epArm | epClrdone | epStall => cases hi; exact command_of_error hb (onInit_uninit he ht)
  | epIsdone | epIsready | epIsempty | epNextbank => cases hi; exact query_of_error hb (onInit_uninit he ht)
  | _ => cases hi

/-! ## The flags of bus events -/

/-- Each flag of `INTFLAGSA` is one bit (R32). -/
theorem flagsA_oneBit : ∀ m ∈ flagsA, ∃ k < 8, ∀ j < 8, j ∉ [k] → m.getLsbD j = false := by decide

section
variable {i : Instr} {s t : State}

/-- A bus event either leaves `INTFLAGSA` alone, or does nothing but set one of its flags and answer without
accepting (R254, R267). -/
theorem busEvent_intflagsa (hi : isBusEvent i = true) (h : exec i s = .next t) :
    t.intflagsa = s.intflagsa ∨
    ∃ m r, (r = .none ∨ r = .nak ∨ r = .stall) ∧ m ∈ flagsA ∧ t = (s.raiseA m).respond r := by
  rcases busEvent_cases hi h with ⟨r, rfl⟩ | flagged | ⟨e, a, p, c, buf, -, -, -, -, -, -, -, -, -, rfl⟩ |
    ⟨e, a, p, b, c, buf, -, -, -, -, -, -, -, -, rfl⟩ | ⟨e, a, b, bytes, -, -, -, -, rfl⟩
  · exact .inl rfl
  · exact .inr flagged
  · exact .inl (by simp [State.setupTaken])
  · exact .inl (by simp [State.outTaken])
  · exact .inl (by simp [State.complete])

end

/-- A flag set and an answer given change `INTFLAGSA` and the output only (R254). -/
theorem onlyGlobals_flagged (s : State) (m : Byte) (r : Response) : onlyGlobals s ((s.raiseA m).respond r) [2] :=
  ⟨sameEps_of_regs rfl rfl, fun _ => rfl, (raiseA_calm s m).globals, sameRest_refl s⟩

/-- No answer, `NAK` and `STALL` accept no transaction: what does is `ACK` or data (R89, R143 to R145). -/
theorem not_accepted {o : Output} {r : Response} (hr : r = .none ∨ r = .nak ∨ r = .stall) (ho : o = .response r) :
    ¬(o = .response .ack ∨ ∃ bytes, o = .response (.data bytes)) := by
  rcases hr with rfl | rfl | rfl <;> simp [ho]

/-- Settles O42: an event that leaves `INTFLAGSA` alone meets all three parts, and one that raises a flag writes that
one bit, changes nothing else and is not accepted. -/
theorem oneFlagAnEvent : Obligations.OneFlagAnEvent := by
  intro i s t hi h
  rcases busEvent_intflagsa hi h with same | ⟨m, r, hr, hm, rfl⟩
  case inl =>
    exact ⟨⟨0, by decide, fun k _ => congrArg (BitVec.getLsbD · k) same⟩, fun _ => same, fun changed =>
      absurd same changed⟩
  case inr =>
    obtain ⟨k, hk, others⟩ := flagsA_oneBit m hm
    exact ⟨⟨k, hk, sameBitsBut_or _ m _ others⟩, fun accepted => absurd accepted (not_accepted hr rfl), fun _ =>
      onlyGlobals_flagged s m r⟩

end Sys2Proof.Machine
end

section
/-! SUPPORT. Power-on reset (R281): the values it gives, and that the invariant every step keeps holds from there. -/
namespace Sys2Proof.Machine

/-! ## The groups -/

/-- No bank of an uninitialised direction holds a count or a reference (R281, R132). -/
theorem bank_off (b : Bank) : EpRegs.off.cnt b = none ∧ EpRegs.off.ptr b = none := by
  cases b <;> exact ⟨rfl, rfl⟩

/-! ## The clauses of the invariant -/

/-- Every group is off, no byte of `RAM` has a value, and the registers hold the values of R281. -/
theorem reset_core : State.reset.CoreInv := by
  refine ⟨?params, reset_memoryWf, ?ram, ?groups, ?gctrl, ?intflagsb, ?ctlstate, rfl⟩
  case params => decide
  case ram => exact List.forall_mem_nil _
  case groups => exact fun d e => (ep_reset d e).symm ▸ off_inv _
  case gctrl => decide
  case intflagsb => decide
  case ctlstate => decide

/-- No handler runs, and no latch of one has a value (R281). -/
theorem reset_handlerInv : handlerInv State.reset := ⟨rfl, rfl, rfl, rfl, rfl, rfl⟩

/-- No dispatch is in progress, and the engine is `Idle` (R281). -/
theorem reset_dispatchInv : dispatchInv State.reset := (dispatchInv_of_nil rfl).2 (by decide)

/-! ## The obligations -/

/-- Settles O1: a group by `ep_reset`, everything else as `State.reset` lists it. Neither request is true, since both
enables of `GCTRL` are 0 (R44, R285). -/
theorem resetState : Obligations.ResetState := by
  refine ⟨fun d e => ?group, rfl, rfl, rfl, rfl, rfl, rfl, rfl, fun _ => rfl, rfl, rfl, rfl, rfl, rfl, rfl, rfl, rfl,
    rfl, ?busev, ?trn⟩
  case group =>
    rw [ep_reset]
    exact ⟨rfl, rfl, bank_off⟩
  case busev => rfl
  case trn => rfl

/-- Settles O2: the core, and the two clauses on hidden state. -/
theorem resetInv : Obligations.ResetInv := inv_iff.2 ⟨reset_core, reset_handlerInv, reset_dispatchInv⟩

end Sys2Proof.Machine
end
